-- ==== Sys2Proof/Word.lean ====
section
/-! DEFINITION. The word types of ECREC's encoded objects: the byte of every record and buffer (20_memory R81), the
5-bit PHASE code (10_state R34) and the 16-bit library call descriptor (30_encoding R123). -/

namespace Sys2Proof

/-- The addressable unit of every buffer and record (20_memory R81). -/
abbrev Byte := BitVec 8

/-- A code of the micro-program counter PHASE (10_state R34). -/
abbrev PhaseCode := BitVec 5

/-- A library call descriptor (30_encoding R123). -/
abbrev LcdWord := BitVec 16

end Sys2Proof
end

