-- ==== Sys2Proof/Config.lean ====
section
/-! DEFINITION. What an implementation fixes (00_scope R9 to R12, R48 of 10_state; 92_eei_decisions, "Open parameters")
and the free values of the spec: opaque constants with no body, so that nothing can be proved of their value. -/

namespace Sys2Proof

/-- A point value: the point at infinity or a pair of coordinates (00_scope R15). -/
inductive Point where
  | inf
  | aff (x y : Nat)
  deriving DecidableEq, Repr

/-- The parameter `HEXCASE` (00_scope R11): the letter case of the derived hexadecimal view. -/
inductive HexCase where
  | lower
  | upper
  deriving DecidableEq, Repr

/-- The parameter `DECOMP_OOR` (00_scope R11): the library's answer to a decompression with x >= p. -/
inductive DecompOor where
  | domfail
  | reduce
  deriving DecidableEq, Repr

/-- One entry of the curve table: the `CurveParameters` p, n, G, L (00_scope R9) and the library-private coefficients
a, b of the realisation y^2 = x^3 + a x + b (46_library_calls R255, PRESUMED, log 11). -/
structure Curve where
  id : Byte
  p : Nat
  a : Nat
  b : Nat
  g : Point
  n : Nat
  l : Nat
  deriving DecidableEq, Repr

/-- The parameters of the step relation (10_state R48, 00_scope R11). -/
structure Params where
  /-- largest field byte-length the buffers can hold, 1 <= LMAX <= 127 -/
  lmax : Nat
  hexcase : HexCase
  decompOor : DecompOor
  /-- the map CURVEID -> curve (00_scope R10); the first entry with the identifier is its curve -/
  table : List Curve
  deriving DecidableEq, Repr

/-- HEXCAP, fixed (00_scope R11). -/
def Config.hexcap : Nat := 255

/-- BW, the magnitude width of a big-integer register, at its default (00_scope R11). -/
def Config.bw (lmax : Nat) : Nat := max (4 * Config.hexcap) (8 * lmax + 1)

/-- The curve table at reset: the spec has no default for it (93 U11), so it is a constant with no body (log 3). -/
opaque Config.curveTable : List Curve

/-- Free value: does the library answer RESFAIL at its k-th call (46 R242, 93 U6; log 6). -/
opaque Config.resFail : Nat → Bool

/-- Free value: does the library answer the call in flight, when it is its move for the k-th time (40 R159, 46 R243: after
finitely many steps, of no given number; log 1). -/
opaque Config.libReady : Nat → Bool

/-- Free value: the curve table the library goes over to at the end of its k-th call or reset, none where it keeps its table
(70 R303: the table may change between calls; log 36). -/
opaque Config.nextTable : Nat → Option (List Curve)

/-- Free value: does the host take the response when it is offered for the k-th time (40 R154, R157; log 8). -/
opaque Config.hostTakes : Nat → Bool

/-- Free value: the format-identifier byte of the encoding of the point (X, Y) on a curve (46 R253, 93 U7; log 14). -/
opaque Config.formatByte : Byte → Nat → Nat → Byte

/-- Free value: the library's answer to LC_BNINV(v, m) with m < 2, which 46 R248 does not give: a sign and a magnitude
that a B register holds, or none for DOMFAIL (log 15). -/
opaque Config.bnInvLow : Int → Int → Option (Bool × BitVec 1020)

/-- Free value: what stands for the inverse mod p of a field element that has none. No curve of 46 R255 asks for it on its own
points: it takes a p that is not prime, or points off the curve, such as (x, y1) + (x, y2) with y1 not ±y2, an inverse of 0
mod p (log 16, 35). -/
opaque Config.fieldInv : Nat → Nat → Nat

/-- The parameters at reset: the spec's defaults (00_scope R11; log 31) and the open curve table. -/
def Config.params : Params :=
  { lmax := 32, hexcase := .lower, decompOor := .domfail, table := Config.curveTable }

end Sys2Proof
end

