-- ==== Sys2Proof/Syntax.lean ====
section
/-! DEFINITION. The syntax: one constructor of `Instr` for each of the 33 rows of spec/opcode_table.json: the host command
RECOVER, the pseudo-operation RECOVER2, the 18 micro-ops and 3 resting codes of PHASE, the 10 library calls. -/

namespace Sys2Proof

/-- The big-integer registers B[0] to B[7] by name (10_state R41). -/
inductive BReg where
  | br | bs | bx | be | bne | bri | bn | bp
  deriving DecidableEq, Repr

/-- The point registers P[0] to P[6] by name; index 7 does not exist (10_state R43). -/
inductive PReg where
  | pg | pr | pchk | ps | pt | pu | pq
  deriving DecidableEq, Repr

/-- The buffer selector of LC_BNHEX (30_encoding R124). -/
inductive HexBuf where
  | rhex | shex
  deriving DecidableEq, Repr

/-- The instructions. A micro-op and a resting code have no operand of their own (30_encoding R120); a library call has
the descriptor's register numbers and immediates (R124); RECOVER carries the fields of REQ, its lengths being those of the
byte strings (R111). -/
inductive Instr where
  /-- host command: one recovery (40 R151) -/
  | recover (recid curveid : Byte) (digest rhex shex : List Byte)
  /-- host-side pseudo-operation: RECOVER id=0, then RECOVER id=1 (30 R132) -/
  | recover2 (curveid : Byte) (digest rhex shex : List Byte)
  | vrid
  | curve
  | parser
  | parses
  | trunc
  | setx
  | decomp
  | ordmul
  | ordchk
  | eload
  | inv
  | muls
  | neg
  | mulg
  | add
  | mulq
  | enc
  | strip
  /-- resting code: no call in progress (10_state R36) -/
  | idle
  /-- resting code: success, response pending (10_state R36) -/
  | done
  /-- resting code: failure, response pending (10_state R36) -/
  | fail
  | lcCurve
  | lcBnhex (dst : BReg) (src : HexBuf)
  | lcBnbin (dst : BReg)
  | lcBnneg (dst a : BReg)
  | lcBninv (dst v m : BReg)
  | lcPdec (dst : PReg) (x : BReg) (parity : BitVec 1)
  | lcPmul (dst : PReg) (k : BReg) (q : PReg)
  | lcPadd (dst a b : PReg)
  | lcPinf (a : PReg)
  | lcPenc (a : PReg)
  deriving DecidableEq, Repr

/-- The formats of the opcode table: the request record, the 5-bit micro-op code, the 16-bit descriptor, and the
pseudo-operation, which has no encoding (30_encoding R110, R132). -/
inductive Format where
  | req | uop | lcd | pseudo
  deriving DecidableEq, Repr

/-- The format spec/opcode_table.json gives each row. -/
def Instr.format : Instr → Format
  | .recover _ _ _ _ _ => .req
  | .recover2 _ _ _ _ => .pseudo
  | .vrid => .uop
  | .curve => .uop
  | .parser => .uop
  | .parses => .uop
  | .trunc => .uop
  | .setx => .uop
  | .decomp => .uop
  | .ordmul => .uop
  | .ordchk => .uop
  | .eload => .uop
  | .inv => .uop
  | .muls => .uop
  | .neg => .uop
  | .mulg => .uop
  | .add => .uop
  | .mulq => .uop
  | .enc => .uop
  | .strip => .uop
  | .idle => .uop
  | .done => .uop
  | .fail => .uop
  | .lcCurve => .lcd
  | .lcBnhex _ _ => .lcd
  | .lcBnbin _ => .lcd
  | .lcBnneg _ _ => .lcd
  | .lcBninv _ _ _ => .lcd
  | .lcPdec _ _ _ => .lcd
  | .lcPmul _ _ _ => .lcd
  | .lcPadd _ _ _ => .lcd
  | .lcPinf _ => .lcd
  | .lcPenc _ => .lcd

end Sys2Proof
end

