-- ==== Sys2Proof/WellFormed.lean ====
section
/-! DEFINITION. Well-formed instructions: the byte strings of a request fit its length fields, RLEN and SLEN of 8 bits and
DLEN of 16 (30_encoding R111). Every other instruction is well-formed by its type: its register numbers exist. -/

namespace Sys2Proof

/-- The three byte strings of a request fit DLEN (16 bits), RLEN and SLEN (8 bits) (30_encoding R111). -/
def lengthsFit (digest rhex shex : List Byte) : Bool :=
  decide (digest.length < 65536) && decide (rhex.length < 256) && decide (shex.length < 256)

/-- Well-formedness of an instruction. -/
def Instr.wf : Instr → Bool
  | .recover _ _ digest rhex shex => lengthsFit digest rhex shex
  | .recover2 _ digest rhex shex => lengthsFit digest rhex shex
  | .vrid | .curve | .parser | .parses | .trunc | .setx | .decomp | .ordmul | .ordchk | .eload | .inv | .muls | .neg
  | .mulg | .add | .mulq | .enc | .strip | .idle | .done | .fail => true
  | .lcCurve | .lcBnhex _ _ | .lcBnbin _ | .lcBnneg _ _ | .lcBninv _ _ _ | .lcPdec _ _ _ | .lcPmul _ _ _
  | .lcPadd _ _ _ | .lcPinf _ | .lcPenc _ => true

end Sys2Proof
end

