-- ==== Sys2Proof/Decode.lean ====
section
/-! DEFINITION. Decoding and encoding of the three objects that encode an instruction: the request record REQ
(30_encoding R111), the PHASE code UOP (R120) and the library call descriptor LCD (R123, R124). Total; what is no
instruction is rejected by name. -/

namespace Sys2Proof

/-- An encoded object that can hold an instruction (30_encoding R110). -/
inductive Encoded where
  /-- a request record, left-most byte first -/
  | req (bytes : List Byte)
  /-- a PHASE code -/
  | uop (code : PhaseCode)
  /-- a library call descriptor -/
  | lcd (word : LcdWord)
  deriving DecidableEq, Repr

/-- The format of an encoded object. -/
def Encoded.format : Encoded → Format
  | .req _ => .req
  | .uop _ => .uop
  | .lcd _ => .lcd

/-- Why an encoded object is no instruction. -/
inductive DecodeError where
  /-- REQ.CMD is not 0x01 (30_encoding R112) -/
  | reservedCmd (cmd : Byte)
  /-- the record is not 7 + DLEN + RLEN + SLEN bytes long (30_encoding R130, 93 U8) -/
  | badLength
  /-- PHASE 0x15 to 0x1F (30_encoding R122) -/
  | reservedPhase (code : PhaseCode)
  /-- LCD.op 0x0 or 0xB to 0xF (30_encoding R127) -/
  | reservedOp (word : LcdWord)
  /-- an LCD field that R124 gives no meaning: a register that does not exist, a selector or immediate out of range, a
  field that is always 0 -/
  | badField (word : LcdWord)
  deriving DecidableEq, Repr

/-! ### PHASE codes (30_encoding R120) -/

def Code.idle : PhaseCode := 0x00
def Code.vrid : PhaseCode := 0x01
def Code.curve : PhaseCode := 0x02
def Code.parser : PhaseCode := 0x03
def Code.parses : PhaseCode := 0x04
def Code.trunc : PhaseCode := 0x05
def Code.setx : PhaseCode := 0x06
def Code.decomp : PhaseCode := 0x07
def Code.ordmul : PhaseCode := 0x08
def Code.ordchk : PhaseCode := 0x09
def Code.eload : PhaseCode := 0x0A
def Code.inv : PhaseCode := 0x0B
def Code.muls : PhaseCode := 0x0C
def Code.neg : PhaseCode := 0x0D
def Code.mulg : PhaseCode := 0x0E
def Code.add : PhaseCode := 0x0F
def Code.mulq : PhaseCode := 0x10
def Code.enc : PhaseCode := 0x11
def Code.strip : PhaseCode := 0x12
def Code.done : PhaseCode := 0x13
def Code.fail : PhaseCode := 0x14

/-- The instruction a PHASE code names (30_encoding R120); 0x15 to 0x1F are reserved (R122). -/
def decodePhase (c : PhaseCode) : Except DecodeError Instr :=
  match c.toNat with
  | 0x00 => .ok .idle
  | 0x01 => .ok .vrid
  | 0x02 => .ok .curve
  | 0x03 => .ok .parser
  | 0x04 => .ok .parses
  | 0x05 => .ok .trunc
  | 0x06 => .ok .setx
  | 0x07 => .ok .decomp
  | 0x08 => .ok .ordmul
  | 0x09 => .ok .ordchk
  | 0x0A => .ok .eload
  | 0x0B => .ok .inv
  | 0x0C => .ok .muls
  | 0x0D => .ok .neg
  | 0x0E => .ok .mulg
  | 0x0F => .ok .add
  | 0x10 => .ok .mulq
  | 0x11 => .ok .enc
  | 0x12 => .ok .strip
  | 0x13 => .ok .done
  | 0x14 => .ok .fail
  | _ => .error (.reservedPhase c)

/-! ### Library call descriptors (30_encoding R123, R124) -/

/-- The B register with an index (10_state R41). -/
def BReg.ofIndex (i : BitVec 4) : Option BReg :=
  match i.toNat with
  | 0 => some .br
  | 1 => some .bs
  | 2 => some .bx
  | 3 => some .be
  | 4 => some .bne
  | 5 => some .bri
  | 6 => some .bn
  | 7 => some .bp
  | _ => none

/-- The index of a B register (10_state R41). -/
def BReg.index : BReg → BitVec 4
  | .br => 0
  | .bs => 1
  | .bx => 2
  | .be => 3
  | .bne => 4
  | .bri => 5
  | .bn => 6
  | .bp => 7

/-- The P register with an index; index 7 does not exist (10_state R43). -/
def PReg.ofIndex (i : BitVec 4) : Option PReg :=
  match i.toNat with
  | 0 => some .pg
  | 1 => some .pr
  | 2 => some .pchk
  | 3 => some .ps
  | 4 => some .pt
  | 5 => some .pu
  | 6 => some .pq
  | _ => none

/-- The index of a P register (10_state R43). -/
def PReg.index : PReg → BitVec 4
  | .pg => 0
  | .pr => 1
  | .pchk => 2
  | .ps => 3
  | .pt => 4
  | .pu => 5
  | .pq => 6

/-- The buffer selector of LC_BNHEX: 0 = RHEX, 1 = SHEX (30_encoding R124). -/
def HexBuf.ofIndex (i : BitVec 4) : Option HexBuf :=
  match i.toNat with
  | 0 => some .rhex
  | 1 => some .shex
  | _ => none

/-- The selector code of a hexadecimal buffer (30_encoding R124). -/
def HexBuf.index : HexBuf → BitVec 4
  | .rhex => 0
  | .shex => 1

/-- The parity immediate of LC_PDEC: 0 or 1 (30_encoding R124, R129). -/
def parityOfField (i : BitVec 4) : Option (BitVec 1) :=
  match i.toNat with
  | 0 => some 0
  | 1 => some 1
  | _ => none

/-- A field that is always 0 (30_encoding R124). -/
def zeroField (i : BitVec 4) : Option Unit :=
  if i = 0 then some () else none

/-- The library call with operation `op` and the fields `dst`, `a`, `b`, where R124 gives the fields a meaning. -/
def lcdOperands (op dst a b : BitVec 4) : Option Instr :=
  match op.toNat with
  | 0x1 => do
    zeroField dst
    zeroField a
    zeroField b
    some .lcCurve
  | 0x2 => do
    let d ← BReg.ofIndex dst
    let h ← HexBuf.ofIndex a
    zeroField b
    some (.lcBnhex d h)
  | 0x3 => do
    let d ← BReg.ofIndex dst
    zeroField a
    zeroField b
    some (.lcBnbin d)
  | 0x4 => do
    let d ← BReg.ofIndex dst
    let v ← BReg.ofIndex a
    zeroField b
    some (.lcBnneg d v)
  | 0x5 => do
    let d ← BReg.ofIndex dst
    let v ← BReg.ofIndex a
    let m ← BReg.ofIndex b
    some (.lcBninv d v m)
  | 0x6 => do
    let d ← PReg.ofIndex dst
    let x ← BReg.ofIndex a
    let v ← parityOfField b
    some (.lcPdec d x v)
  | 0x7 => do
    let d ← PReg.ofIndex dst
    let k ← BReg.ofIndex a
    let q ← PReg.ofIndex b
    some (.lcPmul d k q)
  | 0x8 => do
    let d ← PReg.ofIndex dst
    let p ← PReg.ofIndex a
    let q ← PReg.ofIndex b
    some (.lcPadd d p q)
  | 0x9 => do
    zeroField dst
    let q ← PReg.ofIndex a
    zeroField b
    some (.lcPinf q)
  | 0xA => do
    zeroField dst
    let q ← PReg.ofIndex a
    zeroField b
    some (.lcPenc q)
  | _ => none

/-- LCD.op values with a library operation: 0x1 to 0xA (30_encoding R124, R127). -/
def lcdOpDefined (op : BitVec 4) : Bool := decide (1 ≤ op.toNat ∧ op.toNat ≤ 0xA)

/-- The library call a descriptor names: op in bits [15:12], dst [11:8], a [7:4], b [3:0] (30_encoding R123). -/
def decodeLcd (w : LcdWord) : Except DecodeError Instr :=
  match lcdOperands (w.extractLsb' 12 4) (w.extractLsb' 8 4) (w.extractLsb' 4 4) (w.extractLsb' 0 4) with
  | some i => .ok i
  | none => if lcdOpDefined (w.extractLsb' 12 4) then .error (.badField w) else .error (.reservedOp w)

/-! ### The request record (30_encoding R111) -/

/-- A 16-bit length from its two bytes, high byte first (20_memory R88). -/
def be16 (hi lo : Byte) : Nat := 256 * hi.toNat + lo.toNat

/-- The request a record holds: the seven bytes of the header, then DIGEST, RHEX and SHEX (30_encoding R111). -/
def decodeReq (bytes : List Byte) : Except DecodeError Instr :=
  match bytes with
  | cmd :: recid :: curveid :: rlen :: slen :: dlenHi :: dlenLo :: body =>
    if cmd = 0x01 then
      if body.length = be16 dlenHi dlenLo + rlen.toNat + slen.toNat then
        .ok (.recover recid curveid (body.take (be16 dlenHi dlenLo))
          ((body.drop (be16 dlenHi dlenLo)).take rlen.toNat) (body.drop (be16 dlenHi dlenLo + rlen.toNat)))
      else .error .badLength
    else .error (.reservedCmd cmd)
  | cmd :: _ => if cmd = 0x01 then .error .badLength else .error (.reservedCmd cmd)
  | [] => .error .badLength

/-- The instruction an encoded object holds. -/
def decode : Encoded → Except DecodeError Instr
  | .req bytes => decodeReq bytes
  | .uop c => decodePhase c
  | .lcd w => decodeLcd w

/-! ### The encoder, from the same tables -/

/-- A descriptor from its four fields (30_encoding R123). -/
def lcdWord (op dst a b : BitVec 4) : LcdWord := op ++ dst ++ a ++ b

/-- The parity immediate: zext_4(V) (30_encoding R129). -/
def parityField (v : BitVec 1) : BitVec 4 := v.setWidth 4

/-- A request record with CMD = 0x01 (30_encoding R111); DLEN is big-endian (20_memory R88). -/
def reqBytes (recid curveid : Byte) (digest rhex shex : List Byte) : List Byte :=
  [0x01, recid, curveid, BitVec.ofNat 8 rhex.length, BitVec.ofNat 8 shex.length,
    BitVec.ofNat 8 (digest.length / 256), BitVec.ofNat 8 digest.length] ++ digest ++ rhex ++ shex

/-- The encoded object of an instruction; the pseudo-operation RECOVER2 has none (30_encoding R132). -/
def encode : Instr → Option Encoded
  | .recover recid curveid digest rhex shex => some (.req (reqBytes recid curveid digest rhex shex))
  | .recover2 _ _ _ _ => none
  | .vrid => some (.uop Code.vrid)
  | .curve => some (.uop Code.curve)
  | .parser => some (.uop Code.parser)
  | .parses => some (.uop Code.parses)
  | .trunc => some (.uop Code.trunc)
  | .setx => some (.uop Code.setx)
  | .decomp => some (.uop Code.decomp)
  | .ordmul => some (.uop Code.ordmul)
  | .ordchk => some (.uop Code.ordchk)
  | .eload => some (.uop Code.eload)
  | .inv => some (.uop Code.inv)
  | .muls => some (.uop Code.muls)
  | .neg => some (.uop Code.neg)
  | .mulg => some (.uop Code.mulg)
  | .add => some (.uop Code.add)
  | .mulq => some (.uop Code.mulq)
  | .enc => some (.uop Code.enc)
  | .strip => some (.uop Code.strip)
  | .idle => some (.uop Code.idle)
  | .done => some (.uop Code.done)
  | .fail => some (.uop Code.fail)
  | .lcCurve => some (.lcd (lcdWord 0x1 0 0 0))
  | .lcBnhex d h => some (.lcd (lcdWord 0x2 d.index h.index 0))
  | .lcBnbin d => some (.lcd (lcdWord 0x3 d.index 0 0))
  | .lcBnneg d v => some (.lcd (lcdWord 0x4 d.index v.index 0))
  | .lcBninv d v m => some (.lcd (lcdWord 0x5 d.index v.index m.index))
  | .lcPdec d x v => some (.lcd (lcdWord 0x6 d.index x.index (parityField v)))
  | .lcPmul d k q => some (.lcd (lcdWord 0x7 d.index k.index q.index))
  | .lcPadd d p q => some (.lcd (lcdWord 0x8 d.index p.index q.index))
  | .lcPinf q => some (.lcd (lcdWord 0x9 0 q.index 0))
  | .lcPenc q => some (.lcd (lcdWord 0xA 0 q.index 0))

/-! ### Words as the opcode table numbers them -/

/-- The k-th byte of a number, byte 0 the least significant. -/
def byteOf (w k : Nat) : Byte := BitVec.ofNat 8 (w / 256 ^ k)

/-- The first `n` bytes of a number, byte 0 first. -/
def bytesOf (w n : Nat) : List Byte := (List.range n).map (byteOf w)

/-- The whole length of the request record whose first bytes are given (30_encoding R130). -/
def reqLength (header : List Byte) : Nat :=
  7 + be16 (header.getD 5 0) (header.getD 6 0) + (header.getD 3 0).toNat + (header.getD 4 0).toNat

/-- A request record from a table word: its bytes, and zeros up to the length its header gives. -/
def reqOfWord (nbits w : Nat) : List Byte :=
  let given := bytesOf w (nbits / 8)
  given ++ List.replicate (reqLength given - given.length) 0

/-- The encoded object of a word numbered as spec/opcode_table.json numbers it (log 22). A PHASE code is 5 bits, padded
to a byte; a descriptor is 16 bits; any other whole number of bytes is a request record. One byte 0x01 is both RECOVER's
CMD and VRID's PHASE code: it is read as RECOVER, and VRID as the same number in 5 bits. -/
def encodedOfWord (nbits w : Nat) : Option Encoded :=
  if nbits = 16 then some (.lcd (BitVec.ofNat 16 w))
  else if nbits = 8 ∧ w = 1 then some (.req (reqOfWord nbits w))
  else if nbits ≤ 8 then
    if w < 32 then some (.uop (BitVec.ofNat 5 w)) else none
  else if nbits % 8 = 0 then some (.req (reqOfWord nbits w))
  else none

/-- The instruction the decoder reads from a word of the opcode table. -/
def decodeTableWord (nbits w : Nat) : Option Instr :=
  match encodedOfWord nbits w with
  | some e =>
    match decode e with
    | .ok i => some i
    | .error _ => none
  | none => none

end Sys2Proof
end

