-- ==== Sys2Proof/Machine/State.lean ====
section
/-! DEFINITION. The state as plain data, by agent (00_scope R8): SEQ's registers and buffers (10_state), the call in flight
between SEQ and LIB (30_encoding R125, R126), and the model's own fields for HOST and LIB. A data register is `none` while
its valid bit is 0: "it is not zero and not any other number" (10_state R32). -/

namespace Sys2Proof.Machine

/-- The eight big-integer registers (10_state R41), each a valid bit and an integer (R14 of 00_scope). -/
structure BFile where
  br : Option Int
  bs : Option Int
  bx : Option Int
  be : Option Int
  bne : Option Int
  bri : Option Int
  /-- n, alias of CP.n (10_state R40) -/
  bn : Option Int
  /-- p, alias of CP.p (10_state R40) -/
  bp : Option Int
  deriving DecidableEq, Repr

/-- The seven point registers (10_state R43). -/
structure PFile where
  /-- G, alias of CP.G (10_state R40) -/
  pg : Option Point
  pr : Option Point
  pchk : Option Point
  ps : Option Point
  pt : Option Point
  pu : Option Point
  pq : Option Point
  deriving DecidableEq, Repr

/-- The five byte buffers, each its own index space (20_memory R80): the cells that hold a byte, by index. -/
structure Memory where
  digest : List Host.Cell
  rhex : List Host.Cell
  shex : List Host.Cell
  encbuf : List Host.Cell
  result : List Host.Cell
  deriving DecidableEq, Repr

/-- The buffers by name (20_memory R80). -/
inductive BufSel where
  | digest | rhex | shex | encbuf | result
  deriving DecidableEq, Repr

/-- The registers with a valid bit (10_state R32), to say which one an invalid read met. A buffer's valid bit is that of
its length register. -/
inductive RegName where
  | recid | curveid | dlen | rlen | slen
  | v | inff | deff | rlenb | enclen | cpL
  | b (r : BReg)
  | p (r : PReg)
  deriving DecidableEq, Repr

/-- SEQ's registers and buffers (10_state R34 to R46). -/
structure Seq where
  /-- the micro-program counter (R34) -/
  phase : PhaseCode
  /-- a descriptor has been issued and its return not consumed (R37) -/
  callpend : Bool
  /-- the descriptor of that call; meaningful only while CALLPEND = 1 (R37) -/
  lcd : LcdWord
  /-- error kind (R39) -/
  errkind : BitVec 3
  /-- PHASE code at which the failure originated (R39) -/
  errphase : PhaseCode
  /-- the canonical recovery id (R38) -/
  v : Option (BitVec 1)
  /-- the library's answer to "is n·R the point at infinity" (R38) -/
  inff : Option (BitVec 1)
  /-- effective digest length (R39) -/
  deff : Option (BitVec 8)
  /-- length of RESULT (R39) -/
  rlenb : Option (BitVec 8)
  /-- length of ENCBUF (R39) -/
  enclen : Option (BitVec 9)
  /-- byte-length of field elements (R40) -/
  cpL : Option (BitVec 8)
  b : BFile
  p : PFile
  /-- the request latch (R45) -/
  recid : Option Byte
  curveid : Option Byte
  dlen : Option (BitVec 16)
  rlen : Option Byte
  slen : Option Byte
  mem : Memory
  deriving DecidableEq, Repr

/-- The argument values sent with a descriptor, by operation (30_encoding R125): register contents, buffer contents, and
CURVEID where the operation is answered on the call's curve (46 R244; log 17). Immediates travel in the descriptor. -/
inductive LMsg where
  | curve (id : Byte)
  | bnhex (h : List Byte)
  | bnbin (d : List Byte)
  | bnneg (v : Int)
  | bninv (v m : Int)
  | pdec (id : Byte) (x : Int)
  | pmul (id : Byte) (k : Int) (q : Point)
  | padd (id : Byte) (a b : Point)
  | pinf (a : Point)
  | penc (id : Byte) (a : Point)
  deriving DecidableEq, Repr

/-- The value of an OK return (30_encoding R126). -/
inductive LVal where
  | curve (p n : Nat) (g : Point) (l : Nat)
  | int (v : Int)
  | point (q : Point)
  | bit (b : BitVec 1)
  | bytes (bs : List Byte)
  deriving DecidableEq, Repr

/-- A library return: its 2-bit status, 0 to 3 in this order, and the value of status 0 (30_encoding R126). -/
inductive LRet where
  | ok (v : LVal)
  | domfail
  | resfail
  /-- status 3, never returned; treated as RESFAIL -/
  | reserved
  deriving DecidableEq, Repr

/-- The call in flight between SEQ and LIB (30_encoding R125). -/
inductive Chan where
  | idle
  | sent (m : LMsg)
  | returned (r : LRet)
  deriving DecidableEq, Repr

/-- A request record presented by a host. -/
structure Request where
  bytes : List Byte
  /-- the record the host presents when the response to this one is accepted: RECOVER2's second (30_encoding R132; log 23) -/
  follow : Option (List Byte)
  deriving DecidableEq, Repr

/-- A request with none to follow it. -/
def Request.single (bytes : List Byte) : Request := { bytes := bytes, follow := none }

/-- The agent HOST, as far as ECREC meets it (40 R150, R154, R157; log 7 to 10). The model's own fields. -/
structure HostSide where
  /-- the records presented and not yet taken, oldest first -/
  reqs : List Request
  /-- the record the host presents when the response of the call in progress is accepted (30_encoding R132; log 23) -/
  follow : Option (List Byte)
  /-- the coming answers to "is the response taken now"; when none is left, `Config.hostTakes` answers -/
  takes : List Bool
  /-- how many answers `Config.hostTakes` has given -/
  takeIx : Nat
  /-- the responses taken, oldest first -/
  rsps : List (List Byte)
  /-- the reset input is asserted (70 R301) -/
  rst : Bool
  deriving DecidableEq, Repr

/-- The agent LIB, as far as the step depends on it (10_state R48; log 1, 2, 6, 36). The model's own fields. -/
structure LibSide where
  params : Params
  /-- the coming answers to "is the call in flight answered now"; when none is left, `Config.libReady` answers -/
  ready : List Bool
  /-- how many answers `Config.libReady` has given -/
  readyIx : Nat
  /-- the curve tables gone over to at the coming ends of calls, none where the table stays; when none is left,
  `Config.nextTable` gives them -/
  tables : List (Option (List Curve))
  /-- how many tables `Config.nextTable` has given -/
  tableIx : Nat
  /-- the coming draws of RESFAIL (46 R242); when none is left, `Config.resFail` draws -/
  fails : List Bool
  /-- how many draws `Config.resFail` has given -/
  failIx : Nat
  deriving DecidableEq, Repr

structure State where
  seq : Seq
  chan : Chan
  host : HostSide
  lib : LibSide
  deriving DecidableEq, Repr

/-- The model faults of 60 R285: states the rules say cannot arise. None is an ECREC error kind. -/
inductive Fault where
  /-- raised by any micro-op, response or call issue that reads a register whose valid bit is 0 (10_state R33). Safe. -/
  | invalidRead (r : RegName)
  /-- raised by a buffer read past the valid length or a write past the capacity (20_memory R82, R80). Safe. -/
  | bufferRange (b : BufSel)
  /-- raised by the step when PHASE holds 0x15 to 0x1F (30_encoding R122). Safe. -/
  | reservedPhase (c : PhaseCode)
  /-- raised by the step for a sent descriptor that is no library call: "never issued" (30_encoding R127, R128; 93 U10:
  unreachable; log 21). Safe. -/
  | reservedLcd (w : LcdWord)
  /-- raised by a library call run while no call of its operation is outstanding (30_encoding R125). Safe. -/
  | noCall
  /-- raised by a micro-op whose call returned OK with a value of another operation's type (30_encoding R126). Safe. -/
  | returnType
  deriving DecidableEq, Repr

/-- The refusals of 60 R285: what the spec gives no meaning. -/
inductive Refusal where
  /-- raised by exec for an instruction with no meaning yet. Safe. -/
  | notModelled (mnemonic : String)
  /-- raised by the step for a request whose CMD is not 0x01 (30_encoding R112). Safe. -/
  | reservedCmd (cmd : Byte)
  /-- raised by the step for a request whose lengths contradict the record (93 U8). Safe. -/
  | badLength
  deriving DecidableEq, Repr

/-- What a meaning answers. -/
abbrev Out := Host.Outcome State Fault Refusal

def BFile.reset : BFile :=
  { br := none, bs := none, bx := none, be := none, bne := none, bri := none, bn := none, bp := none }

def PFile.reset : PFile :=
  { pg := none, pr := none, pchk := none, ps := none, pt := none, pu := none, pq := none }

def Memory.reset : Memory := { digest := [], rhex := [], shex := [], encbuf := [], result := [] }

/-- SEQ after reset (10_state R49): LCD is unspecified there, 0x0000 is the model's (DESIGN CHOICE, log 5). -/
def Seq.reset : Seq :=
  { phase := 0x00, callpend := false, lcd := 0x0000, errkind := 0, errphase := 0x00,
    v := none, inff := none, deff := none, rlenb := none, enclen := none, cpL := none,
    b := BFile.reset, p := PFile.reset,
    recid := none, curveid := none, dlen := none, rlen := none, slen := none, mem := Memory.reset }

/-- The machine right after reset (70 R300): no request presented, nothing scripted (log 1, 6 to 10, 36). -/
def State.reset : State :=
  { seq := Seq.reset, chan := .idle,
    host := { reqs := [], follow := none, takes := [], takeIx := 0, rsps := [], rst := false },
    lib := { params := Config.params, ready := [], readyIx := 0, tables := [], tableIx := 0, fails := [], failIx := 0 } }

end Sys2Proof.Machine
end

