-- ==== Sys2Proof/Machine/Ops.lean ====
section
/-! DEFINITION. The named operations: reads and writes of registers and buffers, the failure exit (60 R280) and the return to
rest (40 R156), the library call mechanism (30_encoding R125), the free draws, the two host channels, the fetch. -/

namespace Sys2Proof.Machine

/-! ### Registers -/

/-- B[r] (10_state R41). -/
def BFile.get (f : BFile) : BReg → Option Int
  | .br => f.br
  | .bs => f.bs
  | .bx => f.bx
  | .be => f.be
  | .bne => f.bne
  | .bri => f.bri
  | .bn => f.bn
  | .bp => f.bp

/-- B[r] <- v: writes the register and sets its valid bit (00_scope R16). -/
def BFile.set (f : BFile) (r : BReg) (v : Int) : BFile :=
  match r with
  | .br => { f with br := some v }
  | .bs => { f with bs := some v }
  | .bx => { f with bx := some v }
  | .be => { f with be := some v }
  | .bne => { f with bne := some v }
  | .bri => { f with bri := some v }
  | .bn => { f with bn := some v }
  | .bp => { f with bp := some v }

/-- P[r] (10_state R43). -/
def PFile.get (f : PFile) : PReg → Option Point
  | .pg => f.pg
  | .pr => f.pr
  | .pchk => f.pchk
  | .ps => f.ps
  | .pt => f.pt
  | .pu => f.pu
  | .pq => f.pq

/-- P[r] <- q: writes the register and sets its valid bit (00_scope R16). -/
def PFile.set (f : PFile) (r : PReg) (q : Point) : PFile :=
  match r with
  | .pg => { f with pg := some q }
  | .pr => { f with pr := some q }
  | .pchk => { f with pchk := some q }
  | .ps => { f with ps := some q }
  | .pt => { f with pt := some q }
  | .pu => { f with pu := some q }
  | .pq => { f with pq := some q }

/-- A register's value, or the model fault of reading it while its valid bit is 0 (10_state R33). -/
def must {α : Type} (r : RegName) (x : Option α) : Except Fault α :=
  match x with
  | some a => .ok a
  | none => .error (.invalidRead r)

def Seq.readB (q : Seq) (r : BReg) : Except Fault Int := must (.b r) (q.b.get r)

def Seq.readP (q : Seq) (r : PReg) : Except Fault Point := must (.p r) (q.p.get r)

def Seq.writeB (q : Seq) (r : BReg) (v : Int) : Seq := { q with b := q.b.set r v }

def Seq.writeP (q : Seq) (r : PReg) (v : Point) : Seq := { q with p := q.p.set r v }

/-! ### Buffers (20_memory R80, R82) -/

/-- The byte at index `i`, if one is held there. -/
def readCell (cells : List Host.Cell) (i : Nat) : Option Byte :=
  match cells with
  | [] => none
  | (j, x) :: rest => if j = i then some x else readCell rest i

/-- The cells of a byte string stored from index `i` on. -/
def cellsFrom (i : Nat) (bytes : List Byte) : List Host.Cell :=
  match bytes with
  | [] => []
  | x :: rest => (i, x) :: cellsFrom (i + 1) rest

/-- A byte string stored at the indexes `i`, `i+1`, …; every other index as before. -/
def writeCells (cells : List Host.Cell) (i : Nat) (bytes : List Byte) : List Host.Cell :=
  cells.filter (fun c => decide (c.1 < i)) ++ cellsFrom i bytes
    ++ cells.filter (fun c => decide (i + bytes.length ≤ c.1))

/-- The n bytes from index `i`, left-most first, if every one is held. -/
def readCells (cells : List Host.Cell) (i : Nat) : Nat → Option (List Byte)
  | 0 => some []
  | n + 1 =>
    match readCell cells i, readCells cells (i + 1) n with
    | some x, some rest => some (x :: rest)
    | _, _ => none

/-- The canonical form of one buffer: indexes strictly rising. An unlisted index holds no value, so no entry equals it. -/
def rising : List Host.Cell → Bool
  | [] => true
  | [_] => true
  | c :: d :: rest => decide (c.1 < d.1) && rising (d :: rest)

def Memory.get (m : Memory) : BufSel → List Host.Cell
  | .digest => m.digest
  | .rhex => m.rhex
  | .shex => m.shex
  | .encbuf => m.encbuf
  | .result => m.result

def Memory.set (m : Memory) (b : BufSel) (cells : List Host.Cell) : Memory :=
  match b with
  | .digest => { m with digest := cells }
  | .rhex => { m with rhex := cells }
  | .shex => { m with shex := cells }
  | .encbuf => { m with encbuf := cells }
  | .result => { m with result := cells }

/-- The canonical form of all five buffers. -/
def Memory.wf (m : Memory) : Bool :=
  rising m.digest && rising m.rhex && rising m.shex && rising m.encbuf && rising m.result

/-- The byte a buffer holds at an index. -/
def Seq.byteAt (q : Seq) (b : BufSel) (i : Nat) : Option Byte := readCell (q.mem.get b) i

/-- The size in bytes of a buffer (20_memory R80). -/
def capacity (lmax : Nat) : BufSel → Nat
  | .digest => lmax
  | .rhex => Config.hexcap
  | .shex => Config.hexcap
  | .encbuf => 2 * lmax + 1
  | .result => 2 * lmax

/-- The valid length of a buffer: DLEN capped at LMAX, RLEN, SLEN, ENCLEN, RLENB (20_memory R82). -/
def Seq.validLen (q : Seq) (lmax : Nat) : BufSel → Except Fault Nat
  | .digest => do
    let n ← must .dlen q.dlen
    pure (min n.toNat lmax)
  | .rhex => do
    let n ← must .rlen q.rlen
    pure n.toNat
  | .shex => do
    let n ← must .slen q.slen
    pure n.toNat
  | .encbuf => do
    let n ← must .enclen q.enclen
    pure n.toNat
  | .result => do
    let n ← must .rlenb q.rlenb
    pure n.toNat

/-- MemRead(buf, i, n) (20_memory R82): a read past the valid length is a model fault. -/
def Seq.memRead (q : Seq) (lmax : Nat) (b : BufSel) (i n : Nat) : Except Fault (List Byte) := do
  let len ← q.validLen lmax b
  if i + n ≤ len then
    match readCells (q.mem.get b) i n with
    | some bytes => .ok bytes
    | none => .error (.bufferRange b)
  else .error (.bufferRange b)

/-- MemWrite(buf, i, n, v) (20_memory R82); a buffer has no byte past its capacity (R80). -/
def Seq.memWrite (q : Seq) (lmax : Nat) (b : BufSel) (i : Nat) (bytes : List Byte) : Except Fault Seq :=
  if i + bytes.length ≤ capacity lmax b then
    .ok { q with mem := q.mem.set b (writeCells (q.mem.get b) i bytes) }
  else .error (.bufferRange b)

/-! ### Completion, failure exit, return to rest -/

/-- What a meaning answers, from a computation that can meet a model fault. -/
def run (x : Except Fault State) : Out :=
  match x with
  | .ok s => .next s
  | .error f => .fault f

/-- The four error kinds (60 R271). -/
inductive ErrKind where
  | invalidRecoveryId | invalidPoint | noInverse | arithmeticFailure
  deriving DecidableEq, Repr

/-- The ERRKIND code of a kind (30_encoding R115). -/
def ErrKind.code : ErrKind → BitVec 3
  | .invalidRecoveryId => 1
  | .invalidPoint => 2
  | .noInverse => 3
  | .arithmeticFailure => 4

/-- `next`: PHASE <- c + 1 for the micro-op with code c (30_encoding R121). -/
def Seq.next (q : Seq) (c : PhaseCode) : Seq := { q with phase := c + 1 }

/-- Every data register and output buffer loses its value: B, P, CP, V, INFF, DEFF, ENCBUF, RESULT (60 R280). -/
def Seq.dropData (q : Seq) : Seq :=
  { q with
    v := none, inff := none, deff := none, rlenb := none, enclen := none, cpL := none,
    b := BFile.reset, p := PFile.reset,
    mem := { q.mem with encbuf := [], result := [] } }

/-- The request latch loses its value (40 R156). -/
def Seq.dropLatch (q : Seq) : Seq :=
  { q with
    recid := none, curveid := none, dlen := none, rlen := none, slen := none,
    mem := { q.mem with digest := [], rhex := [], shex := [] } }

/-- The failure exit of a micro-op with code `c`, on SEQ's registers (60 R280). -/
def Seq.failExit (q : Seq) (k : ErrKind) (c : PhaseCode) : Seq :=
  { q.dropData with errkind := k.code, errphase := c, callpend := false, phase := 0x14 }

/-- Response acceptance, on SEQ's registers (40 R156). -/
def Seq.rest (q : Seq) : Seq :=
  { q.dropData.dropLatch with errkind := 0, errphase := 0x00, callpend := false, phase := 0x00 }

/-- `raise <Kind>` in the micro-op with code `c`, as one step (60 R280); the return it was taken on is consumed
(30_encoding R125). -/
def raise (k : ErrKind) (c : PhaseCode) (s : State) : State :=
  { s with seq := s.seq.failExit k c, chan := .idle }

/-- A micro-op without a library call completes: its writes `q`, then `next`. -/
def advance (c : PhaseCode) (q : Seq) (s : State) : State := { s with seq := q.next c }

/-- The commit of a micro-op with a library call: the return is consumed, CALLPEND <- 0, its writes `q`, then `next`
(30_encoding R125). -/
def complete (c : PhaseCode) (q : Seq) (s : State) : State :=
  { s with seq := { q.next c with callpend := false }, chan := .idle }

/-! ### The library call mechanism (30_encoding R125) -/

/-- The descriptor word of a library call; 0 for what is none. -/
def descriptor (d : Instr) : LcdWord :=
  match encode d with
  | some (.lcd w) => w
  | _ => 0

/-- Issue: LCD holds the descriptor, the values `m` are sent, CALLPEND <- 1. -/
def sendCall (d : Instr) (m : LMsg) (s : State) : State :=
  { s with seq := { s.seq with lcd := descriptor d, callpend := true }, chan := .sent m }

/-- A micro-op with a library call: with CALLPEND = 0 it issues; with the return there it commits; between the two it
waits, "SEQ takes no other step": DEDUCED, log 26. -/
def callStep (issue : Except Fault State) (commit : LRet → Except Fault State) (s : State) : Out :=
  run (if s.seq.callpend then
      match s.chan with
      | .returned r => commit r
      | .sent _ => .ok s
      | .idle => .ok s
    else issue)

/-- The commit of a call that writes a B register, with the kind its DOMFAIL raises (30_encoding R126, 60 R272). -/
def commitInt (c : PhaseCode) (dst : BReg) (onDom : ErrKind) (s : State) (r : LRet) : Except Fault State :=
  match r with
  | .ok (.int v) => .ok (complete c (s.seq.writeB dst v) s)
  | .ok _ => .error .returnType
  | .domfail => .ok (raise onDom c s)
  | .resfail => .ok (raise .arithmeticFailure c s)
  | .reserved => .ok (raise .arithmeticFailure c s)

/-- The commit of a call that writes a P register, with the kind its DOMFAIL raises (30_encoding R126, 60 R272). -/
def commitPoint (c : PhaseCode) (dst : PReg) (onDom : ErrKind) (s : State) (r : LRet) : Except Fault State :=
  match r with
  | .ok (.point q) => .ok (complete c (s.seq.writeP dst q) s)
  | .ok _ => .error .returnType
  | .domfail => .ok (raise onDom c s)
  | .resfail => .ok (raise .arithmeticFailure c s)
  | .reserved => .ok (raise .arithmeticFailure c s)

/-- The free draw of RESFAIL for one call (46 R242), and LIB after it. -/
def drawFail (l : LibSide) : Bool × LibSide :=
  match l.fails with
  | b :: rest => (b, { l with fails := rest })
  | [] => (Config.resFail l.failIx, { l with failIx := l.failIx + 1 })

/-- The free draw of whether LIB answers now the call in flight (40 R159, 46 R243), and LIB after it. -/
def drawReady (l : LibSide) : Bool × LibSide :=
  match l.ready with
  | b :: rest => (b, { l with ready := rest })
  | [] => (Config.libReady l.readyIx, { l with readyIx := l.readyIx + 1 })

/-- The free draw of the curve table that LIB goes over to between two calls, if it does (70 R303), and LIB after it. -/
def drawTable (l : LibSide) : Option (List Curve) × LibSide :=
  match l.tables with
  | x :: rest => (x, { l with tables := rest })
  | [] => (Config.nextTable l.tableIx, { l with tableIx := l.tableIx + 1 })

/-- LIB with the curve table `x`, or with its own where there is none. -/
def LibSide.withTable (l : LibSide) (x : Option (List Curve)) : LibSide :=
  match x with
  | some table => { l with params := { l.params with table := table } }
  | none => l

/-- LIB when a call has ended: its curve table may have changed (70 R303). -/
def betweenCalls (l : LibSide) : LibSide := (drawTable l).2.withTable (drawTable l).1

/-- LIB answers the call in flight: RESFAIL if the draw says so, else the answer its argument values determine. -/
def answer (r : LRet) (s : State) : State :=
  { s with chan := .returned (if (drawFail s.lib).1 then .resfail else r), lib := (drawFail s.lib).2 }

/-- A library call: the answer `f` gives to the argument values in flight. -/
def serve (f : LMsg → Option LRet) (s : State) : Out :=
  match s.chan with
  | .sent m =>
    match f m with
    | some r => .next (answer r s)
    | none => .fault .noCall
  | .returned _ => .fault .noCall
  | .idle => .fault .noCall

/-! ### The host channels -/

/-- A request record is presented: it waits on the channel, neither lost nor seen (40 R150). -/
def present (r : Request) (s : State) : State :=
  { s with host := { s.host with reqs := s.host.reqs ++ [r] } }

/-- Request acceptance (40 R151): the latch is written as a whole, every other valid bit cleared, PHASE <- VRID. -/
def accept (recid curveid : Byte) (digest rhex shex : List Byte) (s : State) : Except Fault State := do
  let q := { s.seq.rest with
    recid := some recid, curveid := some curveid,
    rlen := some (BitVec.ofNat 8 rhex.length), slen := some (BitVec.ofNat 8 shex.length),
    dlen := some (BitVec.ofNat 16 digest.length) }
  let q ← q.memWrite s.lib.params.lmax .digest 0 (digest.take (min digest.length s.lib.params.lmax))
  let q ← q.memWrite s.lib.params.lmax .rhex 0 rhex
  let q ← q.memWrite s.lib.params.lmax .shex 0 shex
  .ok { s with seq := { q with phase := 0x01 }, chan := .idle }

/-- The host's answer to "is the response taken now" (40 R157), and the host after it. -/
def drawTake (h : HostSide) : Bool × HostSide :=
  match h.takes with
  | b :: rest => (b, { h with takes := rest })
  | [] => (Config.hostTakes h.takeIx, { h with takeIx := h.takeIx + 1 })

/-- The response record of a success: STATUS 0, EPHASE 0, PLEN, payload (40 R154, 30_encoding R114). -/
def successRsp (s : State) : Except Fault (List Byte) := do
  let n ← must .rlenb s.seq.rlenb
  let payload ← s.seq.memRead s.lib.params.lmax .result 0 n.toNat
  .ok ([0x00, 0x00, n] ++ payload)

/-- The response record of a failure: zext_8(ERRKIND), zext_8(ERRPHASE), no payload (40 R154). -/
def failureRsp (s : State) : List Byte := [s.seq.errkind.setWidth 8, s.seq.errphase.setWidth 8, 0x00]

/-- The host has taken the response `rsp`: it presents the record that was to follow it, if any (30_encoding R132). -/
def HostSide.took (h : HostSide) (rsp : List Byte) : HostSide :=
  { h with rsps := h.rsps ++ [rsp], reqs := h.reqs ++ h.follow.toList.map Request.single, follow := none }

/-- The response is offered: taken, it ends the call (40 R156); else the record is held unchanged (40 R154). -/
def offer (rsp : List Byte) (s : State) : State :=
  if (drawTake s.host).1 then
    { s with seq := s.seq.rest, chan := .idle, host := (drawTake s.host).2.took rsp, lib := betweenCalls s.lib }
  else { s with host := (drawTake s.host).2 }

/-- The record on the response channel, valid exactly at DONE and FAIL (40 R150, R154). -/
def response (s : State) : Option (List Byte) :=
  if s.seq.phase = 0x13 then
    match successRsp s with
    | .ok rsp => some rsp
    | .error _ => none
  else if s.seq.phase = 0x14 then some (failureRsp s)
  else none

/-- Reset (70 R300): also during a call, which is then abandoned with no response (R301), so the record that was to follow
its response is never presented (30_encoding R132). Records not yet taken stay presented. -/
def resetNow (s : State) : State :=
  { s with seq := Seq.reset, chan := .idle, host := { s.host with follow := none, rst := false },
           lib := betweenCalls s.lib }

/-! ### Fetch -/

/-- A call is sent and not answered (30_encoding R125). -/
def callSent (s : State) : Bool :=
  s.seq.callpend &&
    match s.chan with
    | .sent _ => true
    | .returned _ => false
    | .idle => false

/-- The library call in LCD. -/
def fetchLcd (s : State) : Host.Outcome (Instr × State) Fault Refusal :=
  match decodeLcd s.seq.lcd with
  | .ok i => .next (i, s)
  | .error _ => .fault (.reservedLcd s.seq.lcd)

/-- The micro-op or resting code in PHASE. -/
def fetchPhase (s : State) : Host.Outcome (Instr × State) Fault Refusal :=
  match decodePhase s.seq.phase with
  | .ok i => .next (i, s)
  | .error _ => .fault (.reservedPhase s.seq.phase)

/-- The oldest request presented, taken off the channel; IDLE where there is none. -/
def fetchReq (s : State) : Host.Outcome (Instr × State) Fault Refusal :=
  match s.host.reqs with
  | [] => .next (.idle, s)
  | r :: rest =>
    match decodeReq r.bytes with
    | .ok i => .next (i, { s with host := { s.host with reqs := rest, follow := r.follow } })
    | .error (.reservedCmd c) => .refused (.reservedCmd c)
    | .error _ => .refused .badLength

/-- The next instruction, and the state with it taken from where it stands. While a call is sent and not answered LIB may
answer or not (log 1): the descriptor in LCD if it answers now, else the micro-op in PHASE, which waits. With no call sent,
the oldest request presented when PHASE = IDLE, else the micro-op PHASE names. The three places are the model's (log 22). That
LIB, where it answers, is looked at before PHASE is a DESIGN CHOICE (log 33): with a reserved PHASE code and a call sent, the
fault of 30_encoding R122 is met at SEQ's next step. -/
def fetch (s : State) : Host.Outcome (Instr × State) Fault Refusal :=
  if callSent s then
    if (drawReady s.lib).1 then fetchLcd { s with lib := (drawReady s.lib).2 }
    else fetchPhase { s with lib := (drawReady s.lib).2 }
  else if s.seq.phase = 0x00 then fetchReq s
  else fetchPhase s

/-- Argument values of zeros for a library call: what is on the channel beside a descriptor placed by `placeWord`. -/
def zeroArgs : Instr → Option LMsg
  | .lcCurve => some (.curve 0)
  | .lcBnhex _ _ => some (.bnhex [])
  | .lcBnbin _ => some (.bnbin [])
  | .lcBnneg _ _ => some (.bnneg 0)
  | .lcBninv _ _ _ => some (.bninv 0 0)
  | .lcPdec _ _ _ => some (.pdec 0 0)
  | .lcPmul _ _ _ => some (.pmul 0 0 .inf)
  | .lcPadd _ _ _ => some (.padd 0 .inf .inf)
  | .lcPinf _ => some (.pinf .inf)
  | .lcPenc _ => some (.penc 0 .inf)
  | _ => none

/-- A word of the opcode table stored where the step fetches its next instruction (log 22): a request record first on the
request channel with PHASE = IDLE; a PHASE code in PHASE with no call outstanding; a descriptor in LCD as a call sent with
argument values of zeros, which LIB answers now. -/
def placeWord (s : State) (nbits w : Nat) : State :=
  match encodedOfWord nbits w with
  | some (.req bytes) =>
    { s with seq := { s.seq with phase := 0x00, callpend := false }, chan := .idle,
             host := { s.host with reqs := Request.single bytes :: s.host.reqs, rst := false } }
  | some (.uop c) =>
    { s with seq := { s.seq with phase := c, callpend := false }, chan := .idle,
             host := { s.host with reqs := if c = 0x00 then [] else s.host.reqs, rst := false } }
  | some (.lcd word) =>
    match decodeLcd word with
    | .ok i =>
      match zeroArgs i with
      | some m =>
        { s with seq := { s.seq with lcd := word, callpend := true }, chan := .sent m,
                 host := { s.host with rst := false }, lib := { s.lib with ready := true :: s.lib.ready } }
      | none => s
    | .error _ => s
  | none => s

end Sys2Proof.Machine
end

