-- ==== Sys2Proof/Machine/Operands.lean ====
section
/-! DEFINITION. The operand forms: byte strings as integers and back (00_scope R16), hexadecimal digits (46 R245), the
hexadecimal view of a result (30_encoding R116), and the argument values a library call's descriptor names (R124, R125). -/

namespace Sys2Proof.Machine

/-! ### Byte strings and integers -/

/-- BE(s): BE(empty) = 0, BE(s ‖ b) = 256·BE(s) + b (00_scope R16). -/
def be (bytes : List Byte) : Nat := bytes.foldl (fun acc x => 256 * acc + x.toNat) 0

/-- I2OSP(v, n): the n-byte big-endian string of v, for v < 256^n (00_scope R16). -/
def i2osp (v : Nat) : Nat → List Byte
  | 0 => []
  | n + 1 => BitVec.ofNat 8 (v / 256 ^ n) :: i2osp v n

/-- The value of a hexadecimal digit, both letter cases (46 R245). -/
def hexDigit (x : Byte) : Option Nat :=
  if 0x30 ≤ x.toNat ∧ x.toNat ≤ 0x39 then some (x.toNat - 0x30)
  else if 0x61 ≤ x.toNat ∧ x.toNat ≤ 0x66 then some (x.toNat - 0x61 + 10)
  else if 0x41 ≤ x.toNat ∧ x.toNat ≤ 0x46 then some (x.toNat - 0x41 + 10)
  else none

/-- The digits `h` read after the value `acc`, most significant first. -/
def hexFrom (acc : Nat) : List Byte → Option Nat
  | [] => some acc
  | x :: rest =>
    match hexDigit x with
    | some d => hexFrom (16 * acc + d) rest
    | none => none

/-- The value of a hexadecimal string: at least one digit, nothing but digits (46 R245). -/
def hexValue (h : List Byte) : Option Nat :=
  match h with
  | [] => none
  | x :: rest => hexFrom 0 (x :: rest)

/-- The ASCII character of a hexadecimal digit in a letter case (30_encoding R116). -/
def hexChar (c : HexCase) (d : Nat) : Byte :=
  if d < 10 then BitVec.ofNat 8 (0x30 + d)
  else
    match c with
    | .lower => BitVec.ofNat 8 (0x61 + (d - 10))
    | .upper => BitVec.ofNat 8 (0x41 + (d - 10))

/-- HexView: each byte as two hexadecimal digits, high nibble first (30_encoding R116). -/
def hexView (c : HexCase) : List Byte → List Byte
  | [] => []
  | x :: rest => hexChar c (x.toNat / 16) :: hexChar c (x.toNat % 16) :: hexView c rest

/-! ### The operands of a library call -/

/-- The buffer a selector names (30_encoding R124). -/
def hexSel : HexBuf → BufSel
  | .rhex => .rhex
  | .shex => .shex

/-- The contents of a hexadecimal buffer: RHEX[0 .. RLEN-1] or SHEX[0 .. SLEN-1] (41 R173, R174). -/
def readHex (s : State) (h : HexBuf) : Except Fault (List Byte) := do
  let n ← s.seq.validLen s.lib.params.lmax (hexSel h)
  s.seq.memRead s.lib.params.lmax (hexSel h) 0 n

/-- The significant digest bytes DIGEST[0 .. DEFF-1] (44 R210). -/
def readDigest (s : State) : Except Fault (List Byte) := do
  let n ← must .deff s.seq.deff
  s.seq.memRead s.lib.params.lmax .digest 0 n.toNat

/-- The argument values of a library call, read from the registers and buffers its descriptor names; `noCall` for an
instruction that is no library call. -/
def gather (s : State) : Instr → Except Fault LMsg
  | .lcCurve => do
    let id ← must .curveid s.seq.curveid
    .ok (.curve id)
  | .lcBnhex _ h => do
    let bytes ← readHex s h
    .ok (.bnhex bytes)
  | .lcBnbin _ => do
    let bytes ← readDigest s
    .ok (.bnbin bytes)
  | .lcBnneg _ a => do
    let v ← s.seq.readB a
    .ok (.bnneg v)
  | .lcBninv _ a m => do
    let v ← s.seq.readB a
    let m ← s.seq.readB m
    .ok (.bninv v m)
  | .lcPdec _ x _ => do
    let id ← must .curveid s.seq.curveid
    let x ← s.seq.readB x
    .ok (.pdec id x)
  | .lcPmul _ k q => do
    let id ← must .curveid s.seq.curveid
    let k ← s.seq.readB k
    let q ← s.seq.readP q
    .ok (.pmul id k q)
  | .lcPadd _ a b => do
    let id ← must .curveid s.seq.curveid
    let a ← s.seq.readP a
    let b ← s.seq.readP b
    .ok (.padd id a b)
  | .lcPinf a => do
    let a ← s.seq.readP a
    .ok (.pinf a)
  | .lcPenc a => do
    let id ← must .curveid s.seq.curveid
    let a ← s.seq.readP a
    .ok (.penc id a)
  | .recover _ _ _ _ _ | .recover2 _ _ _ _ => .error .noCall
  | .vrid | .curve | .parser | .parses | .trunc | .setx | .decomp | .ordmul | .ordchk | .eload | .inv | .muls | .neg
  | .mulg | .add | .mulq | .enc | .strip | .idle | .done | .fail => .error .noCall

/-- Issue of the library call `d`: its argument values are read and sent with its descriptor (30_encoding R125). -/
def issue (d : Instr) (s : State) : Except Fault State := do
  let m ← gather s d
  .ok (sendCall d m s)

end Sys2Proof.Machine
end

