-- ==== Sys2Proof/Machine/HostIface.lean ====
section
/-! DEFINITION. The host interface (40): the command RECOVER, the pseudo-operation RECOVER2, and the resting codes IDLE, DONE
and FAIL, at which ECREC waits for the host. -/

namespace Sys2Proof.Machine

/-- RECOVER: request acceptance at PHASE = IDLE (40 R151); at any other time the request waits on the channel, "neither
lost nor seen by ECREC until PHASE = IDLE" (R150; DEDUCED, log 23), behind the others (DESIGN CHOICE, log 7). -/
def execRecover (recid curveid : Byte) (digest rhex shex : List Byte) (s : State) : Out :=
  if s.seq.phase = 0x00 then run (accept recid curveid digest rhex shex s)
  else .next (present (Request.single (reqBytes recid curveid digest rhex shex)) s)

/-- RECOVER2: the host presents RECOVER with id 0 and, after its response is accepted, RECOVER with id 1 and the same other
operands (30_encoding R132; log 23). No state of ECREC changes. -/
def execRecover2 (curveid : Byte) (digest rhex shex : List Byte) (s : State) : Out :=
  .next (present { bytes := reqBytes 0 curveid digest rhex shex, follow := some (reqBytes 1 curveid digest rhex shex) } s)

/-- IDLE: no call in progress, no request present: ECREC rests (10_state R36, 40 R158). -/
def execIdle (s : State) : Out := .next s

/-- DONE: the response of a success is on the channel; taken, it ends the call (40 R154, R156). -/
def execDone (s : State) : Out :=
  run (do
    let rsp ← successRsp s
    .ok (offer rsp s))

/-- FAIL: the response of a failure is on the channel; taken, it ends the call (40 R154, R156; 60 R283). -/
def execFail (s : State) : Out := .next (offer (failureRsp s) s)

end Sys2Proof.Machine
end

