-- ==== Sys2Proof/Machine/Field.lean ====
section
/-! DEFINITION. The library's mathematics: modular inverse (46 R248), and the concrete realisation of the curve group,
y^2 = x^3 + a x + b over the p-element field (46 R255, R256; PRESUMED, log 11). -/

namespace Sys2Proof.Machine

/-- Euclid's algorithm on (r0, r1) with the coefficients (t0, t1): the greatest common divisor and its coefficient. -/
def euclid : Nat → Nat → Nat → Int → Int → Nat × Int
  | 0, r0, _, t0, _ => (r0, t0)
  | fuel + 1, r0, r1, t0, t1 =>
    if r1 = 0 then (r0, t0) else euclid fuel r1 (r0 % r1) t1 (t0 - (r0 / r1 : Nat) * t1)

/-- The inverse of v mod m in [1, m-1], if v and m are coprime (46 R248), for m >= 2. -/
def modInv (m v : Nat) : Option Nat :=
  let g := euclid (2 * m.log2 + 4) m (v % m) 0 1
  if g.1 = 1 then some ((g.2 % (m : Int)).toNat) else none

/-- b^e mod m by squaring, `fuel` at least the number of bits of e. -/
def powMod (m b : Nat) : Nat → Nat → Nat
  | 0, _ => 1 % m
  | fuel + 1, e =>
    if e = 0 then 1 % m
    else
      let h := powMod m b fuel (e / 2)
      if e % 2 = 1 then h * h % m * b % m else h * h % m

/-- A square root of w among 0 .. k-1, by search. -/
def searchRoot (p w : Nat) : Nat → Option Nat
  | 0 => none
  | k + 1 => if k * k % p = w then some k else searchRoot p w k

/-- A square root of w mod p in [0, p-1], if there is one (46 R256), for an odd prime p (log 13). -/
def sqrtMod (p w : Nat) : Option Nat :=
  if p % 4 = 3 then
    let y := powMod p w (p.log2 + 1) ((p + 1) / 4)
    if y * y % p = w then some y else none
  else searchRoot p w p

/-- inv mod p (46 R256); where there is none, a free value (log 16): with p prime, only for points off the curve (log 35). -/
def fieldInverse (p : Nat) (z : Int) : Nat :=
  match modInv p (z % (p : Int)).toNat with
  | some w => w
  | none => Config.fieldInv p (z % (p : Int)).toNat

/-- The point with X-coordinate `lam^2 - x1 - x2` on the line of slope `lam` through (x1, y1) (46 R256). -/
def chord (p : Nat) (lam : Int) (x1 y1 x2 : Nat) : Point :=
  let x3 := (lam * lam - x1 - x2) % (p : Int)
  let y3 := (lam * (x1 - x3) - y1) % (p : Int)
  .aff x3.toNat y3.toNat

/-- Point addition (46 R251, R256). DESIGN CHOICE for what is no point of the curve, which only a
table's G brings here (41 R172): the formulas of R256 are applied to pairs off the curve as they stand, with a free inverse
where x1 = x2 and y1 is not ±y2 (log 35), and coordinates >= p are compared and kept unreduced (log 34). -/
def addPoint (c : Curve) : Point → Point → Point
  | .inf, q => q
  | .aff x1 y1, .inf => .aff x1 y1
  | .aff x1 y1, .aff x2 y2 =>
    if x1 = x2 ∧ (y1 + y2) % c.p = 0 then .inf
    else if x1 = x2 ∧ y1 = y2 then
      chord c.p ((3 * (x1 * x1) + c.a : Nat) * (fieldInverse c.p (2 * y1 : Nat) : Int)) x1 y1 x2
    else chord c.p (((y2 : Int) - y1) * (fieldInverse c.p ((x2 : Int) - x1) : Int)) x1 y1 x2

/-- −(X, Y) = (X, (p − Y) mod p), for Y in [0, p-1] (46 R255). DESIGN CHOICE (log 34): for Y >= p, which only a table's G out
of range brings here (41 R172), p − Y is natural subtraction and 0, so −(X, Y) = (X, 0). -/
def negPoint (c : Curve) : Point → Point
  | .inf => .inf
  | .aff x y => .aff x ((c.p - y) % c.p)

/-- k·P for a natural number k, by doubling and adding (46 R250; log 12), `fuel` at least the number of bits of k. -/
def mulBits (c : Curve) (q : Point) : Nat → Nat → Point
  | 0, _ => .inf
  | fuel + 1, k =>
    if k = 0 then .inf
    else
      let h := mulBits c q fuel (k / 2)
      if k % 2 = 1 then addPoint c (addPoint c h h) q else addPoint c h h

/-- k·P for a natural number k (46 R250). -/
def mulNat (c : Curve) (k : Nat) (q : Point) : Point := mulBits c q (k.log2 + 1) k

/-- k·P for every integer k, unreduced; for k < 0, |k|·(−P) (46 R250, R256). -/
def mulPoint (c : Curve) (k : Int) (q : Point) : Point :=
  if 0 ≤ k then mulNat c k.toNat q else mulNat c (-k).toNat (negPoint c q)

/-- The right side of the curve's equation, mod p (46 R256). -/
def curveRhs (c : Curve) (x : Nat) : Nat := (x * x * x + c.a * x + c.b) % c.p

/-- The point with X-coordinate x in [0, p-1] and Y-parity v, if there is one (46 R249, R256). -/
def decompress (c : Curve) (x : Nat) (v : BitVec 1) : Option Point :=
  match sqrtMod c.p (curveRhs c x) with
  | none => none
  | some y0 =>
    let y := if BitVec.ofNat 1 y0 = v then y0 else (c.p - y0) % c.p
    if BitVec.ofNat 1 y = v then some (.aff x y) else none

/-- The curve LIB has for an identifier: the first entry of the table that carries it (00_scope R10, 46 R244). -/
def findCurve (table : List Curve) (id : Byte) : Option Curve :=
  match table with
  | [] => none
  | c :: rest => if c.id = id then some c else findCurve rest id

end Sys2Proof.Machine
end

