-- ==== Sys2Proof/Machine/Flags.lean ====
section
/-! DEFINITION. The flag computations: V from RECID (41 R170) and the infinity flag INFF (43 R201, 46 R252). ECREC has no
carry, zero, sign or overflow flag (10_state R38). -/

namespace Sys2Proof.Machine

/-- The canonical recovery id: 0 and 1 as they are, 27 and 28 minus 27, nothing else (41 R170, 30_encoding R113). -/
def canonicalId (recid : Byte) : Option (BitVec 1) :=
  if recid = 0 ∨ recid = 1 then some (recid.extractLsb' 0 1)
  else if recid = 27 ∨ recid = 28 then some ((recid - 27).extractLsb' 0 1)
  else none

/-- 1 for the point at infinity, else 0 (46 R252). -/
def infinityFlag : Point → BitVec 1
  | .inf => 1
  | .aff _ _ => 0

/-- The parity of a coordinate, y mod 2 (46 R249). -/
def parity (y : Nat) : BitVec 1 := BitVec.ofNat 1 y

end Sys2Proof.Machine
end

