-- ==== Sys2Proof/Machine/Library.lean ====
section
/-! DEFINITION. The ten library calls LC_CURVE to LC_PENC (46 R244 to R253): for each, the answer as a pure function of the
argument values (R240), and the instruction, LIB's answering of the call in flight. The register numbers of a descriptor
are SEQ's: LIB gets values (30_encoding R125) and writes nothing but the return (46 R240). -/

namespace Sys2Proof.Machine

/-! ### The answers -/

/-- LC_CURVE (46 R244). -/
def libCurve (P : Params) (id : Byte) : LRet :=
  match findCurve P.table id with
  | some c => .ok (.curve c.p c.n c.g c.l)
  | none => .domfail

/-- LC_BNHEX (46 R245). -/
def libBnhex (h : List Byte) : LRet :=
  match hexValue h with
  | some v => .ok (.int v)
  | none => .domfail

/-- LC_BNBIN (46 R246). -/
def libBnbin (d : List Byte) : LRet := .ok (.int (be d))

/-- LC_BNNEG (46 R247). -/
def libBnneg (v : Int) : LRet := .ok (.int (-v))

/-- A sign and a magnitude as an integer (10_state R41). -/
def signed (x : Bool × BitVec 1020) : Int := if x.1 then -(x.2.toNat : Int) else x.2.toNat

/-- LC_BNINV (46 R248); a modulus below 2 is outside the contract and its answer is free (log 15). -/
def libBninv (v m : Int) : LRet :=
  if 2 ≤ m then
    match modInv m.toNat (v % m).toNat with
    | some w => .ok (.int w)
    | none => .domfail
  else
    match Config.bnInvLow v m with
    | some x => .ok (.int (signed x))
    | none => .domfail

/-- The X-coordinate LC_PDEC decompresses for the integer x, by `DECOMP_OOR` (46 R249, R256). -/
def decompressX (P : Params) (c : Curve) (x : Int) : Option Nat :=
  if x < 0 then none
  else if x < (c.p : Int) then some x.toNat
  else
    match P.decompOor with
    | .domfail => none
    | .reduce => some (x % (c.p : Int)).toNat

/-- LC_PDEC (46 R249). -/
def libPdec (P : Params) (id : Byte) (x : Int) (v : BitVec 1) : LRet :=
  match findCurve P.table id with
  | none => .domfail
  | some c =>
    match decompressX P c x with
    | none => .domfail
    | some x =>
      match decompress c x v with
      | some q => .ok (.point q)
      | none => .domfail

/-- LC_PMUL (46 R250). -/
def libPmul (P : Params) (id : Byte) (k : Int) (q : Point) : LRet :=
  match findCurve P.table id with
  | some c => .ok (.point (mulPoint c k q))
  | none => .domfail

/-- LC_PADD (46 R251). -/
def libPadd (P : Params) (id : Byte) (a b : Point) : LRet :=
  match findCurve P.table id with
  | some c => .ok (.point (addPoint c a b))
  | none => .domfail

/-- LC_PINF (46 R252). -/
def libPinf (a : Point) : LRet := .ok (.bit (infinityFlag a))

/-- LC_PENC, uncompressed: F ‖ I2OSP(X, L) ‖ I2OSP(Y, L) (46 R253); F is free (log 14). -/
def libPenc (P : Params) (id : Byte) (a : Point) : LRet :=
  match findCurve P.table id, a with
  | none, _ => .domfail
  | some _, .inf => .domfail
  | some c, .aff x y =>
    if x < 256 ^ c.l ∧ y < 256 ^ c.l then
      .ok (.bytes (Config.formatByte id x y :: (i2osp x c.l ++ i2osp y c.l)))
    else .domfail

/-! ### The instructions -/

/-- LC_CURVE. -/
def execLcCurve (s : State) : Out :=
  serve (fun m =>
    match m with
    | .curve id => some (libCurve s.lib.params id)
    | _ => none) s

/-- LC_BNHEX. -/
def execLcBnhex (s : State) : Out :=
  serve (fun m =>
    match m with
    | .bnhex h => some (libBnhex h)
    | _ => none) s

/-- LC_BNBIN. -/
def execLcBnbin (s : State) : Out :=
  serve (fun m =>
    match m with
    | .bnbin d => some (libBnbin d)
    | _ => none) s

/-- LC_BNNEG. -/
def execLcBnneg (s : State) : Out :=
  serve (fun m =>
    match m with
    | .bnneg v => some (libBnneg v)
    | _ => none) s

/-- LC_BNINV. -/
def execLcBninv (s : State) : Out :=
  serve (fun m =>
    match m with
    | .bninv v n => some (libBninv v n)
    | _ => none) s

/-- LC_PDEC; the parity is the descriptor's immediate (30_encoding R129). -/
def execLcPdec (v : BitVec 1) (s : State) : Out :=
  serve (fun m =>
    match m with
    | .pdec id x => some (libPdec s.lib.params id x v)
    | _ => none) s

/-- LC_PMUL. -/
def execLcPmul (s : State) : Out :=
  serve (fun m =>
    match m with
    | .pmul id k q => some (libPmul s.lib.params id k q)
    | _ => none) s

/-- LC_PADD. -/
def execLcPadd (s : State) : Out :=
  serve (fun m =>
    match m with
    | .padd id a b => some (libPadd s.lib.params id a b)
    | _ => none) s

/-- LC_PINF. -/
def execLcPinf (s : State) : Out :=
  serve (fun m =>
    match m with
    | .pinf a => some (libPinf a)
    | _ => none) s

/-- LC_PENC. -/
def execLcPenc (s : State) : Out :=
  serve (fun m =>
    match m with
    | .penc id a => some (libPenc s.lib.params id a)
    | _ => none) s

end Sys2Proof.Machine
end

