-- ==== Sys2Proof/Machine/Result.lean ====
section
/-! DEFINITION. Result encoding (45): ENC, STRIP; and the hexadecimal view of the result. -/

namespace Sys2Proof.Machine

/-- ENC's writes: ENCLEN <- 2·CP.L + 1, ENCBUF <- the bytes, if they have that length (45 R230). -/
def commitEncoding (s : State) (bytes : List Byte) : Except Fault State := do
  let l ← must .cpL s.seq.cpL
  if bytes.length = 2 * l.toNat + 1 then do
    let q ← s.seq.memWrite s.lib.params.lmax .encbuf 0 bytes
    .ok (complete Code.enc { q with enclen := some (BitVec.ofNat 9 (2 * l.toNat + 1)) } s)
  else .ok (raise .arithmeticFailure Code.enc s)

/-- ENC's commit (45 R230). -/
def commitEnc (s : State) (r : LRet) : Except Fault State :=
  match r with
  | .ok (.bytes bytes) => commitEncoding s bytes
  | .ok _ => .error .returnType
  | .domfail => .ok (raise .arithmeticFailure Code.enc s)
  | .resfail => .ok (raise .arithmeticFailure Code.enc s)
  | .reserved => .ok (raise .arithmeticFailure Code.enc s)

/-- ENC: ENCBUF <- LC_PENC(P[6], uncompressed) (45 R230). -/
def execEnc (s : State) : Out := callStep (issue (.lcPenc .pq) s) (commitEnc s) s

/-- STRIP: RESULT <- ENCBUF[1 .. 2L], RLENB <- 2·CP.L (45 R231). -/
def execStrip (s : State) : Out :=
  run (do
    let l ← must .cpL s.seq.cpL
    let bytes ← s.seq.memRead s.lib.params.lmax .encbuf 1 (2 * l.toNat)
    let q ← s.seq.memWrite s.lib.params.lmax .result 0 bytes
    .ok (advance Code.strip { q with rlenb := some (BitVec.ofNat 8 (2 * l.toNat)) } s))

/-- HexView(RESULT) in the letter case of the parameter HEXCASE: the host's view of a success (30_encoding R116). -/
def resultView (s : State) : Except Fault (List Byte) := do
  let n ← must .rlenb s.seq.rlenb
  let bytes ← s.seq.memRead s.lib.params.lmax .result 0 n.toNat
  .ok (hexView s.lib.params.hexcase bytes)

end Sys2Proof.Machine
end

