-- ==== Sys2Proof/Machine/Scalar.lean ====
section
/-! DEFINITION. The scalar-multiplication call dispatcher (44): ELOAD, INV, MULS, NEG, MULG, ADD, MULQ. -/

namespace Sys2Proof.Machine

/-- ELOAD: B[3] <- LC_BNBIN(DIGEST[0 .. DEFF-1]) (44 R210). -/
def execEload (s : State) : Out :=
  callStep (issue (.lcBnbin .be) s) (commitInt Code.eload .be .arithmeticFailure s) s

/-- INV: B[5] <- LC_BNINV(B[0], B[6]); DOMFAIL raises NoInverse (44 R211). -/
def execInv (s : State) : Out :=
  callStep (issue (.lcBninv .bri .br .bn) s) (commitInt Code.inv .bri .noInverse s) s

/-- MULS: P[3] <- LC_PMUL(B[1], P[1]) (44 R212). -/
def execMuls (s : State) : Out :=
  callStep (issue (.lcPmul .ps .bs .pr) s) (commitPoint Code.muls .ps .arithmeticFailure s) s

/-- NEG: B[4] <- LC_BNNEG(B[3]) (44 R213). -/
def execNeg (s : State) : Out :=
  callStep (issue (.lcBnneg .bne .be) s) (commitInt Code.neg .bne .arithmeticFailure s) s

/-- MULG: P[4] <- LC_PMUL(B[4], P[0]) (44 R214). -/
def execMulg (s : State) : Out :=
  callStep (issue (.lcPmul .pt .bne .pg) s) (commitPoint Code.mulg .pt .arithmeticFailure s) s

/-- ADD: P[5] <- LC_PADD(P[3], P[4]) (44 R215). -/
def execAdd (s : State) : Out :=
  callStep (issue (.lcPadd .pu .ps .pt) s) (commitPoint Code.add .pu .arithmeticFailure s) s

/-- MULQ: P[6] <- LC_PMUL(B[5], P[5]) (44 R216). -/
def execMulq (s : State) : Out :=
  callStep (issue (.lcPmul .pq .bri .pu) s) (commitPoint Code.mulq .pq .arithmeticFailure s) s

end Sys2Proof.Machine
end

