-- ==== Sys2Proof/Machine/Select.lean ====
section
/-! DEFINITION. The coordinate decompression selector (42): SETX, DECOMP. -/

namespace Sys2Proof.Machine

/-- SETX: B[2] <- B[0], the same integer (42 R190). -/
def execSetx (s : State) : Out :=
  run (do
    let r ← s.seq.readB .br
    .ok (advance Code.setx (s.seq.writeB .bx r) s))

/-- DECOMP's issue: the descriptor is 0x6120 | V (42 R191, 30_encoding R129). -/
def issueDecomp (s : State) : Except Fault State := do
  let v ← must .v s.seq.v
  issue (.lcPdec .pr .bx v) s

/-- DECOMP: P[1] <- LC_PDEC(B[2], V); DOMFAIL raises InvalidPoint (42 R191). -/
def execDecomp (s : State) : Out := callStep (issueDecomp s) (commitPoint Code.decomp .pr .invalidPoint s) s

end Sys2Proof.Machine
end

