-- ==== Sys2Proof/Machine/Subgroup.lean ====
section
/-! DEFINITION. The subgroup check sequencer (43): ORDMUL, ORDCHK. -/

namespace Sys2Proof.Machine

/-- ORDMUL: P[2] <- LC_PMUL(B[6], P[1]), the product n·R (43 R200). -/
def execOrdmul (s : State) : Out :=
  callStep (issue (.lcPmul .pchk .bn .pr) s) (commitPoint Code.ordmul .pchk .arithmeticFailure s) s

/-- ORDCHK's commit: INFF <- the answer; 0 raises InvalidPoint (43 R201). The failure exit leaves INFF without a value
(60 R280). -/
def commitOrdchk (s : State) (r : LRet) : Except Fault State :=
  match r with
  | .ok (.bit f) =>
    if f = 0 then .ok (raise .invalidPoint Code.ordchk s)
    else .ok (complete Code.ordchk { s.seq with inff := some f } s)
  | .ok _ => .error .returnType
  | .domfail => .ok (raise .arithmeticFailure Code.ordchk s)
  | .resfail => .ok (raise .arithmeticFailure Code.ordchk s)
  | .reserved => .ok (raise .arithmeticFailure Code.ordchk s)

/-- ORDCHK: INFF <- LC_PINF(P[2]) (43 R201). -/
def execOrdchk (s : State) : Out := callStep (issue (.lcPinf .pchk) s) (commitOrdchk s) s

end Sys2Proof.Machine
end

