-- ==== Sys2Proof/Machine/Validate.lean ====
section
/-! DEFINITION. Input validation and operand preparation (41): VRID, CURVE, PARSER, PARSES, TRUNC. -/

namespace Sys2Proof.Machine

/-- VRID: V <- the canonical recovery id, or raise InvalidRecoveryId (41 R170). -/
def execVrid (s : State) : Out :=
  run (do
    let recid ← must .recid s.seq.recid
    match canonicalId recid with
    | some v => .ok (advance Code.vrid { s.seq with v := some v } s)
    | none => .ok (raise .invalidRecoveryId Code.vrid s))

/-- The parameters fit ECREC's registers (41 R172). -/
def curveFits (lmax p n l : Nat) : Bool :=
  decide (1 ≤ l ∧ l ≤ lmax) && decide (p < 256 ^ l ∧ n < 2 ^ (8 * lmax + 1))

/-- CURVE's writes: B[7] <- p, B[6] <- n, P[0] <- G, CP.L <- L (41 R172). -/
def writeCurve (q : Seq) (p n : Nat) (g : Point) (l : Nat) : Seq :=
  { ((q.writeB .bp p).writeB .bn n).writeP .pg g with cpL := some (BitVec.ofNat 8 l) }

/-- CURVE's commit (41 R172). -/
def commitCurve (s : State) (r : LRet) : Except Fault State :=
  match r with
  | .ok (.curve p n g l) =>
    if curveFits s.lib.params.lmax p n l then .ok (complete Code.curve (writeCurve s.seq p n g l) s)
    else .ok (raise .arithmeticFailure Code.curve s)
  | .ok _ => .error .returnType
  | .domfail => .ok (raise .arithmeticFailure Code.curve s)
  | .resfail => .ok (raise .arithmeticFailure Code.curve s)
  | .reserved => .ok (raise .arithmeticFailure Code.curve s)

/-- CURVE: LC_CURVE(CURVEID) into CP (41 R172). -/
def execCurve (s : State) : Out := callStep (issue .lcCurve s) (commitCurve s) s

/-- PARSER: B[0] <- LC_BNHEX(RHEX[0 .. RLEN-1]) (41 R173). -/
def execParser (s : State) : Out :=
  callStep (issue (.lcBnhex .br .rhex) s) (commitInt Code.parser .br .arithmeticFailure s) s

/-- PARSES: B[1] <- LC_BNHEX(SHEX[0 .. SLEN-1]) (41 R174). -/
def execParses (s : State) : Out :=
  callStep (issue (.lcBnhex .bs .shex) s) (commitInt Code.parses .bs .arithmeticFailure s) s

/-- TRUNC: DEFF <- min(DLEN, CP.L) (41 R175). -/
def execTrunc (s : State) : Out :=
  run (do
    let dlen ← must .dlen s.seq.dlen
    let l ← must .cpL s.seq.cpL
    .ok (advance Code.trunc { s.seq with deff := some (BitVec.ofNat 8 (min dlen.toNat l.toNat)) } s))

end Sys2Proof.Machine
end

