-- ==== Sys2Proof/Machine/Dispatch.lean ====
section
/-! DEFINITION. One arm per constructor of Instr. -/

namespace Sys2Proof.Machine

def exec (i : Instr) (s : State) : Host.Outcome State Fault Refusal :=
  match i with
  | .recover recid curveid digest rhex shex => Sys2Proof.Machine.execRecover recid curveid digest rhex shex s
  | .recover2 curveid digest rhex shex => Sys2Proof.Machine.execRecover2 curveid digest rhex shex s
  | .vrid => Sys2Proof.Machine.execVrid s
  | .curve => Sys2Proof.Machine.execCurve s
  | .parser => Sys2Proof.Machine.execParser s
  | .parses => Sys2Proof.Machine.execParses s
  | .trunc => Sys2Proof.Machine.execTrunc s
  | .setx => Sys2Proof.Machine.execSetx s
  | .decomp => Sys2Proof.Machine.execDecomp s
  | .ordmul => Sys2Proof.Machine.execOrdmul s
  | .ordchk => Sys2Proof.Machine.execOrdchk s
  | .eload => Sys2Proof.Machine.execEload s
  | .inv => Sys2Proof.Machine.execInv s
  | .muls => Sys2Proof.Machine.execMuls s
  | .neg => Sys2Proof.Machine.execNeg s
  | .mulg => Sys2Proof.Machine.execMulg s
  | .add => Sys2Proof.Machine.execAdd s
  | .mulq => Sys2Proof.Machine.execMulq s
  | .enc => Sys2Proof.Machine.execEnc s
  | .strip => Sys2Proof.Machine.execStrip s
  | .idle => Sys2Proof.Machine.execIdle s
  | .done => Sys2Proof.Machine.execDone s
  | .fail => Sys2Proof.Machine.execFail s
  | .lcCurve => Sys2Proof.Machine.execLcCurve s
  | .lcBnhex _ _ => Sys2Proof.Machine.execLcBnhex s
  | .lcBnbin _ => Sys2Proof.Machine.execLcBnbin s
  | .lcBnneg _ _ => Sys2Proof.Machine.execLcBnneg s
  | .lcBninv _ _ _ => Sys2Proof.Machine.execLcBninv s
  | .lcPdec _ _ parity => Sys2Proof.Machine.execLcPdec parity s
  | .lcPmul _ _ _ => Sys2Proof.Machine.execLcPmul s
  | .lcPadd _ _ _ => Sys2Proof.Machine.execLcPadd s
  | .lcPinf _ => Sys2Proof.Machine.execLcPinf s
  | .lcPenc _ => Sys2Proof.Machine.execLcPenc s

end Sys2Proof.Machine
end

