-- ==== Sys2Proof/Machine/Step.lean ====
section
/-! DEFINITION. One step of the machine: the reset input if it is asserted (70 R301), else the next instruction fetched and
run. -/

namespace Sys2Proof.Machine

def step (s : State) : Host.Outcome State Fault Refusal :=
  if s.host.rst then .next (resetNow s)
  else
    match fetch s with
    | .next f => exec f.1 f.2
    | .fault f => .fault f
    | .refused r => .refused r

def State.withFetchWord (s : State) (nbits w : Nat) : State := placeWord s nbits w

end Sys2Proof.Machine
end

