-- ==== Sys2Proof/Safety.lean ====
section
/-! DEFINITION. The terms the claims use: the invariants of the machine (10_state R30, R33, R39, R42, R46), what a whole call
computes (40 R152), the laws of the library's curve group (46 R241), who writes which register (10_state R41, R43). -/

namespace Sys2Proof.Safety

open Sys2Proof.Machine

/-! ### The invariant of the machine -/

/-- A register written by the micro-op with code `w` holds a value exactly while that micro-op has completed in the
current call and the call has not failed (10_state R30, R32; 60 R280). -/
def written (w : Nat) (c : PhaseCode) : Bool := decide (w < c.toNat) && decide (c.toNat ≤ 0x13)

/-- The valid bits of the data registers, by their one writer (10_state R38 to R46). -/
structure DataLive (q : Seq) : Prop where
  v : q.v.isSome = written 0x01 q.phase
  cpL : q.cpL.isSome = written 0x02 q.phase
  bn : q.b.bn.isSome = written 0x02 q.phase
  bp : q.b.bp.isSome = written 0x02 q.phase
  pg : q.p.pg.isSome = written 0x02 q.phase
  br : q.b.br.isSome = written 0x03 q.phase
  bs : q.b.bs.isSome = written 0x04 q.phase
  deff : q.deff.isSome = written 0x05 q.phase
  bx : q.b.bx.isSome = written 0x06 q.phase
  pr : q.p.pr.isSome = written 0x07 q.phase
  pchk : q.p.pchk.isSome = written 0x08 q.phase
  inff : q.inff.isSome = written 0x09 q.phase
  be : q.b.be.isSome = written 0x0A q.phase
  bri : q.b.bri.isSome = written 0x0B q.phase
  ps : q.p.ps.isSome = written 0x0C q.phase
  bne : q.b.bne.isSome = written 0x0D q.phase
  pt : q.p.pt.isSome = written 0x0E q.phase
  pu : q.p.pu.isSome = written 0x0F q.phase
  pq : q.p.pq.isSome = written 0x10 q.phase
  enclen : q.enclen.isSome = written 0x11 q.phase
  rlenb : q.rlenb.isSome = written 0x12 q.phase

/-- The valid bits of the request latch: from the acceptance of a request to the acceptance of its response (10_state R45,
60 R280). -/
structure LatchLive (q : Seq) : Prop where
  recid : q.recid.isSome = decide (q.phase ≠ 0x00)
  curveid : q.curveid.isSome = decide (q.phase ≠ 0x00)
  dlen : q.dlen.isSome = decide (q.phase ≠ 0x00)
  rlen : q.rlen.isSome = decide (q.phase ≠ 0x00)
  slen : q.slen.isSome = decide (q.phase ≠ 0x00)

/-- A buffer with a valid length holds that many bytes, and one without holds none (20_memory R82, 10_state R32). -/
structure BuffersHeld (q : Seq) (lmax : Nat) : Prop where
  digest : ∀ n, q.dlen = some n → (readCells q.mem.digest 0 (min n.toNat lmax)).isSome = true
  rhex : ∀ n, q.rlen = some n → (readCells q.mem.rhex 0 n.toNat).isSome = true
  shex : ∀ n, q.slen = some n → (readCells q.mem.shex 0 n.toNat).isSome = true
  encbuf : ∀ n, q.enclen = some n → (readCells q.mem.encbuf 0 n.toNat).isSome = true
  result : ∀ n, q.rlenb = some n → (readCells q.mem.result 0 n.toNat).isSome = true
  noDigest : q.dlen = none → q.mem.digest = []
  noRhex : q.rlen = none → q.mem.rhex = []
  noShex : q.slen = none → q.mem.shex = []
  noEncbuf : q.enclen = none → q.mem.encbuf = []
  noResult : q.rlenb = none → q.mem.result = []

/-- The length registers: 1 <= L <= LMAX, DEFF = min(DLEN, L), ENCLEN = 2·L + 1, RLENB = 2·L (10_state R39, R40). -/
structure SizesOk (q : Seq) (lmax : Nat) : Prop where
  l : ∀ l, q.cpL = some l → 1 ≤ l.toNat ∧ l.toNat ≤ lmax
  deff : ∀ e, q.deff = some e →
    ∃ d l, q.dlen = some d ∧ q.cpL = some l ∧ e.toNat = min d.toNat l.toNat
  enclen : ∀ n, q.enclen = some n → ∃ l, q.cpL = some l ∧ n.toNat = 2 * l.toNat + 1
  rlenb : ∀ n, q.rlenb = some n → ∃ l, q.cpL = some l ∧ n.toNat = 2 * l.toNat

/-- The library call of the micro-op with a PHASE code, with parity `v` where the call is DECOMP's (30_encoding R120). -/
def callOf (v : BitVec 1) (c : PhaseCode) : Option Instr :=
  match c.toNat with
  | 0x02 => some .lcCurve
  | 0x03 => some (.lcBnhex .br .rhex)
  | 0x04 => some (.lcBnhex .bs .shex)
  | 0x07 => some (.lcPdec .pr .bx v)
  | 0x08 => some (.lcPmul .pchk .bn .pr)
  | 0x09 => some (.lcPinf .pchk)
  | 0x0A => some (.lcBnbin .be)
  | 0x0B => some (.lcBninv .bri .br .bn)
  | 0x0C => some (.lcPmul .ps .bs .pr)
  | 0x0D => some (.lcBnneg .bne .be)
  | 0x0E => some (.lcPmul .pt .bne .pg)
  | 0x0F => some (.lcPadd .pu .ps .pt)
  | 0x10 => some (.lcPmul .pq .bri .pu)
  | 0x11 => some (.lcPenc .pq)
  | _ => none

/-- The argument values are of the call's operation (30_encoding R125). -/
def argsMatch : Instr → LMsg → Bool
  | .lcCurve, .curve _ => true
  | .lcBnhex _ _, .bnhex _ => true
  | .lcBnbin _, .bnbin _ => true
  | .lcBnneg _ _, .bnneg _ => true
  | .lcBninv _ _ _, .bninv _ _ => true
  | .lcPdec _ _ _, .pdec _ _ => true
  | .lcPmul _ _ _, .pmul _ _ _ => true
  | .lcPadd _ _ _, .padd _ _ _ => true
  | .lcPinf _, .pinf _ => true
  | .lcPenc _, .penc _ _ => true
  | _, _ => false

/-- The value of an OK return is of the call's type (30_encoding R126). -/
def valueMatch : Instr → LVal → Bool
  | .lcCurve, .curve _ _ _ _ => true
  | .lcBnhex _ _, .int _ => true
  | .lcBnbin _, .int _ => true
  | .lcBnneg _ _, .int _ => true
  | .lcBninv _ _ _, .int _ => true
  | .lcPdec _ _ _, .point _ => true
  | .lcPmul _ _ _, .point _ => true
  | .lcPadd _ _ _, .point _ => true
  | .lcPinf _, .bit _ => true
  | .lcPenc _, .bytes _ => true
  | _, _ => false

/-- What is in flight for the call `d`: its argument values, or a return of its type. -/
def inFlight (d : Instr) : Chan → Bool
  | .sent m => argsMatch d m
  | .returned (.ok v) => valueMatch d v
  | .returned .domfail => true
  | .returned .resfail => true
  | .returned .reserved => true
  | .idle => false

/-- CALLPEND = 1 exactly while a call is in flight, it is the call of the micro-op in PHASE, and LCD is its descriptor
(10_state R37, 30_encoding R125). -/
structure CallLive (s : State) : Prop where
  off : s.seq.callpend = false → s.chan = .idle
  on : s.seq.callpend = true → ∃ d, callOf (s.seq.v.getD 0) s.seq.phase = some d ∧ s.seq.lcd = descriptor d ∧
    inFlight d s.chan = true

/-- Which micro-op can raise what: the complete table of 60 R272. -/
def mayRaise (c : PhaseCode) (k : BitVec 3) : Bool :=
  match c.toNat with
  | 0x01 => decide (k = 1)
  | 0x02 => decide (k = 4)
  | 0x03 => decide (k = 4)
  | 0x04 => decide (k = 4)
  | 0x07 => decide (k = 2 ∨ k = 4)
  | 0x08 => decide (k = 4)
  | 0x09 => decide (k = 2 ∨ k = 4)
  | 0x0A => decide (k = 4)
  | 0x0B => decide (k = 3 ∨ k = 4)
  | 0x0C => decide (k = 4)
  | 0x0D => decide (k = 4)
  | 0x0E => decide (k = 4)
  | 0x0F => decide (k = 4)
  | 0x10 => decide (k = 4)
  | 0x11 => decide (k = 4)
  | _ => false

/-- ERRKIND and ERRPHASE are 0 except in FAIL, where they name a micro-op and a kind it can raise (10_state R39, 60 R272). -/
def errorsOk (q : Seq) : Bool :=
  if q.phase = 0x14 then mayRaise q.errphase q.errkind else decide (q.errkind = 0 ∧ q.errphase = 0)

/-- The invariant of the machine. -/
structure Inv (s : State) : Prop where
  phase : s.seq.phase.toNat ≤ 0x14
  lmax : 1 ≤ s.lib.params.lmax ∧ s.lib.params.lmax ≤ 127
  data : DataLive s.seq
  latch : LatchLive s.seq
  buffers : BuffersHeld s.seq s.lib.params.lmax
  sizes : SizesOk s.seq s.lib.params.lmax
  call : CallLive s
  errors : errorsOk s.seq = true
  canonical : s.seq.mem.wf = true

/-! ### Magnitudes (10_state R42) -/

/-- An integer a B register can hold: magnitude below 2^BW (10_state R41, 00_scope R17). -/
def fits (lmax : Nat) (v : Int) : Prop := v.natAbs < 2 ^ Config.bw lmax

/-- What is in flight leads to integers a B register can hold: hexadecimal strings of at most HEXCAP digits, digests of at
most LMAX bytes, integers that fit. -/
def chanFits (lmax : Nat) : Chan → Prop
  | .sent (.bnhex h) => h.length ≤ Config.hexcap
  | .sent (.bnbin d) => d.length ≤ lmax
  | .sent (.bnneg v) => fits lmax v
  | .sent (.bninv v m) => fits lmax v ∧ fits lmax m
  | .returned (.ok (.int v)) => fits lmax v
  | _ => True

/-- No B register holds, and nothing in flight leads to, an integer of more than BW bits (10_state R42). -/
structure MagnitudesFit (s : State) : Prop where
  regs : ∀ r v, s.seq.b.get r = some v → fits s.lib.params.lmax v
  chan : chanFits s.lib.params.lmax s.chan

/-! ### Points (00_scope R15, R17; 10_state R43) -/

/-- INF, or coordinates below m. -/
def below (m : Nat) : Point → Prop
  | .inf => True
  | .aff x y => x < m ∧ y < m

/-- What 46 R244 says of a curve table's entries and the registers need: p is not 0, and G has coordinates below p. -/
def TableFits (P : Params) : Prop := ∀ c ∈ P.table, 0 < c.p ∧ below c.p c.g

/-- The curve of the call: the table's entry for CURVEID. -/
def curveOf (s : State) : Option Curve := s.seq.curveid.bind (findCurve s.lib.params.table)

/-- What is in flight is of the call's curve: it carries CURVEID, and points with coordinates below p. -/
def chanPoints (s : State) : Prop :=
  match s.chan with
  | .sent (.curve id) => s.seq.curveid = some id
  | .sent (.pdec id _) => s.seq.curveid = some id
  | .sent (.pmul id _ q) => s.seq.curveid = some id ∧ ∃ c, curveOf s = some c ∧ below c.p q
  | .sent (.padd id a b) => s.seq.curveid = some id ∧ ∃ c, curveOf s = some c ∧ below c.p a ∧ below c.p b
  | .returned (.ok (.curve p _ g l)) => ∃ c, curveOf s = some c ∧ p = c.p ∧ g = c.g ∧ l = c.l
  | .returned (.ok (.point q)) => ∃ c, curveOf s = some c ∧ below c.p q
  | _ => True

/-- A P register holds INF or two coordinates below p < 2^(8·L), L <= LMAX, so of 8·LMAX bits each (00_scope R17, 10_state
R43): p and L are CP's, which are those of the table's entry for CURVEID. -/
structure PointsFit (s : State) : Prop where
  table : TableFits s.lib.params
  cp : ∀ (p : Int) (l : Byte), s.seq.b.bp = some p → s.seq.cpL = some l →
    ∃ c, curveOf s = some c ∧ p = c.p ∧ l.toNat = c.l ∧ c.p < 2 ^ (8 * c.l) ∧ c.l ≤ s.lib.params.lmax
  regs : ∀ (r : PReg) (q : Point), s.seq.p.get r = some q →
    ∃ (p : Nat) (l : Byte), s.seq.b.bp = some (p : Int) ∧ s.seq.cpL = some l ∧ below p q ∧ p < 2 ^ (8 * l.toNat) ∧
      l.toNat ≤ s.lib.params.lmax
  chan : chanPoints s

/-! ### Calls -/

/-- The call's return is there: CALLPEND = 1 and LRET = r. -/
def returned (s : State) (r : LRet) : Prop := s.seq.callpend = true ∧ s.chan = .returned r

/-- A call's argument values are on their way: CALLPEND = 1 and LIB has not answered. -/
def sent (s : State) (m : LMsg) : Prop := s.seq.callpend = true ∧ s.chan = .sent m

/-- SEQ's registers after response acceptance: the reset values, LCD as it was (10_state R49, 40 R156). -/
def rested (q : Seq) : Seq := { Seq.reset with lcd := q.lcd }

/-! ### Writers (10_state R41, R43) -/

/-- The one micro-op that writes a B register. -/
def writerB : BReg → Instr
  | .br => .parser
  | .bs => .parses
  | .bx => .setx
  | .be => .eload
  | .bne => .neg
  | .bri => .inv
  | .bn => .curve
  | .bp => .curve

/-- The one micro-op that writes a P register. -/
def writerP : PReg → Instr
  | .pg => .curve
  | .pr => .decomp
  | .pchk => .ordmul
  | .ps => .muls
  | .pt => .mulg
  | .pu => .add
  | .pq => .mulq

/-- The 18 micro-ops: the PHASE codes 0x01 to 0x12 (30_encoding R120). -/
def isMicroOp : Instr → Bool
  | .vrid | .curve | .parser | .parses | .trunc | .setx | .decomp | .ordmul | .ordchk | .eload | .inv | .muls | .neg
  | .mulg | .add | .mulq | .enc | .strip => true
  | .idle | .done | .fail => false
  | .recover _ _ _ _ _ | .recover2 _ _ _ _ => false
  | .lcCurve | .lcBnhex _ _ | .lcBnbin _ | .lcBnneg _ _ | .lcBninv _ _ _ | .lcPdec _ _ _ | .lcPmul _ _ _
  | .lcPadd _ _ _ | .lcPinf _ | .lcPenc _ => false

/-- The 14 micro-ops with a library call (30_encoding R120). -/
def hasCall : Instr → Bool
  | .curve | .parser | .parses | .decomp | .ordmul | .ordchk | .eload | .inv | .muls | .neg | .mulg | .add | .mulq
  | .enc => true
  | .vrid | .trunc | .setx | .strip | .idle | .done | .fail => false
  | .recover _ _ _ _ _ | .recover2 _ _ _ _ => false
  | .lcCurve | .lcBnhex _ _ | .lcBnbin _ | .lcBnneg _ _ | .lcBninv _ _ _ | .lcPdec _ _ _ | .lcPmul _ _ _
  | .lcPadd _ _ _ | .lcPinf _ | .lcPenc _ => false

/-! ### What a whole call computes (40 R152) -/

/-- A failed call: the kind and the PHASE code of the micro-op. -/
abbrev Failure := ErrKind × PhaseCode

/-- The answer of a call that the library may fail to carry out (46 R242): `f c` says whether the call of the micro-op with
code c answers RESFAIL. -/
def drawn (f : PhaseCode → Bool) (c : PhaseCode) (r : LRet) : LRet := if f c then .resfail else r

/-- The value of an answer, or the kind it raises in the micro-op with code `c`. -/
def settleAnswer (c : PhaseCode) (onDom : ErrKind) : LRet → Except Failure LVal
  | .ok v => .ok v
  | .domfail => .error (onDom, c)
  | .resfail => .error (.arithmeticFailure, c)
  | .reserved => .error (.arithmeticFailure, c)

/-- The integer of an answer. -/
def wantInt (c : PhaseCode) (onDom : ErrKind) (r : LRet) : Except Failure Int := do
  match ← settleAnswer c onDom r with
  | .int v => .ok v
  | _ => .error (.arithmeticFailure, c)

/-- The point of an answer. -/
def wantPoint (c : PhaseCode) (onDom : ErrKind) (r : LRet) : Except Failure Point := do
  match ← settleAnswer c onDom r with
  | .point q => .ok q
  | _ => .error (.arithmeticFailure, c)

/-- The curve parameters p, n, G, L of an answer, in range for LMAX (41 R172). -/
def wantCurve (lmax : Nat) (r : LRet) : Except Failure (Nat × Nat × Point × Nat) := do
  match ← settleAnswer Code.curve .arithmeticFailure r with
  | .curve p n g l =>
    if 1 ≤ l ∧ l ≤ lmax ∧ p < 256 ^ l ∧ n < 2 ^ (8 * lmax + 1) then .ok (p, n, g, l)
    else .error (.arithmeticFailure, Code.curve)
  | _ => .error (.arithmeticFailure, Code.curve)

/-- The infinity test passed (43 R201). -/
def wantInfinity (r : LRet) : Except Failure Unit := do
  match ← settleAnswer Code.ordchk .arithmeticFailure r with
  | .bit f => if f = 0 then .error (.invalidPoint, Code.ordchk) else .ok ()
  | _ => .error (.arithmeticFailure, Code.ordchk)

/-- The encoding of a point, of the length 2·L + 1 (45 R230). -/
def wantBytes (l : Nat) (r : LRet) : Except Failure (List Byte) := do
  match ← settleAnswer Code.enc .arithmeticFailure r with
  | .bytes bs => if bs.length = 2 * l + 1 then .ok bs else .error (.arithmeticFailure, Code.enc)
  | _ => .error (.arithmeticFailure, Code.enc)

/-- The recovery as one function, one line for each micro-op (40 R152): the result bytes X ‖ Y, or the first failure. -/
def recovered (P : Params) (f : PhaseCode → Bool) (recid curveid : Byte) (digest rhex shex : List Byte) :
    Except Failure (List Byte) := do
  let v ← match canonicalId recid with
    | some v => .ok v
    | none => .error (.invalidRecoveryId, Code.vrid)
  let (_, n, g, l) ← wantCurve P.lmax (drawn f Code.curve (libCurve P curveid))
  let r ← wantInt Code.parser .arithmeticFailure (drawn f Code.parser (libBnhex rhex))
  let s ← wantInt Code.parses .arithmeticFailure (drawn f Code.parses (libBnhex shex))
  let rp ← wantPoint Code.decomp .invalidPoint (drawn f Code.decomp (libPdec P curveid r v))
  let chk ← wantPoint Code.ordmul .arithmeticFailure (drawn f Code.ordmul (libPmul P curveid n rp))
  wantInfinity (drawn f Code.ordchk (libPinf chk))
  let e ← wantInt Code.eload .arithmeticFailure (drawn f Code.eload (libBnbin (digest.take l)))
  let ri ← wantInt Code.inv .noInverse (drawn f Code.inv (libBninv r n))
  let sp ← wantPoint Code.muls .arithmeticFailure (drawn f Code.muls (libPmul P curveid s rp))
  let ne ← wantInt Code.neg .arithmeticFailure (drawn f Code.neg (libBnneg e))
  let tp ← wantPoint Code.mulg .arithmeticFailure (drawn f Code.mulg (libPmul P curveid ne g))
  let up ← wantPoint Code.add .arithmeticFailure (drawn f Code.add (libPadd P curveid sp tp))
  let qp ← wantPoint Code.mulq .arithmeticFailure (drawn f Code.mulq (libPmul P curveid ri up))
  let bytes ← wantBytes l (drawn f Code.enc (libPenc P curveid qp))
  .ok (bytes.drop 1)

/-- The response record of an outcome (30_encoding R114): success, the payload; failure, kind and phase. -/
def responseOf : Except Failure (List Byte) → List Byte
  | .ok payload => [0x00, 0x00, BitVec.ofNat 8 payload.length] ++ payload
  | .error (k, c) => [k.code.setWidth 8, c.setWidth 8, 0x00]

/-- The PHASE codes of the 14 library calls of a successful call, in order (30_encoding R120). -/
def callCodes : List PhaseCode :=
  [Code.curve, Code.parser, Code.parses, Code.decomp, Code.ordmul, Code.ordchk, Code.eload, Code.inv, Code.muls, Code.neg,
    Code.mulg, Code.add, Code.mulq, Code.enc]

/-! ### The library's curve (46 R241) -/

/-- A point of the curve y^2 = x^3 + a x + b over the p-element field, coordinates in [0, p-1] (46 R255). -/
def onCurve (c : Curve) : Point → Prop
  | .inf => True
  | .aff x y => x < c.p ∧ y < c.p ∧ y * y % c.p = curveRhs c x

/-- The private data of a curve: p a prime greater than 3, 4a^3 + 27b^2 not 0 mod p (46 R255). -/
structure GoodCurve (c : Curve) : Prop where
  prime : c.p.Prime
  large : 3 < c.p
  smooth : (4 * (c.a * c.a * c.a) + 27 * (c.b * c.b)) % c.p ≠ 0

/-- (LAW1), and that addition and negation stay on the curve. -/
structure GroupLaws (c : Curve) : Prop where
  addClosed : ∀ P Q, onCurve c P → onCurve c Q → onCurve c (addPoint c P Q)
  negClosed : ∀ P, onCurve c P → onCurve c (negPoint c P)
  assoc : ∀ P Q R, onCurve c P → onCurve c Q → onCurve c R →
    addPoint c (addPoint c P Q) R = addPoint c P (addPoint c Q R)
  comm : ∀ P Q, onCurve c P → onCurve c Q → addPoint c P Q = addPoint c Q P
  zero : ∀ P, onCurve c P → addPoint c P .inf = P
  neg : ∀ P, onCurve c P → addPoint c P (negPoint c P) = .inf

/-- The laws ECREC relies on, for an entry of the curve table: a good curve that obeys (LAW1), whose base point has the
prime order n, which is the order of the group (LAW4, "cofactor assumed 1"), with p < 256^L. -/
structure LawfulCurve (c : Curve) : Prop where
  good : GoodCurve c
  laws : GroupLaws c
  base : onCurve c c.g
  baseNotInf : c.g ≠ .inf
  order : c.n.Prime
  kills : ∀ P, onCurve c P → mulPoint c c.n P = .inf
  width : c.p < 256 ^ c.l

/-! ### The ends of a step, spelled out -/

/-- A library call has been issued with the descriptor `w` and the argument values `m` (30_encoding R125). -/
def issued (w : LcdWord) (m : LMsg) (s : State) : State :=
  { s with seq := { s.seq with lcd := w, callpend := true }, chan := .sent m }

/-- LIB has answered `r` and is `l` after it (30_encoding R125). -/
def answered (r : LRet) (l : LibSide) (s : State) : State := { s with chan := .returned r, lib := l }

/-- The host has taken the response `rsp` and is `h` after its choice: SEQ is at rest, LIB's curve table may change (70 R303),
and the record that was to follow is presented (40 R156, 30_encoding R132). -/
def ended (rsp : List Byte) (h : HostSide) (s : State) : State :=
  { s with
    seq := rested s.seq, chan := .idle, lib := betweenCalls s.lib
    host := { h with
      rsps := h.rsps ++ [rsp], reqs := h.reqs ++ (h.follow.toList.map fun bytes => ⟨bytes, none⟩), follow := none } }

/-- A micro-op without a call has completed with the registers `q`; PHASE holds the code `c` (30_encoding R121). -/
def advanced (c : PhaseCode) (q : Seq) (s : State) : State := { s with seq := { q with phase := c } }

/-- A micro-op with a call has committed with the registers `q`: the return is consumed and PHASE holds the code `c`
(30_encoding R121, R125). -/
def committed (c : PhaseCode) (q : Seq) (s : State) : State :=
  { s with seq := { q with phase := c, callpend := false }, chan := .idle }

/-- The failure exit with the kind of code `k` in the micro-op of code `c` (60 R280): the request latch stays, every
other register and buffer loses its value. -/
def failed (k : BitVec 3) (c : PhaseCode) (s : State) : State :=
  { s with
    chan := .idle
    seq := { s.seq with
      phase := 0x14, callpend := false, errkind := k, errphase := c,
      v := none, inff := none, deff := none, rlenb := none, enclen := none, cpL := none,
      b := { br := none, bs := none, bx := none, be := none, bne := none, bri := none, bn := none, bp := none },
      p := { pg := none, pr := none, pchk := none, ps := none, pt := none, pu := none, pq := none },
      mem := { s.seq.mem with encbuf := [], result := [] } } }

/-- What the micro-op `i` of code `c` does on a return that is not OK: `k` is the kind its DOMFAIL raises; RESFAIL and the
reserved status 3 raise ArithmeticFailure (30_encoding R126, 60 R272). -/
structure FailsOn (i : Instr) (c : PhaseCode) (k : BitVec 3) : Prop where
  domfail : ∀ s, returned s .domfail → exec i s = .next (failed k c s)
  resfail : ∀ s, returned s .resfail → exec i s = .next (failed 4 c s)
  reserved : ∀ s, returned s .reserved → exec i s = .next (failed 4 c s)

/-- With the parameters `P`, and unless the draw is RESFAIL, LIB answers `r` to the call `i` with the argument values `m`,
and nothing but the return and the draws changes (46 R240, R242). -/
def answers (P : Params) (i : Instr) (m : LMsg) (r : LRet) : Prop :=
  ∀ s l, s.lib.params = P → s.chan = .sent m → drawFail s.lib = (false, l) → exec i s = .next (answered r l s)

/-! ### Operands and frames -/

/-- The registers with a valid bit that an instruction of SEQ reads before it writes or sends anything: the "Read by"
columns of 10_state R38 to R45, and CURVEID with every call on the call's curve (log 17). -/
def operands : Instr → List RegName
  | .vrid => [.recid]
  | .curve => [.curveid]
  | .parser => [.rlen]
  | .parses => [.slen]
  | .trunc => [.dlen, .cpL]
  | .setx => [.b .br]
  | .decomp => [.v, .curveid, .b .bx]
  | .ordmul => [.curveid, .b .bn, .p .pr]
  | .ordchk => [.p .pchk]
  | .eload => [.deff, .dlen]
  | .inv => [.b .br, .b .bn]
  | .muls => [.curveid, .b .bs, .p .pr]
  | .neg => [.b .be]
  | .mulg => [.curveid, .b .bne, .p .pg]
  | .add => [.curveid, .p .ps, .p .pt]
  | .mulq => [.curveid, .b .bri, .p .pu]
  | .enc => [.curveid, .p .pq]
  | .strip => [.cpL, .enclen]
  | .done => [.rlenb]
  | .idle | .fail | .recover _ _ _ _ _ | .recover2 _ _ _ _ => []
  | .lcCurve | .lcBnhex _ _ | .lcBnbin _ | .lcBnneg _ _ | .lcBninv _ _ _ | .lcPdec _ _ _ | .lcPmul _ _ _
  | .lcPadd _ _ _ | .lcPinf _ | .lcPenc _ => []

/-- The valid bit of a register (10_state R32). -/
def valid (q : Seq) : RegName → Bool
  | .recid => q.recid.isSome
  | .curveid => q.curveid.isSome
  | .dlen => q.dlen.isSome
  | .rlen => q.rlen.isSome
  | .slen => q.slen.isSome
  | .v => q.v.isSome
  | .inff => q.inff.isSome
  | .deff => q.deff.isSome
  | .rlenb => q.rlenb.isSome
  | .enclen => q.enclen.isSome
  | .cpL => q.cpL.isSome
  | .b r => (q.b.get r).isSome
  | .p r => (q.p.get r).isSome

/-- The bytes a micro-op stores: ENC the ENCLEN bytes of ENCBUF from index 0, STRIP the RLENB bytes of RESULT from index 0
(45 R230, R231); `q` is SEQ after it. -/
def stores (i : Instr) (q : Seq) (b : BufSel) (k : Nat) : Prop :=
  (i = .enc ∧ b = .encbuf ∧ ∃ n, q.enclen = some n ∧ k < n.toNat) ∨
    (i = .strip ∧ b = .result ∧ ∃ n, q.rlenb = some n ∧ k < n.toNat)

/-- What the micro-op `i` leaves as it was when it does not fail (10_state R38 to R46: each register has one writer). -/
structure Kept (i : Instr) (s t : State) : Prop where
  host : t.host = s.host
  lib : t.lib = s.lib
  call : hasCall i = false → t.seq.lcd = s.seq.lcd ∧ t.seq.callpend = s.seq.callpend ∧ t.chan = s.chan
  errors : t.seq.errkind = s.seq.errkind ∧ t.seq.errphase = s.seq.errphase
  latch : t.seq.recid = s.seq.recid ∧ t.seq.curveid = s.seq.curveid ∧ t.seq.dlen = s.seq.dlen ∧
    t.seq.rlen = s.seq.rlen ∧ t.seq.slen = s.seq.slen
  bregs : ∀ r, writerB r ≠ i → t.seq.b.get r = s.seq.b.get r
  pregs : ∀ r, writerP r ≠ i → t.seq.p.get r = s.seq.p.get r
  cpL : i ≠ .curve → t.seq.cpL = s.seq.cpL
  v : i ≠ .vrid → t.seq.v = s.seq.v
  inff : i ≠ .ordchk → t.seq.inff = s.seq.inff
  deff : i ≠ .trunc → t.seq.deff = s.seq.deff
  enclen : i ≠ .enc → t.seq.enclen = s.seq.enclen
  rlenb : i ≠ .strip → t.seq.rlenb = s.seq.rlenb
  bytes : ∀ b k, ¬ stores i t.seq b k → t.seq.byteAt b k = s.seq.byteAt b k

/-! ### Values the library computes, spelled out -/

/-- The value of an ASCII hexadecimal digit by its place among the digits (46 R245). -/
def digitOf (x : Byte) : Option Nat :=
  if x.toNat ∈ [0x30, 0x31, 0x32, 0x33, 0x34, 0x35, 0x36, 0x37, 0x38, 0x39] then some (x.toNat - 48)
  else if x.toNat ∈ [0x61, 0x62, 0x63, 0x64, 0x65, 0x66] then some (x.toNat - 87)
  else if x.toNat ∈ [0x41, 0x42, 0x43, 0x44, 0x45, 0x46] then some (x.toNat - 55)
  else none

/-- The value of digits, most significant first, in a base (46 R245, R246). -/
def positional (base : Nat) (digits : List Nat) : Nat := Nat.ofDigits base digits.reverse

end Sys2Proof.Safety
end

