-- ==== Sys2Proof/Certificates/Slice0/Obligations.lean ====
section
/-! DEFINITION. The statements about ECREC, by the spec's rules: encodings, steps, the host interface, the micro-ops, the
library calls, the invariants, whole calls. -/

open Sys2Proof Sys2Proof.Machine Sys2Proof.Safety

/-! ### Encodings (30_encoding) -/

/-- Decoding what a well-formed instruction is encoded to gives it back, every operand at every value (30_encoding R110 to
R132). -/
def Obligations.DecodeOfEncode : Prop :=
  ∀ (i : Instr) (e : Encoded), i.wf = true → encode i = some e → decode e = .ok i

/-- Every encoded object has one meaning at most: what decodes to an instruction is that instruction's encoding, and the
instruction is well-formed. -/
def Obligations.EncodeOfDecode : Prop :=
  ∀ (e : Encoded) (i : Instr), decode e = .ok i → encode i = some e ∧ i.wf = true

/-- Words the spec writes out: the request of 40 R151, PHASE codes and descriptors of 30_encoding R120. -/
def Obligations.SpecWordsDecode : Prop :=
  decode (.req [0x01, 0x00, 0xA0, 0x02, 0x02, 0x00, 0x01, 0x5A, 0x39, 0x64, 0x38, 0x39])
      = .ok (.recover 0 0xA0 [0x5A] [0x39, 0x64] [0x38, 0x39]) ∧
    decode (.uop 0x07) = .ok .decomp ∧ decode (.uop 0x12) = .ok .strip ∧
    decode (.lcd 0x1000) = .ok .lcCurve ∧ decode (.lcd 0x2110) = .ok (.lcBnhex .bs .shex) ∧
    decode (.lcd 0x6121) = .ok (.lcPdec .pr .bx 1) ∧ decode (.lcd 0x7261) = .ok (.lcPmul .pchk .bn .pr) ∧
    decode (.lcd 0x5506) = .ok (.lcBninv .bri .br .bn) ∧ decode (.lcd 0x8534) = .ok (.lcPadd .pu .ps .pt) ∧
    decodeTableWord 16 0xA060 = some (.lcPenc .pq)

/-- Reserved encodings are no instruction: PHASE 0x15 to 0x1F (30_encoding R122), LCD.op 0x0 and 0xB to 0xF (R127), every
CMD but 0x01 (R112). -/
def Obligations.ReservedRejected : Prop :=
  (∀ c : PhaseCode, 0x15 ≤ c.toNat → decode (.uop c) = .error (.reservedPhase c)) ∧
    (∀ w : LcdWord, w.toNat / 4096 = 0 ∨ 0xB ≤ w.toNat / 4096 → decode (.lcd w) = .error (.reservedOp w)) ∧
    ∀ (cmd : Byte) (rest : List Byte), cmd ≠ 0x01 → decode (.req (cmd :: rest)) = .error (.reservedCmd cmd)

/-- The fields of a request record, and its one length 7 + DLEN + RLEN + SLEN (30_encoding R111, R130). -/
def Obligations.RequestFields : Prop :=
  ∀ (recid curveid rlen slen hi lo : Byte) (body : List Byte),
    (body.length = 256 * hi.toNat + lo.toNat + rlen.toNat + slen.toNat →
      ∃ digest rhex shex, body = digest ++ rhex ++ shex ∧ digest.length = 256 * hi.toNat + lo.toNat ∧
        rhex.length = rlen.toNat ∧ shex.length = slen.toNat ∧
        decode (.req (0x01 :: recid :: curveid :: rlen :: slen :: hi :: lo :: body))
          = .ok (.recover recid curveid digest rhex shex)) ∧
    (body.length ≠ 256 * hi.toNat + lo.toNat + rlen.toNat + slen.toNat →
      decode (.req (0x01 :: recid :: curveid :: rlen :: slen :: hi :: lo :: body)) = .error .badLength)

/-! ### Steps -/

/-- A step runs the decoded instruction. While a call is sent and not answered: the descriptor in LCD if LIB answers now, else
the micro-op in PHASE, which waits (`MicroOpWaits`). With no call sent: with PHASE = IDLE the oldest request, which leaves the
channel, or IDLE where none is present; else the micro-op or resting code in PHASE. Nothing is added around exec. The three
places of the fetch (log 22), LIB's answer as a draw of each step (log 1), the requests' order, oldest first (log 7), and the
record kept to follow a request (log 23) are the model's. -/
def Obligations.StepRunsDecoded : Prop :=
  (∀ (s : State) (m : LMsg) (l : LibSide) (i : Instr), s.host.rst = false → sent s m → drawReady s.lib = (true, l) →
      decode (.lcd s.seq.lcd) = .ok i → step s = exec i { s with lib := l }) ∧
    (∀ (s : State) (m : LMsg) (l : LibSide) (i : Instr), s.host.rst = false → sent s m → drawReady s.lib = (false, l) →
      decode (.uop s.seq.phase) = .ok i → step s = exec i { s with lib := l }) ∧
    (∀ (s : State) (i : Instr), s.host.rst = false → (¬ ∃ m, sent s m) → s.seq.phase ≠ 0x00 →
      decode (.uop s.seq.phase) = .ok i → step s = exec i s) ∧
    (∀ (s : State) (r : Request) (rest : List Request) (i : Instr), s.host.rst = false →
      (¬ ∃ m, sent s m) → s.seq.phase = 0x00 → s.host.reqs = r :: rest → decode (.req r.bytes) = .ok i →
      step s = exec i { s with host := { s.host with reqs := rest, follow := r.follow } }) ∧
    ∀ s : State, s.host.rst = false → (¬ ∃ m, sent s m) → s.seq.phase = 0x00 → s.host.reqs = [] →
      step s = exec .idle s

/-- Where a step has nothing to run: a reserved PHASE code is a model fault (30_encoding R122); a request whose CMD is
reserved is refused (R112), and one of a contradictory length (93 U8; log 20); a descriptor that is no library call is a
model fault where LIB is to answer it (R127, 93 U10; log 21), met before a reserved PHASE code (log 33). -/
def Obligations.StepStops : Prop :=
  (∀ s : State, s.host.rst = false → ((∃ m, sent s m) → (drawReady s.lib).1 = false) → 0x15 ≤ s.seq.phase.toNat →
      step s = .fault (.reservedPhase s.seq.phase)) ∧
    (∀ (s : State) (cmd : Byte) (bytes : List Byte) (r : Request) (rest : List Request), s.host.rst = false →
      (¬ ∃ m, sent s m) → s.seq.phase = 0x00 → s.host.reqs = r :: rest → r.bytes = cmd :: bytes → cmd ≠ 0x01 →
      step s = .refused (.reservedCmd cmd)) ∧
    (∀ (s : State) (r : Request) (rest : List Request), s.host.rst = false → (¬ ∃ m, sent s m) →
      s.seq.phase = 0x00 → s.host.reqs = r :: rest → decode (.req r.bytes) = .error .badLength →
      step s = .refused .badLength) ∧
    ∀ (s : State) (m : LMsg), s.host.rst = false → sent s m → (drawReady s.lib).1 = true →
      (∀ i, decode (.lcd s.seq.lcd) ≠ .ok i) → step s = .fault (.reservedLcd s.seq.lcd)

/-- The reset input abandons the call: no response is produced, the outstanding return is discarded, and ECREC is in its
reset state (70 R300, R301), so the record that was to follow the call's response is never presented (30_encoding R132). That
the input is then released, that records not yet taken stay presented, that LCD is 0x0000, and that LIB's curve table may
change here as at the end of a call are the model's choices (log 10, 5, 36). -/
def Obligations.ResetInputAbandons : Prop :=
  ∀ s : State, s.host.rst = true →
    step s = .next { s with
      seq := Seq.reset, chan := .idle, host := { s.host with follow := none, rst := false }, lib := betweenCalls s.lib }

/-- The reset state of 10_state R49: PHASE, CALLPEND, ERRKIND and ERRPHASE are 0 and no data register, latch register or
buffer holds a value. LCD is left open there, and here. -/
def Obligations.ResetState : Prop :=
  State.reset.seq.phase = 0x00 ∧ State.reset.seq.callpend = false ∧ State.reset.seq.errkind = 0 ∧
    State.reset.seq.errphase = 0x00 ∧ (∀ r : RegName, valid State.reset.seq r = false) ∧
    ∀ (b : BufSel) (k : Nat), State.reset.seq.byteAt b k = none

/-! ### The host interface (40) -/

/-- RECOVER at PHASE = IDLE: the latch holds the request, of the digest the left-most LMAX bytes; every other valid bit is
cleared; PHASE is VRID (40 R151). It never fails. -/
def Obligations.RecoverAccepts : Prop :=
  ∀ (s : State) (recid curveid : Byte) (digest rhex shex : List Byte),
    s.seq.phase = 0x00 → digest.length < 65536 → rhex.length < 256 → shex.length < 256 →
    ∃ (dlen : BitVec 16) (rlen slen : Byte),
      dlen.toNat = digest.length ∧ rlen.toNat = rhex.length ∧ slen.toNat = shex.length ∧
      exec (.recover recid curveid digest rhex shex) s = .next { s with
        chan := .idle
        seq := { Seq.reset with
          lcd := s.seq.lcd, phase := 0x01, recid := some recid, curveid := some curveid
          dlen := some dlen, rlen := some rlen, slen := some slen
          mem := { Memory.reset with
            digest := cellsFrom 0 (digest.take s.lib.params.lmax)
            rhex := cellsFrom 0 rhex
            shex := cellsFrom 0 shex } } }

/-- RECOVER while a call is in progress: the request waits on the channel, and ECREC is as before (40 R150). RECOVER2, at any
time, presents the request of id 0, with the one of id 1 to follow it once its response is accepted, and nothing else changes
(30_encoding R132). What is the model's here: that RECOVER run while busy is the host's presenting, and that the record to
follow is kept beside the first one (DEDUCED, log 23); that a record goes last (DESIGN CHOICE, log 7). -/
def Obligations.RequestsWait : Prop :=
  (∀ (s : State) (recid curveid : Byte) (digest rhex shex : List Byte), s.seq.phase ≠ 0x00 →
      exec (.recover recid curveid digest rhex shex) s = .next { s with
        host := { s.host with reqs := s.host.reqs ++ [⟨reqBytes recid curveid digest rhex shex, none⟩] } }) ∧
    ∀ (s : State) (curveid : Byte) (digest rhex shex : List Byte),
      exec (.recover2 curveid digest rhex shex) s = .next { s with
        host := { s.host with
          reqs := s.host.reqs ++
            [⟨reqBytes 0 curveid digest rhex shex, some (reqBytes 1 curveid digest rhex shex)⟩] } }

/-- IDLE with no request present: nothing changes (10_state R36, 40 R158; log 28). -/
def Obligations.IdleRests : Prop := ∀ s : State, exec .idle s = .next s

/-- The response (40 R154, R156). At DONE it is [0, 0, RLENB] ‖ RESULT, at FAIL [zext_8(ERRKIND), zext_8(ERRPHASE), 0]. Not
taken, it is held and ECREC is as before; taken, every valid bit is cleared and PHASE is IDLE, and the record that was to
follow is presented (30_encoding R132). That LCD stays (log 5), the host's answer as a draw (log 8), the list of responses
taken (log 9), that a record goes last (log 7), and that LIB's curve table changes, if it does, with the response taken
(log 36) are the model's choices. -/
def Obligations.ResponseTaken : Prop :=
  (∀ (s : State) (n : Byte) (payload : List Byte) (taken : Bool) (h : HostSide),
      s.seq.rlenb = some n → readCells s.seq.mem.result 0 n.toNat = some payload → drawTake s.host = (taken, h) →
      exec .done s = .next (if taken then ended (0x00 :: 0x00 :: n :: payload) h s else { s with host := h })) ∧
    ∀ (s : State) (taken : Bool) (h : HostSide), drawTake s.host = (taken, h) →
      exec .fail s = .next (if taken then
          ended [s.seq.errkind.setWidth 8, s.seq.errphase.setWidth 8, 0x00] h s
        else { s with host := h })

/-- The response channel is valid exactly at DONE and FAIL (40 R150); a success has 2·L payload bytes, whatever the
coordinates, and a failure has none (R155). -/
def Obligations.ResponseChannel : Prop :=
  ∀ s : State, Inv s →
    ((∃ rsp, response s = some rsp) ↔ s.seq.phase = 0x13 ∨ s.seq.phase = 0x14) ∧
    (∀ rsp, s.seq.phase = 0x13 → response s = some rsp →
      ∃ l, s.seq.cpL = some l ∧ rsp.length = 3 + 2 * l.toNat ∧ rsp.take 2 = [0x00, 0x00]) ∧
    ∀ rsp, s.seq.phase = 0x14 → response s = some rsp → rsp.length = 3 ∧ rsp.head? ≠ some 0x00

/-! ### The micro-ops (41 to 45) -/

/-- VRID (41 R170): 0 and 27 give V = 0, 1 and 28 give V = 1; every other RECID raises InvalidRecoveryId. -/
def Obligations.VridRule : Prop :=
  ∀ (s : State) (recid : Byte), s.seq.recid = some recid →
    (recid.toNat = 0 ∨ recid.toNat = 27 →
      exec .vrid s = .next (advanced 0x02 { s.seq with v := some 0 } s)) ∧
    (recid.toNat = 1 ∨ recid.toNat = 28 →
      exec .vrid s = .next (advanced 0x02 { s.seq with v := some 1 } s)) ∧
    (recid.toNat ∉ [0, 1, 27, 28] → exec .vrid s = .next (failed 1 0x01 s))

/-- CURVE (41 R172): the call 0x1000 with CURVEID; parameters that fit are written to B[7], B[6], P[0] and CP.L; others, and
every failure of the call, raise ArithmeticFailure. -/
def Obligations.CurveRule : Prop :=
  (∀ (s : State) (id : Byte), s.seq.callpend = false → s.seq.curveid = some id →
      exec .curve s = .next (issued 0x1000 (.curve id) s)) ∧
    (∀ (s : State) (p n : Nat) (g : Point) (l : Byte), returned s (.ok (.curve p n g l.toNat)) →
      1 ≤ l.toNat → l.toNat ≤ s.lib.params.lmax → p < 256 ^ l.toNat → n < 2 ^ (8 * s.lib.params.lmax + 1) →
      exec .curve s = .next (committed 0x03 { s.seq with
        b := { s.seq.b with bp := some p, bn := some n }
        p := { s.seq.p with pg := some g }
        cpL := some l } s)) ∧
    (∀ (s : State) (p n : Nat) (g : Point) (l : Nat), returned s (.ok (.curve p n g l)) →
      l < 1 ∨ s.lib.params.lmax < l ∨ 256 ^ l ≤ p ∨ 2 ^ (8 * s.lib.params.lmax + 1) ≤ n →
      exec .curve s = .next (failed 4 0x02 s)) ∧
    FailsOn .curve 0x02 4

/-- PARSER (41 R173) and PARSES (R174): the calls 0x2000 and 0x2110 with the string of RHEX and SHEX; the integer goes to
B[0] and B[1], with no range check; every failure raises ArithmeticFailure. -/
def Obligations.ParseRules : Prop :=
  (∀ (s : State) (n : Byte) (h : List Byte), s.seq.callpend = false → s.seq.rlen = some n →
      readCells s.seq.mem.rhex 0 n.toNat = some h → exec .parser s = .next (issued 0x2000 (.bnhex h) s)) ∧
    (∀ (s : State) (r : Int), returned s (.ok (.int r)) →
      exec .parser s = .next (committed 0x04 { s.seq with b := { s.seq.b with br := some r } } s)) ∧
    FailsOn .parser 0x03 4 ∧
    (∀ (s : State) (n : Byte) (h : List Byte), s.seq.callpend = false → s.seq.slen = some n →
      readCells s.seq.mem.shex 0 n.toNat = some h → exec .parses s = .next (issued 0x2110 (.bnhex h) s)) ∧
    (∀ (s : State) (v : Int), returned s (.ok (.int v)) →
      exec .parses s = .next (committed 0x05 { s.seq with b := { s.seq.b with bs := some v } } s)) ∧
    FailsOn .parses 0x04 4

/-- TRUNC (41 R175): DEFF is min(DLEN, CP.L), for every DLEN; it never fails. -/
def Obligations.TruncRule : Prop :=
  ∀ (s : State) (d : BitVec 16) (l : Byte), s.seq.dlen = some d → s.seq.cpL = some l →
    ∃ e : BitVec 8, e.toNat = min d.toNat l.toNat ∧
      exec .trunc s = .next (advanced 0x06 { s.seq with deff := some e } s)

/-- SETX (42 R190): B[2] is B[0], the same integer; it never fails. -/
def Obligations.SetxRule : Prop :=
  ∀ (s : State) (r : Int), s.seq.b.br = some r →
    exec .setx s = .next (advanced 0x07 { s.seq with b := { s.seq.b with bx := some r } } s)

/-- DECOMP (42 R191, 30_encoding R129): the call is 0x6120 for V = 0 and 0x6121 for V = 1, with B[2]; the point goes to
P[1]; DOMFAIL raises InvalidPoint, RESFAIL ArithmeticFailure. That CURVEID is sent too is the model's reading (log 17). -/
def Obligations.DecompRule : Prop :=
  (∀ (s : State) (id : Byte) (x : Int), s.seq.callpend = false → s.seq.curveid = some id → s.seq.b.bx = some x →
      (s.seq.v = some 0 → exec .decomp s = .next (issued 0x6120 (.pdec id x) s)) ∧
      (s.seq.v = some 1 → exec .decomp s = .next (issued 0x6121 (.pdec id x) s))) ∧
    (∀ (s : State) (q : Point), returned s (.ok (.point q)) →
      exec .decomp s = .next (committed 0x08 { s.seq with p := { s.seq.p with pr := some q } } s)) ∧
    FailsOn .decomp 0x07 2

/-- ORDMUL (43 R200): the call 0x7261 with n, unreduced, and R; the product goes to P[2]; every failure raises
ArithmeticFailure. That CURVEID is sent too is the model's reading (log 17). -/
def Obligations.OrdmulRule : Prop :=
  (∀ (s : State) (id : Byte) (n : Int) (r : Point), s.seq.callpend = false → s.seq.curveid = some id →
      s.seq.b.bn = some n → s.seq.p.pr = some r → exec .ordmul s = .next (issued 0x7261 (.pmul id n r) s)) ∧
    (∀ (s : State) (q : Point), returned s (.ok (.point q)) →
      exec .ordmul s = .next (committed 0x09 { s.seq with p := { s.seq.p with pchk := some q } } s)) ∧
    FailsOn .ordmul 0x08 4

/-- ORDCHK (43 R201): the call 0x9020 with n·R; the answer 1 goes to INFF, the answer 0 raises InvalidPoint, a failure of
the call ArithmeticFailure. -/
def Obligations.OrdchkRule : Prop :=
  (∀ (s : State) (q : Point), s.seq.callpend = false → s.seq.p.pchk = some q →
      exec .ordchk s = .next (issued 0x9020 (.pinf q) s)) ∧
    (∀ s : State, returned s (.ok (.bit 1)) →
      exec .ordchk s = .next (committed 0x0A { s.seq with inff := some 1 } s)) ∧
    (∀ s : State, returned s (.ok (.bit 0)) → exec .ordchk s = .next (failed 2 0x09 s)) ∧
    FailsOn .ordchk 0x09 4

/-- ELOAD (44 R210): the call 0x3300 with the left-most DEFF bytes of DIGEST; the integer goes to B[3]; every failure raises
ArithmeticFailure. -/
def Obligations.EloadRule : Prop :=
  (∀ (s : State) (e : BitVec 8) (d : BitVec 16) (bytes : List Byte), s.seq.callpend = false → s.seq.deff = some e →
      s.seq.dlen = some d → e.toNat ≤ d.toNat → e.toNat ≤ s.lib.params.lmax →
      readCells s.seq.mem.digest 0 e.toNat = some bytes →
      exec .eload s = .next (issued 0x3300 (.bnbin bytes) s)) ∧
    (∀ (s : State) (v : Int), returned s (.ok (.int v)) →
      exec .eload s = .next (committed 0x0B { s.seq with b := { s.seq.b with be := some v } } s)) ∧
    FailsOn .eload 0x0A 4

/-- INV (44 R211): the call 0x5506 with r and n; the inverse goes to B[5]; DOMFAIL raises NoInverse, RESFAIL
ArithmeticFailure. -/
def Obligations.InvertRule : Prop :=
  (∀ (s : State) (r n : Int), s.seq.callpend = false → s.seq.b.br = some r → s.seq.b.bn = some n →
      exec .inv s = .next (issued 0x5506 (.bninv r n) s)) ∧
    (∀ (s : State) (v : Int), returned s (.ok (.int v)) →
      exec .inv s = .next (committed 0x0C { s.seq with b := { s.seq.b with bri := some v } } s)) ∧
    FailsOn .inv 0x0B 3

/-- MULS (44 R212), MULG (R214) and MULQ (R216): the calls 0x7311, 0x7440 and 0x7655; the products go to P[3], P[4] and
P[6]; every failure raises ArithmeticFailure. That CURVEID is sent too is the model's reading (log 17). -/
def Obligations.MultiplyRules : Prop :=
  (∀ (s : State) (id : Byte) (k : Int) (r : Point), s.seq.callpend = false → s.seq.curveid = some id →
      s.seq.b.bs = some k → s.seq.p.pr = some r → exec .muls s = .next (issued 0x7311 (.pmul id k r) s)) ∧
    (∀ (s : State) (q : Point), returned s (.ok (.point q)) →
      exec .muls s = .next (committed 0x0D { s.seq with p := { s.seq.p with ps := some q } } s)) ∧
    FailsOn .muls 0x0C 4 ∧
    (∀ (s : State) (id : Byte) (k : Int) (g : Point), s.seq.callpend = false → s.seq.curveid = some id →
      s.seq.b.bne = some k → s.seq.p.pg = some g → exec .mulg s = .next (issued 0x7440 (.pmul id k g) s)) ∧
    (∀ (s : State) (q : Point), returned s (.ok (.point q)) →
      exec .mulg s = .next (committed 0x0F { s.seq with p := { s.seq.p with pt := some q } } s)) ∧
    FailsOn .mulg 0x0E 4 ∧
    (∀ (s : State) (id : Byte) (k : Int) (u : Point), s.seq.callpend = false → s.seq.curveid = some id →
      s.seq.b.bri = some k → s.seq.p.pu = some u → exec .mulq s = .next (issued 0x7655 (.pmul id k u) s)) ∧
    (∀ (s : State) (q : Point), returned s (.ok (.point q)) →
      exec .mulq s = .next (committed 0x11 { s.seq with p := { s.seq.p with pq := some q } } s)) ∧
    FailsOn .mulq 0x10 4

/-- NEG (44 R213) and ADD (R215): the calls 0x4430 with e and 0x8534 with S and T; the integer goes to B[4], the sum to
P[5]; every failure raises ArithmeticFailure. That CURVEID is sent with ADD is the model's reading (log 17). -/
def Obligations.NegAddRules : Prop :=
  (∀ (s : State) (e : Int), s.seq.callpend = false → s.seq.b.be = some e →
      exec .neg s = .next (issued 0x4430 (.bnneg e) s)) ∧
    (∀ (s : State) (v : Int), returned s (.ok (.int v)) →
      exec .neg s = .next (committed 0x0E { s.seq with b := { s.seq.b with bne := some v } } s)) ∧
    FailsOn .neg 0x0D 4 ∧
    (∀ (s : State) (id : Byte) (a b : Point), s.seq.callpend = false → s.seq.curveid = some id → s.seq.p.ps = some a →
      s.seq.p.pt = some b → exec .add s = .next (issued 0x8534 (.padd id a b) s)) ∧
    (∀ (s : State) (q : Point), returned s (.ok (.point q)) →
      exec .add s = .next (committed 0x10 { s.seq with p := { s.seq.p with pu := some q } } s)) ∧
    FailsOn .add 0x0F 4

/-- ENC (45 R230): the call 0xA060 with Q; bytes of the length 2·L + 1 go to ENCBUF from index 0 and their number to ENCLEN,
the rest of the buffer stays; another length, and every failure of the call, raises ArithmeticFailure. That CURVEID is sent
too is the model's reading (log 17). -/
def Obligations.EncRule : Prop :=
  (∀ (s : State) (id : Byte) (q : Point), s.seq.callpend = false → s.seq.curveid = some id → s.seq.p.pq = some q →
      exec .enc s = .next (issued 0xA060 (.penc id q) s)) ∧
    (∀ (s : State) (l : Byte) (bytes : List Byte), returned s (.ok (.bytes bytes)) → s.seq.cpL = some l →
      l.toNat ≤ s.lib.params.lmax → bytes.length = 2 * l.toNat + 1 →
      ∃ (n : BitVec 9) (cells : List Host.Cell), n.toNat = 2 * l.toNat + 1 ∧
        readCells cells 0 n.toNat = some bytes ∧
        (∀ k, n.toNat ≤ k → readCell cells k = readCell s.seq.mem.encbuf k) ∧
        exec .enc s = .next (committed 0x12 { s.seq with
          enclen := some n, mem := { s.seq.mem with encbuf := cells } } s)) ∧
    (∀ (s : State) (l : Byte) (bytes : List Byte), returned s (.ok (.bytes bytes)) → s.seq.cpL = some l →
      bytes.length ≠ 2 * l.toNat + 1 → exec .enc s = .next (failed 4 0x11 s)) ∧
    FailsOn .enc 0x11 4

/-- STRIP (45 R231): the 2·L bytes of ENCBUF from index 1 go to RESULT from index 0 and their number to RLENB, the rest of
the buffer stays; it never fails. -/
def Obligations.StripRule : Prop :=
  ∀ (s : State) (l : Byte) (m : BitVec 9) (bytes : List Byte), s.seq.cpL = some l → l.toNat ≤ 127 →
    l.toNat ≤ s.lib.params.lmax → s.seq.enclen = some m → 2 * l.toNat + 1 ≤ m.toNat →
    readCells s.seq.mem.encbuf 1 (2 * l.toNat) = some bytes →
    ∃ (n : Byte) (cells : List Host.Cell), n.toNat = 2 * l.toNat ∧ readCells cells 0 n.toNat = some bytes ∧
      (∀ k, n.toNat ≤ k → readCell cells k = readCell s.seq.mem.result k) ∧
      exec .strip s = .next (advanced 0x13 { s.seq with
        rlenb := some n, mem := { s.seq.mem with result := cells } } s)

/-- Between issue and commit SEQ takes no other step (30_encoding R125): a micro-op whose call is sent and not answered waits,
and nothing changes. So for as long as LIB does not answer, ECREC stays as it is (40 R159, 60 R285 "stuck"): it does not probe
for LIB, and a missing LIB shows as a call that never returns (70 R303). That it waits in steps of its own, one for each draw
on which LIB does not answer, is the model's (log 1, 26). -/
def Obligations.MicroOpWaits : Prop :=
  (∀ (i : Instr) (s : State) (m : LMsg), hasCall i = true → sent s m → exec i s = .next s) ∧
    ∀ (k : Nat) (s : State) (m : LMsg) (more : List Bool), Inv s → s.host.rst = false → sent s m →
      s.lib.ready = List.replicate k false ++ more →
      Sys2Proof.core.run k s = .next { s with lib := { s.lib with ready := more } }

/-- An instruction that is to read a register whose valid bit is 0 stops with the model fault that names such a register
(10_state R33), ENC at its commit for CP.L too. That DECOMP, ORDMUL, MULS, MULG, ADD, MULQ and ENC read CURVEID is the
model's reading (log 17). -/
def Obligations.InvalidReadFaults : Prop :=
  (∀ (i : Instr) (s : State), s.seq.callpend = false → (∃ r ∈ operands i, valid s.seq r = false) →
      ∃ r ∈ operands i, valid s.seq r = false ∧ exec i s = .fault (.invalidRead r)) ∧
    ∀ (s : State) (bytes : List Byte), returned s (.ok (.bytes bytes)) → s.seq.cpL = none →
      exec .enc s = .fault (.invalidRead .cpL)

/-- The frame of the 18 micro-ops: one that does not take the failure exit leaves the host, the library, the request latch,
the error registers, every register it is not the writer of, and every byte it does not store as they were (10_state R38 to
R46). From every state with LMAX within its bound (00_scope R11), which the invariant of the machine holds: RLENB, of 8 bits,
counts the 2·L bytes STRIP stores only there. -/
def Obligations.MicroOpFrame : Prop :=
  ∀ (i : Instr) (c : PhaseCode) (s t : State), s.lib.params.lmax ≤ 127 → isMicroOp i = true →
    encode i = some (.uop c) → exec i s = .next t → (∃ k, t = failed k c s) ∨ Kept i s t

/-! ### The library calls (46) -/

/-- Any call, on any arguments, may answer RESFAIL: it does where the draw says so, and nothing else changes but the draws
(46 R242). -/
def Obligations.ResourceFailure : Prop :=
  ∀ (i : Instr) (s : State) (m : LMsg) (l : LibSide), s.chan = .sent m → argsMatch i m = true →
    drawFail s.lib = (true, l) → exec i s = .next (answered .resfail l s)

/-- LC_CURVE (46 R244): the parameters p, n, G, L of the curve the table has for the identifier, DOMFAIL where it has none.
That the first of several entries with one identifier counts is the model's choice (log 3). -/
def Obligations.CurveLookup : Prop :=
  ∀ (P : Params) (id : Byte),
    (∀ (before after : List Curve) (c : Curve), P.table = before ++ c :: after → c.id = id →
      (∀ d ∈ before, d.id ≠ id) → answers P .lcCurve (.curve id) (.ok (.curve c.p c.n c.g c.l))) ∧
    ((∀ d ∈ P.table, d.id ≠ id) → answers P .lcCurve (.curve id) .domfail)

/-- LC_BNHEX (46 R245): a string of one or more hexadecimal digits of either case is the integer it writes, in
[0, 16^m - 1]; any other string is DOMFAIL. -/
def Obligations.HexParse : Prop :=
  ∀ (P : Params) (dst : BReg) (src : HexBuf) (h : List Byte),
    (∀ ds : List Nat, h ≠ [] → h.map digitOf = ds.map some →
      positional 16 ds < 16 ^ h.length ∧
        answers P (.lcBnhex dst src) (.bnhex h) (.ok (.int (positional 16 ds : Nat)))) ∧
    (h = [] ∨ (∃ x ∈ h, digitOf x = none) → answers P (.lcBnhex dst src) (.bnhex h) .domfail)

/-- LC_BNBIN (46 R246): a byte string is the big-endian integer it writes, in [0, 256^m - 1]; the empty one is 0. -/
def Obligations.BinaryParse : Prop :=
  ∀ (P : Params) (dst : BReg) (d : List Byte),
    positional 256 (d.map BitVec.toNat) < 256 ^ d.length ∧
      answers P (.lcBnbin dst) (.bnbin d) (.ok (.int (positional 256 (d.map BitVec.toNat) : Nat)))

/-- LC_BNNEG (46 R247): the additive inverse of the integer, with no modulus. LC_PINF (R252): 1 for the point at infinity,
else 0. -/
def Obligations.NegateAndInfinity : Prop :=
  (∀ (P : Params) (dst a : BReg) (v : Int), answers P (.lcBnneg dst a) (.bnneg v) (.ok (.int (-v)))) ∧
    ∀ (P : Params) (a : PReg), answers P (.lcPinf a) (.pinf .inf) (.ok (.bit 1)) ∧
      ∀ x y : Nat, answers P (.lcPinf a) (.pinf (.aff x y)) (.ok (.bit 0))

/-- LC_BNINV (46 R248), m >= 2: the one w in [1, m-1] with v·w = 1 mod m where v and m are coprime, and DOMFAIL where they
are not. -/
def Obligations.ModularInverse : Prop :=
  ∀ (P : Params) (dst a b : BReg) (v m : Int), 2 ≤ m →
    (Int.gcd (v % m) m = 1 → ∃ w : Int, 1 ≤ w ∧ w ≤ m - 1 ∧ v * w % m = 1 ∧
      (∀ u : Int, 1 ≤ u → u ≤ m - 1 → v * u % m = 1 → u = w) ∧
      answers P (.lcBninv dst a b) (.bninv v m) (.ok (.int w))) ∧
    (Int.gcd (v % m) m ≠ 1 → answers P (.lcBninv dst a b) (.bninv v m) .domfail)

/-- LC_PDEC (46 R249), on a curve of R255: for x in [0, p-1] the point with X-coordinate x and Y-parity v where the curve
has one, and DOMFAIL where it has none or x < 0; for x >= p by the parameter DECOMP_OOR. -/
def Obligations.Decompress : Prop :=
  ∀ (P : Params) (id : Byte) (c : Curve) (dst : PReg) (a : BReg) (v : BitVec 1) (x : Int),
    findCurve P.table id = some c → GoodCurve c →
    (∀ y : Nat, 0 ≤ x → onCurve c (.aff x.toNat y) → y % 2 = v.toNat →
      answers P (.lcPdec dst a v) (.pdec id x) (.ok (.point (.aff x.toNat y)))) ∧
    (0 ≤ x → x < c.p → (∀ y : Nat, onCurve c (.aff x.toNat y) → y % 2 ≠ v.toNat) →
      answers P (.lcPdec dst a v) (.pdec id x) .domfail) ∧
    (x < 0 → answers P (.lcPdec dst a v) (.pdec id x) .domfail) ∧
    (c.p ≤ x → P.decompOor = .domfail → answers P (.lcPdec dst a v) (.pdec id x) .domfail) ∧
    ∀ r : LRet, c.p ≤ x → P.decompOor = .reduce →
      answers P (.lcPdec dst a v) (.pdec id (x % c.p)) r → answers P (.lcPdec dst a v) (.pdec id x) r

/-- LC_PMUL (46 R250): k·P by (LAW2) for every integer k, unreduced, on a curve that obeys (LAW1). -/
def Obligations.ScalarMultiplication : Prop :=
  ∀ (P : Params) (id : Byte) (c : Curve), findCurve P.table id = some c → GroupLaws c →
    ∃ mul : Int → Point → Point,
      (∀ (dst b : PReg) (a : BReg) (k : Int) (q : Point),
        answers P (.lcPmul dst a b) (.pmul id k q) (.ok (.point (mul k q)))) ∧
      (∀ q : Point, onCurve c q → mul 0 q = .inf ∧
        ∀ k : Int, onCurve c (mul k q) ∧ mul (k + 1) q = addPoint c (mul k q) q ∧
          mul (-k) q = negPoint c (mul k q))

/-- LC_PADD (46 R251) of the library's realisation (PRESUMED, log 11): the sum is the realisation's addPoint, for every two
pairs, on the curve or not; with INF the other point, with the negative INF. For pairs that are no points of the curve, of
which R251 says nothing, what it answers is the model's choice (log 34, 35). -/
def Obligations.PointAddition : Prop :=
  ∀ (P : Params) (id : Byte) (c : Curve) (dst a b : PReg), findCurve P.table id = some c →
    (∀ q r : Point, answers P (.lcPadd dst a b) (.padd id q r) (.ok (.point (addPoint c q r)))) ∧
    (∀ q : Point, answers P (.lcPadd dst a b) (.padd id q .inf) (.ok (.point q))) ∧
    (∀ q : Point, answers P (.lcPadd dst a b) (.padd id .inf q) (.ok (.point q))) ∧
    ∀ q : Point, onCurve c q → answers P (.lcPadd dst a b) (.padd id q (negPoint c q)) (.ok (.point .inf))

/-- LC_PENC (46 R253): one format byte, of any value, then X and Y in L bytes each, big-endian (20_memory R86); DOMFAIL for
the point at infinity. -/
def Obligations.PointEncoding : Prop :=
  ∀ (P : Params) (id : Byte) (c : Curve) (a : PReg), findCurve P.table id = some c →
    (∀ x y : Nat, x < 256 ^ c.l → y < 256 ^ c.l → ∃ (f : Byte) (xs ys : List Byte),
      xs.length = c.l ∧ ys.length = c.l ∧ positional 256 (xs.map BitVec.toNat) = x ∧
      positional 256 (ys.map BitVec.toNat) = y ∧
      answers P (.lcPenc a) (.penc id (.aff x y)) (.ok (.bytes (f :: (xs ++ ys))))) ∧
    answers P (.lcPenc a) (.penc id .inf) .domfail

/-- The model's own answers where 46 gives none: LC_BNINV with m < 2 answers DOMFAIL or an integer a B register holds, of a
free value (log 15); a call on a curve the table has not answers DOMFAIL (log 19). -/
def Obligations.OpenAnswers : Prop :=
  (∀ (P : Params) (dst a b : BReg) (v m : Int), m < 2 →
      ∃ r : LRet, (r = .domfail ∨ ∃ w : Int, r = .ok (.int w) ∧ w.natAbs < 2 ^ 1020) ∧
        answers P (.lcBninv dst a b) (.bninv v m) r) ∧
    ∀ (P : Params) (id : Byte), findCurve P.table id = none →
      (∀ (dst : PReg) (a : BReg) (v : BitVec 1) (x : Int), answers P (.lcPdec dst a v) (.pdec id x) .domfail) ∧
      (∀ (dst b : PReg) (a : BReg) (k : Int) (q : Point), answers P (.lcPmul dst a b) (.pmul id k q) .domfail) ∧
      (∀ (dst a b : PReg) (q r : Point), answers P (.lcPadd dst a b) (.padd id q r) .domfail) ∧
      ∀ (a : PReg) (q : Point), answers P (.lcPenc a) (.penc id q) .domfail

/-- (LAW1) of 46 R241 for the realisation of R255 and R256 (log 11): the points of every curve of R255 are a commutative
group under the model's addition and negation. -/
def Obligations.CurveGroupLaws : Prop := ∀ c : Curve, GoodCurve c → GroupLaws c

/-- The selector property (42 R192) of the library's realisation on a curve of R255 (PRESUMED, log 11; general knowledge in
the spec): for one x, different parities never give the same point, and a point with y not 0 has its negative under the
other parity. -/
def Obligations.SelectorProperty : Prop :=
  ∀ (P : Params) (id : Byte) (c : Curve) (x : Int), findCurve P.table id = some c → GoodCurve c →
    (∀ (q : Point) (v w : BitVec 1), libPdec P id x v = .ok (.point q) → libPdec P id x w = .ok (.point q) → v = w) ∧
    ∀ (a b : Nat) (v w : BitVec 1), libPdec P id x v = .ok (.point (.aff a b)) → b ≠ 0 → v ≠ w →
      libPdec P id x w = .ok (.point (negPoint c (.aff a b)))

/-! ### Invariants: every step, from every state that meets them -/

/-- The invariant of the machine holds at reset, with magnitudes that fit, and with points that fit for every parameters
whose curve table does. -/
def Obligations.ResetInv : Prop :=
  Inv State.reset ∧ MagnitudesFit State.reset ∧
    ∀ P : Params, TableFits P → PointsFit { State.reset with lib := { State.reset.lib with params := P } }

/-- Every step keeps the invariant of the machine: valid bits follow PHASE, lengths and buffers agree, the call in flight is
the one PHASE and LCD name, errors are of 60 R272, memory is canonical. -/
def Obligations.StepKeepsInv : Prop := ∀ s t : State, Inv s → step s = .next t → Inv t

/-- Every step keeps the buffers in their canonical form, from any state: indexes strictly rising (log 27). -/
def Obligations.MemoryCanonical : Prop :=
  ∀ s t : State, s.seq.mem.wf = true → step s = .next t → t.seq.mem.wf = true

/-- No write overflows a B register (10_state R42): every step keeps all integers below 2^BW in magnitude. For
LC_BNINV with m < 2 the bound is the model's choice (log 15). -/
def Obligations.StepKeepsMagnitudes : Prop :=
  ∀ s t : State, MagnitudesFit s → step s = .next t → MagnitudesFit t

/-- No write overflows a P register (00_scope R17, 10_state R43): every step keeps all points, held and in flight, at INF or
coordinates below p < 2^(8·L), L <= LMAX. The curve table, before the step and after it, is premised to give p and G in range
(46 R244; log 24, 36). -/
def Obligations.StepKeepsPoints : Prop :=
  ∀ s t : State, Inv s → PointsFit s → TableFits t.lib.params → step s = .next t → PointsFit t

/-- No step from a state of the invariant meets a model fault: no invalid read (10_state R33), no read past a valid length
(20_memory R82), no reserved PHASE (30_encoding R122). It is refused only at IDLE, for a request at the head of the channel
that is no RECOVER record (R112, 60 R285). -/
def Obligations.StepNeverStops : Prop :=
  (∀ (s : State) (f : Fault), Inv s → step s ≠ .fault f) ∧
    ∀ (s : State) (r : Refusal), Inv s → step s = .refused r →
      s.seq.phase = 0x00 ∧ ∃ q rest, s.host.reqs = q :: rest ∧ ∀ i, decode (.req q.bytes) ≠ .ok i

/-- Between calls no register holds a value (10_state R30): in every state of the invariant with PHASE = IDLE, SEQ's
registers are those of reset, LCD aside. -/
def Obligations.IdleHoldsNothing : Prop :=
  ∀ s : State, Inv s → s.seq.phase = 0x00 → s.seq = rested s.seq ∧ s.chan = .idle

/-- The whole of ECREC's control flow, with its causes (10_state R35, 30_encoding R121): a step leaves PHASE; or takes a request
at IDLE; or runs to its end the micro-op in PHASE, which goes to the next; or takes that micro-op's failure exit; or has its
response accepted by the host, which ends the call. -/
def Obligations.PhaseMoves : Prop :=
  ∀ s t : State, Inv s → s.host.rst = false → step s = .next t →
    t.seq.phase = s.seq.phase ∨
      (s.seq.phase = 0x00 ∧ t.seq.phase = 0x01 ∧ ∃ r rest, s.host.reqs = r :: rest ∧ t.host.reqs = rest) ∨
      (1 ≤ s.seq.phase.toNat ∧ s.seq.phase.toNat ≤ 0x12 ∧ t.seq.phase.toNat = s.seq.phase.toNat + 1 ∧
        ∃ i, decode (.uop s.seq.phase) = .ok i ∧ isMicroOp i = true ∧ exec i s = .next t) ∨
      (1 ≤ s.seq.phase.toNat ∧ s.seq.phase.toNat ≤ 0x11 ∧ t.seq.phase = 0x14 ∧ ∃ k, t = failed k s.seq.phase s) ∨
      ((s.seq.phase = 0x13 ∨ s.seq.phase = 0x14) ∧ t.seq.phase = 0x00 ∧
        ∃ rsp, response s = some rsp ∧ t.host.rsps = s.host.rsps ++ [rsp])

/-- A failure records the micro-op at which it originated and a kind that micro-op can raise (60 R272, R273), drops every
register but the latch (R280), and issues no call. -/
def Obligations.FailureRecords : Prop :=
  ∀ s t : State, Inv s → step s = .next t → s.seq.phase ≠ 0x14 → t.seq.phase = 0x14 →
    mayRaise s.seq.phase t.seq.errkind = true ∧ t = failed t.seq.errkind s.seq.phase s

/-- What a call's steps leave alone. The parameters are fixed (10_state R48), but that the curve table may change between calls
(70 R303): never while a call is in progress, nor by a request's acceptance. The request latch is read-only during a call
(R45), and a request presented during a call is neither lost nor seen (40 R150). The second request of RECOVER2 comes onto the
channel when the response to the first is accepted, and never before (30_encoding R132). The model's own choices are that a
table changes only when a call ends or is abandoned (log 36), that between calls the sizes and options never change (log 2),
and that nothing else is added to the channel, since arrivals from outside are left out (log 7). -/
def Obligations.CallInputsStay : Prop :=
  ∀ s t : State, step s = .next t →
    (t.lib.params.lmax = s.lib.params.lmax ∧ t.lib.params.hexcase = s.lib.params.hexcase ∧
      t.lib.params.decompOor = s.lib.params.decompOor) ∧
    ((s.seq.phase = 0x00 → s.host.follow = none) → t.seq.phase = 0x00 → t.host.follow = none) ∧
    (Inv s → s.host.rst = false →
      (s.seq.phase = 0x00 → t.lib = s.lib ∧ ((s.host.reqs = [] ∧ t = s) ∨
        ∃ r rest, s.host.reqs = r :: rest ∧ t.seq.phase = 0x01 ∧
          t.host = { s.host with reqs := rest, follow := r.follow })) ∧
      (s.seq.phase ≠ 0x00 → t.seq.phase = 0x00 →
        t.host.reqs = s.host.reqs ++ (s.host.follow.toList.map fun bytes => ⟨bytes, none⟩)) ∧
      (s.seq.phase ≠ 0x00 → t.seq.phase ≠ 0x00 →
        t.lib.params = s.lib.params ∧ t.host.reqs = s.host.reqs ∧ t.host.follow = s.host.follow ∧
        t.seq.recid = s.seq.recid ∧ t.seq.curveid = s.seq.curveid ∧ t.seq.dlen = s.seq.dlen ∧
        t.seq.rlen = s.seq.rlen ∧ t.seq.slen = s.seq.slen ∧ t.seq.mem.digest = s.seq.mem.digest ∧
        t.seq.mem.rhex = s.seq.mem.rhex ∧ t.seq.mem.shex = s.seq.mem.shex))

/-! ### Whole calls -/

/-- Every call in progress comes to DONE or FAIL (60 R270), given that LIB answers (40 R159, "a claim that every RECOVER call
ends rests on this assumption"): where at least 14 of LIB's coming draws are answers, as many as a call has library calls,
within 32 steps and one for each draw. The count of steps is the model's (log 1). -/
def Obligations.CallEnds : Prop :=
  ∀ s : State, Inv s → s.host.rst = false → s.seq.phase ≠ 0x00 → 14 ≤ s.lib.ready.count true →
    ∃ (k : Nat) (t : State), k ≤ 32 + s.lib.ready.length ∧ Sys2Proof.core.run k s = .next t ∧
      (t.seq.phase = 0x13 ∨ t.seq.phase = 0x14)

/-- What a RECOVER call computes (40 R152), with the first failure in PHASE order (60 R275): from IDLE, with a request at the
head of the channel, the coming draws of RESFAIL given by `f`, and LIB answering (40 R159), the response on the channel is that
of the one function `recovered`, however long LIB takes over each call; a success has made exactly 14 library calls (70 R320).
The bound on the steps (log 1) and the library's realisation (log 11) are the model's. -/
def Obligations.CallComputesRecover : Prop :=
  ∀ (s : State) (recid curveid : Byte) (digest rhex shex : List Byte) (follow : Option (List Byte)) (rest : List Request)
    (f : PhaseCode → Bool) (more : List Bool),
    Inv s → s.host.rst = false → s.seq.phase = 0x00 →
    digest.length < 65536 → rhex.length < 256 → shex.length < 256 →
    s.host.reqs = ⟨reqBytes recid curveid digest rhex shex, follow⟩ :: rest →
    s.lib.fails = callCodes.map f ++ more → 14 ≤ s.lib.ready.count true →
    ∃ (k : Nat) (t : State), k ≤ 33 + s.lib.ready.length ∧ Sys2Proof.core.run k s = .next t ∧
      response t = some (responseOf (recovered s.lib.params f recid curveid digest rhex shex)) ∧
      ∀ payload, recovered s.lib.params f recid curveid digest rhex shex = .ok payload → t.lib.fails = more

/-- Purity of the call (40 R153): two calls with the same request and curve table, on machines of the same LMAX and DECOMP_OOR
(10_state R48), in which the same library calls answer RESFAIL, give the same response, whatever else the two machines hold,
and however long the library of each takes, if it answers (R159). Each machine has its own number of steps (log 1). -/
def Obligations.CallPurity : Prop :=
  ∀ (s u : State) (q q' : Request) (i : Instr) (f : PhaseCode → Bool) (more more' : List Bool),
    Inv s → Inv u → s.host.rst = false → u.host.rst = false →
    s.seq.phase = 0x00 → u.seq.phase = 0x00 → s.host.reqs.head? = some q → u.host.reqs.head? = some q' →
    q'.bytes = q.bytes → decode (.req q.bytes) = .ok i → s.lib.params.table = u.lib.params.table →
    s.lib.params.lmax = u.lib.params.lmax → s.lib.params.decompOor = u.lib.params.decompOor →
    s.lib.fails = callCodes.map f ++ more → u.lib.fails = callCodes.map f ++ more' →
    14 ≤ s.lib.ready.count true → 14 ≤ u.lib.ready.count true →
    ∃ (k l : Nat) (s' u' : State) (rsp : List Byte), Sys2Proof.core.run k s = .next s' ∧
      Sys2Proof.core.run l u = .next u' ∧ response s' = some rsp ∧ response u' = some rsp

/-- Only the left-most L bytes of the digest count (41 R175, 20_memory R84): a digest and its first L bytes recover the same,
whatever calls answer RESFAIL. -/
def Obligations.DigestTruncates : Prop :=
  ∀ (P : Params) (f : PhaseCode → Bool) (recid curveid : Byte) (digest rhex shex : List Byte) (c : Curve),
    findCurve P.table curveid = some c →
    recovered P f recid curveid digest rhex shex = recovered P f recid curveid (digest.take c.l) rhex shex

/-- The recovery is right (44 R217, whose signing equations the spec marks as general knowledge; the curve is of the library's
realisation, PRESUMED, log 11): on a lawful curve, for a signature (r, s) of a digest made with the private key d and
the nonce k, r the X-coordinate of k·G and below n, s = k⁻¹·(e + r·d) mod n, and the id of the parity of k·G's Y-coordinate,
recovery gives X ‖ Y of d·G, in L bytes each, when no call answers RESFAIL. -/
def Obligations.SignerRecovers : Prop :=
  ∀ (P : Params) (recid curveid : Byte) (c : Curve) (digest rhex shex : List Byte) (v : BitVec 1)
    (d k kinv e r s y X Y : Nat),
    findCurve P.table curveid = some c → LawfulCurve c → 1 ≤ c.l → c.l ≤ P.lmax → c.n < 2 ^ (8 * P.lmax + 1) →
    1 ≤ d → d < c.n → 1 ≤ k → k < c.n → k * kinv % c.n = 1 →
    mulPoint c k c.g = .aff r y → r < c.n → r ≠ 0 →
    e = positional 256 ((digest.take c.l).map BitVec.toNat) → s = kinv * (e + r * d) % c.n → s ≠ 0 →
    libBnhex rhex = .ok (.int r) → libBnhex shex = .ok (.int s) →
    canonicalId recid = some v → v.toNat = y % 2 → mulPoint c d c.g = .aff X Y →
    recovered P (fun _ => false) recid curveid digest rhex shex = .ok (i2osp X c.l ++ i2osp Y c.l)

/-- The hexadecimal view of a result (30_encoding R116): of the bytes of RESULT in order, two digits each in the case of
HEXCASE, leading zeros kept; so the digits write the big-endian integer of the bytes. -/
def Obligations.HexView : Prop :=
  ∀ (s : State) (n : Byte) (bytes : List Byte),
    s.seq.rlenb = some n → readCells s.seq.mem.result 0 n.toNat = some bytes →
    ∃ (view : List Byte) (ds : List Nat), resultView s = .ok view ∧ view.length = 2 * n.toNat ∧
      (∀ x ∈ view, (0x30 ≤ x.toNat ∧ x.toNat ≤ 0x39) ∨
        (s.lib.params.hexcase = .lower ∧ 0x61 ≤ x.toNat ∧ x.toNat ≤ 0x66) ∨
        (s.lib.params.hexcase = .upper ∧ 0x41 ≤ x.toNat ∧ x.toNat ≤ 0x46)) ∧
      view.map digitOf = ds.map some ∧ positional 16 ds = positional 256 (bytes.map BitVec.toNat)
end

