-- ==== Sys2Proof/Laws/State.lean ====
section
/-! SUPPORT. What each named update of the state leaves in each field: one lemma per field per update, true by rfl, so that
no proof unfolds a record update. -/

namespace Sys2Proof.Machine

/-! ### Seq.writeB -/

@[simp] theorem Seq.writeB_phase (q : Seq) (r : BReg) (x : Int) : (q.writeB r x).phase = q.phase := rfl
@[simp] theorem Seq.writeB_callpend (q : Seq) (r : BReg) (x : Int) : (q.writeB r x).callpend = q.callpend := rfl
@[simp] theorem Seq.writeB_lcd (q : Seq) (r : BReg) (x : Int) : (q.writeB r x).lcd = q.lcd := rfl
@[simp] theorem Seq.writeB_errkind (q : Seq) (r : BReg) (x : Int) : (q.writeB r x).errkind = q.errkind := rfl
@[simp] theorem Seq.writeB_errphase (q : Seq) (r : BReg) (x : Int) : (q.writeB r x).errphase = q.errphase := rfl
@[simp] theorem Seq.writeB_v (q : Seq) (r : BReg) (x : Int) : (q.writeB r x).v = q.v := rfl
@[simp] theorem Seq.writeB_inff (q : Seq) (r : BReg) (x : Int) : (q.writeB r x).inff = q.inff := rfl
@[simp] theorem Seq.writeB_deff (q : Seq) (r : BReg) (x : Int) : (q.writeB r x).deff = q.deff := rfl
@[simp] theorem Seq.writeB_rlenb (q : Seq) (r : BReg) (x : Int) : (q.writeB r x).rlenb = q.rlenb := rfl
@[simp] theorem Seq.writeB_enclen (q : Seq) (r : BReg) (x : Int) : (q.writeB r x).enclen = q.enclen := rfl
@[simp] theorem Seq.writeB_cpL (q : Seq) (r : BReg) (x : Int) : (q.writeB r x).cpL = q.cpL := rfl
@[simp] theorem Seq.writeB_b (q : Seq) (r : BReg) (x : Int) : (q.writeB r x).b = q.b.set r x := rfl
@[simp] theorem Seq.writeB_p (q : Seq) (r : BReg) (x : Int) : (q.writeB r x).p = q.p := rfl
@[simp] theorem Seq.writeB_recid (q : Seq) (r : BReg) (x : Int) : (q.writeB r x).recid = q.recid := rfl
@[simp] theorem Seq.writeB_curveid (q : Seq) (r : BReg) (x : Int) : (q.writeB r x).curveid = q.curveid := rfl
@[simp] theorem Seq.writeB_dlen (q : Seq) (r : BReg) (x : Int) : (q.writeB r x).dlen = q.dlen := rfl
@[simp] theorem Seq.writeB_rlen (q : Seq) (r : BReg) (x : Int) : (q.writeB r x).rlen = q.rlen := rfl
@[simp] theorem Seq.writeB_slen (q : Seq) (r : BReg) (x : Int) : (q.writeB r x).slen = q.slen := rfl
@[simp] theorem Seq.writeB_mem (q : Seq) (r : BReg) (x : Int) : (q.writeB r x).mem = q.mem := rfl

/-! ### Seq.writeP -/

@[simp] theorem Seq.writeP_phase (q : Seq) (r : PReg) (x : Point) : (q.writeP r x).phase = q.phase := rfl
@[simp] theorem Seq.writeP_callpend (q : Seq) (r : PReg) (x : Point) : (q.writeP r x).callpend = q.callpend := rfl
@[simp] theorem Seq.writeP_lcd (q : Seq) (r : PReg) (x : Point) : (q.writeP r x).lcd = q.lcd := rfl
@[simp] theorem Seq.writeP_errkind (q : Seq) (r : PReg) (x : Point) : (q.writeP r x).errkind = q.errkind := rfl
@[simp] theorem Seq.writeP_errphase (q : Seq) (r : PReg) (x : Point) : (q.writeP r x).errphase = q.errphase := rfl
@[simp] theorem Seq.writeP_v (q : Seq) (r : PReg) (x : Point) : (q.writeP r x).v = q.v := rfl
@[simp] theorem Seq.writeP_inff (q : Seq) (r : PReg) (x : Point) : (q.writeP r x).inff = q.inff := rfl
@[simp] theorem Seq.writeP_deff (q : Seq) (r : PReg) (x : Point) : (q.writeP r x).deff = q.deff := rfl
@[simp] theorem Seq.writeP_rlenb (q : Seq) (r : PReg) (x : Point) : (q.writeP r x).rlenb = q.rlenb := rfl
@[simp] theorem Seq.writeP_enclen (q : Seq) (r : PReg) (x : Point) : (q.writeP r x).enclen = q.enclen := rfl
@[simp] theorem Seq.writeP_cpL (q : Seq) (r : PReg) (x : Point) : (q.writeP r x).cpL = q.cpL := rfl
@[simp] theorem Seq.writeP_b (q : Seq) (r : PReg) (x : Point) : (q.writeP r x).b = q.b := rfl
@[simp] theorem Seq.writeP_p (q : Seq) (r : PReg) (x : Point) : (q.writeP r x).p = q.p.set r x := rfl
@[simp] theorem Seq.writeP_recid (q : Seq) (r : PReg) (x : Point) : (q.writeP r x).recid = q.recid := rfl
@[simp] theorem Seq.writeP_curveid (q : Seq) (r : PReg) (x : Point) : (q.writeP r x).curveid = q.curveid := rfl
@[simp] theorem Seq.writeP_dlen (q : Seq) (r : PReg) (x : Point) : (q.writeP r x).dlen = q.dlen := rfl
@[simp] theorem Seq.writeP_rlen (q : Seq) (r : PReg) (x : Point) : (q.writeP r x).rlen = q.rlen := rfl
@[simp] theorem Seq.writeP_slen (q : Seq) (r : PReg) (x : Point) : (q.writeP r x).slen = q.slen := rfl
@[simp] theorem Seq.writeP_mem (q : Seq) (r : PReg) (x : Point) : (q.writeP r x).mem = q.mem := rfl

/-! ### Seq.next -/

@[simp] theorem Seq.next_phase (q : Seq) (c : PhaseCode) : (q.next c).phase = c + 1 := rfl
@[simp] theorem Seq.next_callpend (q : Seq) (c : PhaseCode) : (q.next c).callpend = q.callpend := rfl
@[simp] theorem Seq.next_lcd (q : Seq) (c : PhaseCode) : (q.next c).lcd = q.lcd := rfl
@[simp] theorem Seq.next_errkind (q : Seq) (c : PhaseCode) : (q.next c).errkind = q.errkind := rfl
@[simp] theorem Seq.next_errphase (q : Seq) (c : PhaseCode) : (q.next c).errphase = q.errphase := rfl
@[simp] theorem Seq.next_v (q : Seq) (c : PhaseCode) : (q.next c).v = q.v := rfl
@[simp] theorem Seq.next_inff (q : Seq) (c : PhaseCode) : (q.next c).inff = q.inff := rfl
@[simp] theorem Seq.next_deff (q : Seq) (c : PhaseCode) : (q.next c).deff = q.deff := rfl
@[simp] theorem Seq.next_rlenb (q : Seq) (c : PhaseCode) : (q.next c).rlenb = q.rlenb := rfl
@[simp] theorem Seq.next_enclen (q : Seq) (c : PhaseCode) : (q.next c).enclen = q.enclen := rfl
@[simp] theorem Seq.next_cpL (q : Seq) (c : PhaseCode) : (q.next c).cpL = q.cpL := rfl
@[simp] theorem Seq.next_b (q : Seq) (c : PhaseCode) : (q.next c).b = q.b := rfl
@[simp] theorem Seq.next_p (q : Seq) (c : PhaseCode) : (q.next c).p = q.p := rfl
@[simp] theorem Seq.next_recid (q : Seq) (c : PhaseCode) : (q.next c).recid = q.recid := rfl
@[simp] theorem Seq.next_curveid (q : Seq) (c : PhaseCode) : (q.next c).curveid = q.curveid := rfl
@[simp] theorem Seq.next_dlen (q : Seq) (c : PhaseCode) : (q.next c).dlen = q.dlen := rfl
@[simp] theorem Seq.next_rlen (q : Seq) (c : PhaseCode) : (q.next c).rlen = q.rlen := rfl
@[simp] theorem Seq.next_slen (q : Seq) (c : PhaseCode) : (q.next c).slen = q.slen := rfl
@[simp] theorem Seq.next_mem (q : Seq) (c : PhaseCode) : (q.next c).mem = q.mem := rfl

/-! ### Seq.dropData -/

@[simp] theorem Seq.dropData_phase (q : Seq) : (q.dropData).phase = q.phase := rfl
@[simp] theorem Seq.dropData_callpend (q : Seq) : (q.dropData).callpend = q.callpend := rfl
@[simp] theorem Seq.dropData_lcd (q : Seq) : (q.dropData).lcd = q.lcd := rfl
@[simp] theorem Seq.dropData_errkind (q : Seq) : (q.dropData).errkind = q.errkind := rfl
@[simp] theorem Seq.dropData_errphase (q : Seq) : (q.dropData).errphase = q.errphase := rfl
@[simp] theorem Seq.dropData_v (q : Seq) : (q.dropData).v = none := rfl
@[simp] theorem Seq.dropData_inff (q : Seq) : (q.dropData).inff = none := rfl
@[simp] theorem Seq.dropData_deff (q : Seq) : (q.dropData).deff = none := rfl
@[simp] theorem Seq.dropData_rlenb (q : Seq) : (q.dropData).rlenb = none := rfl
@[simp] theorem Seq.dropData_enclen (q : Seq) : (q.dropData).enclen = none := rfl
@[simp] theorem Seq.dropData_cpL (q : Seq) : (q.dropData).cpL = none := rfl
@[simp] theorem Seq.dropData_b (q : Seq) : (q.dropData).b = BFile.reset := rfl
@[simp] theorem Seq.dropData_p (q : Seq) : (q.dropData).p = PFile.reset := rfl
@[simp] theorem Seq.dropData_recid (q : Seq) : (q.dropData).recid = q.recid := rfl
@[simp] theorem Seq.dropData_curveid (q : Seq) : (q.dropData).curveid = q.curveid := rfl
@[simp] theorem Seq.dropData_dlen (q : Seq) : (q.dropData).dlen = q.dlen := rfl
@[simp] theorem Seq.dropData_rlen (q : Seq) : (q.dropData).rlen = q.rlen := rfl
@[simp] theorem Seq.dropData_slen (q : Seq) : (q.dropData).slen = q.slen := rfl
@[simp] theorem Seq.dropData_mem (q : Seq) : (q.dropData).mem = { q.mem with encbuf := [], result := [] } := rfl

/-! ### Seq.dropLatch -/

@[simp] theorem Seq.dropLatch_phase (q : Seq) : (q.dropLatch).phase = q.phase := rfl
@[simp] theorem Seq.dropLatch_callpend (q : Seq) : (q.dropLatch).callpend = q.callpend := rfl
@[simp] theorem Seq.dropLatch_lcd (q : Seq) : (q.dropLatch).lcd = q.lcd := rfl
@[simp] theorem Seq.dropLatch_errkind (q : Seq) : (q.dropLatch).errkind = q.errkind := rfl
@[simp] theorem Seq.dropLatch_errphase (q : Seq) : (q.dropLatch).errphase = q.errphase := rfl
@[simp] theorem Seq.dropLatch_v (q : Seq) : (q.dropLatch).v = q.v := rfl
@[simp] theorem Seq.dropLatch_inff (q : Seq) : (q.dropLatch).inff = q.inff := rfl
@[simp] theorem Seq.dropLatch_deff (q : Seq) : (q.dropLatch).deff = q.deff := rfl
@[simp] theorem Seq.dropLatch_rlenb (q : Seq) : (q.dropLatch).rlenb = q.rlenb := rfl
@[simp] theorem Seq.dropLatch_enclen (q : Seq) : (q.dropLatch).enclen = q.enclen := rfl
@[simp] theorem Seq.dropLatch_cpL (q : Seq) : (q.dropLatch).cpL = q.cpL := rfl
@[simp] theorem Seq.dropLatch_b (q : Seq) : (q.dropLatch).b = q.b := rfl
@[simp] theorem Seq.dropLatch_p (q : Seq) : (q.dropLatch).p = q.p := rfl
@[simp] theorem Seq.dropLatch_recid (q : Seq) : (q.dropLatch).recid = none := rfl
@[simp] theorem Seq.dropLatch_curveid (q : Seq) : (q.dropLatch).curveid = none := rfl
@[simp] theorem Seq.dropLatch_dlen (q : Seq) : (q.dropLatch).dlen = none := rfl
@[simp] theorem Seq.dropLatch_rlen (q : Seq) : (q.dropLatch).rlen = none := rfl
@[simp] theorem Seq.dropLatch_slen (q : Seq) : (q.dropLatch).slen = none := rfl
@[simp] theorem Seq.dropLatch_mem (q : Seq) : (q.dropLatch).mem = { q.mem with digest := [], rhex := [], shex := [] } := rfl

/-! ### Seq.failExit -/

@[simp] theorem Seq.failExit_phase (q : Seq) (k : ErrKind) (c : PhaseCode) : (q.failExit k c).phase = 0x14 := rfl
@[simp] theorem Seq.failExit_callpend (q : Seq) (k : ErrKind) (c : PhaseCode) : (q.failExit k c).callpend = false := rfl
@[simp] theorem Seq.failExit_lcd (q : Seq) (k : ErrKind) (c : PhaseCode) : (q.failExit k c).lcd = q.lcd := rfl
@[simp] theorem Seq.failExit_errkind (q : Seq) (k : ErrKind) (c : PhaseCode) : (q.failExit k c).errkind = k.code := rfl
@[simp] theorem Seq.failExit_errphase (q : Seq) (k : ErrKind) (c : PhaseCode) : (q.failExit k c).errphase = c := rfl
@[simp] theorem Seq.failExit_v (q : Seq) (k : ErrKind) (c : PhaseCode) : (q.failExit k c).v = none := rfl
@[simp] theorem Seq.failExit_inff (q : Seq) (k : ErrKind) (c : PhaseCode) : (q.failExit k c).inff = none := rfl
@[simp] theorem Seq.failExit_deff (q : Seq) (k : ErrKind) (c : PhaseCode) : (q.failExit k c).deff = none := rfl
@[simp] theorem Seq.failExit_rlenb (q : Seq) (k : ErrKind) (c : PhaseCode) : (q.failExit k c).rlenb = none := rfl
@[simp] theorem Seq.failExit_enclen (q : Seq) (k : ErrKind) (c : PhaseCode) : (q.failExit k c).enclen = none := rfl
@[simp] theorem Seq.failExit_cpL (q : Seq) (k : ErrKind) (c : PhaseCode) : (q.failExit k c).cpL = none := rfl
@[simp] theorem Seq.failExit_b (q : Seq) (k : ErrKind) (c : PhaseCode) : (q.failExit k c).b = BFile.reset := rfl
@[simp] theorem Seq.failExit_p (q : Seq) (k : ErrKind) (c : PhaseCode) : (q.failExit k c).p = PFile.reset := rfl
@[simp] theorem Seq.failExit_recid (q : Seq) (k : ErrKind) (c : PhaseCode) : (q.failExit k c).recid = q.recid := rfl
@[simp] theorem Seq.failExit_curveid (q : Seq) (k : ErrKind) (c : PhaseCode) : (q.failExit k c).curveid = q.curveid := rfl
@[simp] theorem Seq.failExit_dlen (q : Seq) (k : ErrKind) (c : PhaseCode) : (q.failExit k c).dlen = q.dlen := rfl
@[simp] theorem Seq.failExit_rlen (q : Seq) (k : ErrKind) (c : PhaseCode) : (q.failExit k c).rlen = q.rlen := rfl
@[simp] theorem Seq.failExit_slen (q : Seq) (k : ErrKind) (c : PhaseCode) : (q.failExit k c).slen = q.slen := rfl
@[simp] theorem Seq.failExit_mem (q : Seq) (k : ErrKind) (c : PhaseCode) : (q.failExit k c).mem = { q.mem with encbuf := [], result := [] } := rfl

/-! ### Seq.rest -/

@[simp] theorem Seq.rest_phase (q : Seq) : (q.rest).phase = 0x00 := rfl
@[simp] theorem Seq.rest_callpend (q : Seq) : (q.rest).callpend = false := rfl
@[simp] theorem Seq.rest_lcd (q : Seq) : (q.rest).lcd = q.lcd := rfl
@[simp] theorem Seq.rest_errkind (q : Seq) : (q.rest).errkind = 0 := rfl
@[simp] theorem Seq.rest_errphase (q : Seq) : (q.rest).errphase = 0x00 := rfl
@[simp] theorem Seq.rest_v (q : Seq) : (q.rest).v = none := rfl
@[simp] theorem Seq.rest_inff (q : Seq) : (q.rest).inff = none := rfl
@[simp] theorem Seq.rest_deff (q : Seq) : (q.rest).deff = none := rfl
@[simp] theorem Seq.rest_rlenb (q : Seq) : (q.rest).rlenb = none := rfl
@[simp] theorem Seq.rest_enclen (q : Seq) : (q.rest).enclen = none := rfl
@[simp] theorem Seq.rest_cpL (q : Seq) : (q.rest).cpL = none := rfl
@[simp] theorem Seq.rest_b (q : Seq) : (q.rest).b = BFile.reset := rfl
@[simp] theorem Seq.rest_p (q : Seq) : (q.rest).p = PFile.reset := rfl
@[simp] theorem Seq.rest_recid (q : Seq) : (q.rest).recid = none := rfl
@[simp] theorem Seq.rest_curveid (q : Seq) : (q.rest).curveid = none := rfl
@[simp] theorem Seq.rest_dlen (q : Seq) : (q.rest).dlen = none := rfl
@[simp] theorem Seq.rest_rlen (q : Seq) : (q.rest).rlen = none := rfl
@[simp] theorem Seq.rest_slen (q : Seq) : (q.rest).slen = none := rfl
@[simp] theorem Seq.rest_mem (q : Seq) : (q.rest).mem = Memory.reset := rfl

/-! ### raise -/

@[simp] theorem raise_seq (k : ErrKind) (c : PhaseCode) (s : State) : (raise k c s).seq = s.seq.failExit k c := rfl
@[simp] theorem raise_chan (k : ErrKind) (c : PhaseCode) (s : State) : (raise k c s).chan = .idle := rfl
@[simp] theorem raise_host (k : ErrKind) (c : PhaseCode) (s : State) : (raise k c s).host = s.host := rfl
@[simp] theorem raise_lib (k : ErrKind) (c : PhaseCode) (s : State) : (raise k c s).lib = s.lib := rfl

/-! ### advance -/

@[simp] theorem advance_seq (c : PhaseCode) (q : Seq) (s : State) : (advance c q s).seq = q.next c := rfl
@[simp] theorem advance_chan (c : PhaseCode) (q : Seq) (s : State) : (advance c q s).chan = s.chan := rfl
@[simp] theorem advance_host (c : PhaseCode) (q : Seq) (s : State) : (advance c q s).host = s.host := rfl
@[simp] theorem advance_lib (c : PhaseCode) (q : Seq) (s : State) : (advance c q s).lib = s.lib := rfl

/-! ### complete -/

@[simp] theorem complete_seq (c : PhaseCode) (q : Seq) (s : State) : (complete c q s).seq = { q.next c with callpend := false } := rfl
@[simp] theorem complete_chan (c : PhaseCode) (q : Seq) (s : State) : (complete c q s).chan = .idle := rfl
@[simp] theorem complete_host (c : PhaseCode) (q : Seq) (s : State) : (complete c q s).host = s.host := rfl
@[simp] theorem complete_lib (c : PhaseCode) (q : Seq) (s : State) : (complete c q s).lib = s.lib := rfl

/-! ### sendCall -/

@[simp] theorem sendCall_seq (d : Instr) (m : LMsg) (s : State) : (sendCall d m s).seq = { s.seq with lcd := descriptor d, callpend := true } := rfl
@[simp] theorem sendCall_chan (d : Instr) (m : LMsg) (s : State) : (sendCall d m s).chan = .sent m := rfl
@[simp] theorem sendCall_host (d : Instr) (m : LMsg) (s : State) : (sendCall d m s).host = s.host := rfl
@[simp] theorem sendCall_lib (d : Instr) (m : LMsg) (s : State) : (sendCall d m s).lib = s.lib := rfl

/-! ### answer -/

@[simp] theorem answer_seq (r : LRet) (s : State) : (answer r s).seq = s.seq := rfl
@[simp] theorem answer_chan (r : LRet) (s : State) : (answer r s).chan = .returned (if (drawFail s.lib).1 then .resfail else r) := rfl
@[simp] theorem answer_host (r : LRet) (s : State) : (answer r s).host = s.host := rfl
@[simp] theorem answer_lib (r : LRet) (s : State) : (answer r s).lib = (drawFail s.lib).2 := rfl

/-! ### present -/

@[simp] theorem present_seq (r : Request) (s : State) : (present r s).seq = s.seq := rfl
@[simp] theorem present_chan (r : Request) (s : State) : (present r s).chan = s.chan := rfl
@[simp] theorem present_host (r : Request) (s : State) : (present r s).host = { s.host with reqs := s.host.reqs ++ [r] } := rfl
@[simp] theorem present_lib (r : Request) (s : State) : (present r s).lib = s.lib := rfl

/-! ### took -/

@[simp] theorem HostSide.took_rsps (h : HostSide) (rsp : List Byte) : (h.took rsp).rsps = h.rsps ++ [rsp] := rfl
@[simp] theorem HostSide.took_reqs (h : HostSide) (rsp : List Byte) : (h.took rsp).reqs = h.reqs ++ h.follow.toList.map Request.single := rfl
@[simp] theorem HostSide.took_follow (h : HostSide) (rsp : List Byte) : (h.took rsp).follow = none := rfl
@[simp] theorem HostSide.took_rst (h : HostSide) (rsp : List Byte) : (h.took rsp).rst = h.rst := rfl

/-! ### resetNow -/

@[simp] theorem resetNow_seq (s : State) : (resetNow s).seq = Seq.reset := rfl
@[simp] theorem resetNow_chan (s : State) : (resetNow s).chan = .idle := rfl
@[simp] theorem resetNow_host (s : State) : (resetNow s).host = { s.host with follow := none, rst := false } := rfl
@[simp] theorem resetNow_lib (s : State) : (resetNow s).lib = betweenCalls s.lib := rfl

/-! ### Register files -/

@[simp] theorem BFile.get_set_same (f : BFile) (r : BReg) (x : Int) : (f.set r x).get r = some x := by
  cases r <;> rfl

theorem BFile.get_set_ne (f : BFile) {r r' : BReg} (x : Int) (h : r' ≠ r) : (f.set r x).get r' = f.get r' := by
  cases r <;> cases r' <;> first | rfl | exact absurd rfl h

@[simp] theorem PFile.get_set_same (f : PFile) (r : PReg) (x : Point) : (f.set r x).get r = some x := by
  cases r <;> rfl

theorem PFile.get_set_ne (f : PFile) {r r' : PReg} (x : Point) (h : r' ≠ r) : (f.set r x).get r' = f.get r' := by
  cases r <;> cases r' <;> first | rfl | exact absurd rfl h

@[simp] theorem BFile.get_reset (r : BReg) : BFile.reset.get r = none := by cases r <;> rfl

@[simp] theorem PFile.get_reset (r : PReg) : PFile.reset.get r = none := by cases r <;> rfl

@[simp] theorem Memory.get_set_same (m : Memory) (b : BufSel) (cells : List Host.Cell) :
    (m.set b cells).get b = cells := by cases b <;> rfl

theorem Memory.get_set_ne (m : Memory) {b b' : BufSel} (cells : List Host.Cell) (h : b' ≠ b) :
    (m.set b cells).get b' = m.get b' := by
  cases b <;> cases b' <;> first | rfl | exact absurd rfl h

/-! ### Reads -/

@[simp] theorem must_some {α : Type} (r : RegName) (x : α) : must r (some x) = .ok x := rfl

@[simp] theorem must_none {α : Type} (r : RegName) : must r (none : Option α) = .error (.invalidRead r) := rfl

theorem must_ok {α : Type} {r : RegName} {o : Option α} {x : α} (h : must r o = .ok x) : o = some x := by
  cases o with
  | none => cases h
  | some y => cases h; rfl

@[simp] theorem run_ok (s : State) : run (.ok s) = .next s := rfl

@[simp] theorem run_error (f : Fault) : run (.error f) = .fault f := rfl

/-- What a meaning of this form can answer. -/
theorem run_next {x : Except Fault State} {t : State} (h : run x = .next t) : x = .ok t := by
  cases x with
  | ok s => cases h; rfl
  | error f => cases h

theorem run_fault {x : Except Fault State} {f : Fault} (h : run x = .fault f) : x = .error f := by
  cases x with
  | ok s => cases h
  | error f => cases h; rfl

theorem run_not_refused (x : Except Fault State) (r : Refusal) : run x ≠ .refused r := by
  cases x <;> simp

/-- The failure exit of a rested machine is what `rest` makes of any failure: no data register survives (60 R280). -/
theorem Seq.rest_failExit (q : Seq) (k : ErrKind) (c : PhaseCode) : (q.failExit k c).rest = q.rest := rfl

end Sys2Proof.Machine
end

