-- ==== Sys2Proof/Laws/Buffers.lean ====
section
/-! SUPPORT. The buffers (20_memory R80, R82): a read after a write gives what was written, a write leaves every other index
alone, and every buffer operation keeps the canonical form. -/

namespace Sys2Proof.Machine

/-! ### Cells -/

theorem readCell_append (a b : List Host.Cell) (i : Nat) :
    readCell (a ++ b) i = (readCell a i).or (readCell b i) := by
  induction a with
  | nil => rfl
  | cons c rest ih =>
    obtain ⟨j, x⟩ := c
    by_cases h : j = i <;> simp [readCell, h, ih]

theorem readCell_filter (p : Nat → Bool) (cells : List Host.Cell) (i : Nat) :
    readCell (cells.filter (fun c => p c.1)) i = if p i then readCell cells i else none := by
  induction cells with
  | nil => simp [readCell]
  | cons c rest ih =>
    obtain ⟨j, x⟩ := c
    by_cases hp : p j <;> by_cases h : j = i <;> simp_all [readCell]

theorem readCell_cellsFrom (bytes : List Byte) (i a : Nat) :
    readCell (cellsFrom i bytes) a = if i ≤ a then bytes[a - i]? else none := by
  induction bytes generalizing i with
  | nil => simp [cellsFrom, readCell]
  | cons x rest ih =>
    simp only [cellsFrom, readCell, ih]
    by_cases h : i = a
    · subst h; simp
    · by_cases hle : i ≤ a
      · have : a - i = (a - (i + 1)) + 1 := by omega
        rw [this]
        simp [h, hle, show i + 1 ≤ a by omega]
      · simp [h, hle, show ¬ i + 1 ≤ a by omega]

/-- Every index after a write: the byte written there, else what was there (20_memory R82). -/
theorem readCell_writeCells (cells : List Host.Cell) (i : Nat) (bytes : List Byte) (a : Nat) :
    readCell (writeCells cells i bytes) a =
      if i ≤ a ∧ a < i + bytes.length then bytes[a - i]? else readCell cells a := by
  unfold writeCells
  rw [readCell_append, readCell_append, readCell_filter (fun k => decide (k < i)),
    readCell_filter (fun k => decide (i + bytes.length ≤ k)), readCell_cellsFrom]
  by_cases h1 : i ≤ a
  · by_cases h2 : a < i + bytes.length
    · have : a - i < bytes.length := by omega
      simp [h1, h2, show ¬ a < i by omega, List.getElem?_eq_getElem this]
    · have : bytes[a - i]? = none := List.getElem?_eq_none (by omega)
      simp [h1, h2, this, show ¬ a < i by omega, show i + bytes.length ≤ a by omega]
  · have hn : ¬ i + bytes.length ≤ a := by omega
    simp [h1, hn, show a < i by omega]

theorem readCells_eq_some (cells : List Host.Cell) (i n : Nat) (bytes : List Byte) :
    readCells cells i n = some bytes ↔
      bytes.length = n ∧ ∀ k (h : k < bytes.length), readCell cells (i + k) = some bytes[k] := by
  induction n generalizing i bytes with
  | zero =>
    cases bytes with
    | nil => simp [readCells]
    | cons x rest => simp [readCells]
  | succ n ih =>
    simp only [readCells]
    constructor
    · intro h
      split at h
      · rename_i x rest hx hrest
        cases h
        obtain ⟨hl, hr⟩ := (ih (i + 1) rest).1 hrest
        refine ⟨by simp [hl], fun k hk => ?_⟩
        cases k with
        | zero => simpa using hx
        | succ k =>
          have := hr k (by simpa using hk)
          simpa [Nat.add_assoc, Nat.add_comm 1] using this
      · cases h
    · rintro ⟨hl, hr⟩
      cases bytes with
      | nil => simp at hl
      | cons x rest =>
        have hx : readCell cells i = some x := hr 0 (by simp)
        have hrest : readCells cells (i + 1) n = some rest := by
          refine (ih (i + 1) rest).2 ⟨by simpa using hl, fun k hk => ?_⟩
          have := hr (k + 1) (by simpa using hk)
          simpa [Nat.add_assoc, Nat.add_comm 1] using this
        simp [hx, hrest]

/-- A string of bytes is read back from where it was written. -/
theorem readCells_writeCells (cells : List Host.Cell) (i : Nat) (bytes : List Byte) :
    readCells (writeCells cells i bytes) i bytes.length = some bytes := by
  rw [readCells_eq_some]
  refine ⟨rfl, fun k hk => ?_⟩
  rw [readCell_writeCells]
  simp [show i + k < i + bytes.length by omega, List.getElem?_eq_getElem hk]

/-- Part of a readable stretch is readable. -/
theorem readCells_part {cells : List Host.Cell} {i n j m : Nat} (h : (readCells cells i n).isSome = true)
    (hi : i ≤ j) (hn : j + m ≤ i + n) : (readCells cells j m).isSome = true := by
  obtain ⟨bytes, hb⟩ := Option.isSome_iff_exists.1 h
  obtain ⟨hl, hr⟩ := (readCells_eq_some cells i n bytes).1 hb
  refine Option.isSome_iff_exists.2 ⟨(bytes.drop (j - i)).take m, ?_⟩
  rw [readCells_eq_some]
  refine ⟨by simp; omega, fun k hk => ?_⟩
  simp only [List.length_take, List.length_drop] at hk
  have := hr (j - i + k) (by omega)
  rw [show i + (j - i + k) = j + k by omega] at this
  simpa using this

/-! ### The canonical form -/

theorem rising_iff (cells : List Host.Cell) : rising cells = true ↔ cells.Pairwise (fun c d => c.1 < d.1) := by
  induction cells with
  | nil => simp [rising]
  | cons c rest ih =>
    cases rest with
    | nil => simp [rising]
    | cons d rest =>
      simp only [rising, Bool.and_eq_true, decide_eq_true_eq, ih]
      constructor
      · rintro ⟨h, hp⟩
        refine List.pairwise_cons.2 ⟨fun e he => ?_, hp⟩
        rcases List.mem_cons.1 he with rfl | he
        · exact h
        · exact lt_trans h ((List.pairwise_cons.1 hp).1 e he)
      · intro hp
        exact ⟨(List.pairwise_cons.1 hp).1 d (by simp), (List.pairwise_cons.1 hp).2⟩

theorem cellsFrom_bounds (bytes : List Byte) (i : Nat) :
    ∀ c ∈ cellsFrom i bytes, i ≤ c.1 ∧ c.1 < i + bytes.length := by
  induction bytes generalizing i with
  | nil => simp [cellsFrom]
  | cons x rest ih =>
    intro c hc
    simp only [cellsFrom, List.mem_cons] at hc
    rcases hc with rfl | hc
    · simp
    · have := ih (i + 1) c hc
      simp only [List.length_cons]
      omega

theorem cellsFrom_rising (bytes : List Byte) (i : Nat) :
    (cellsFrom i bytes).Pairwise (fun c d => c.1 < d.1) := by
  induction bytes generalizing i with
  | nil => simp [cellsFrom]
  | cons x rest ih =>
    refine List.pairwise_cons.2 ⟨fun c hc => ?_, ih (i + 1)⟩
    have := cellsFrom_bounds rest (i + 1) c hc
    simp only
    omega

/-- A write keeps a buffer canonical. -/
theorem rising_writeCells {cells : List Host.Cell} (h : rising cells = true) (i : Nat) (bytes : List Byte) :
    rising (writeCells cells i bytes) = true := by
  rw [rising_iff] at h ⊢
  unfold writeCells
  rw [List.pairwise_append, List.pairwise_append]
  refine ⟨⟨h.filter _, cellsFrom_rising bytes i, ?_⟩, h.filter _, ?_⟩
  · intro c hc d hd
    have h1 := (List.mem_filter.1 hc).2
    have h2 := cellsFrom_bounds bytes i d hd
    simp only [decide_eq_true_eq] at h1
    omega
  · intro c hc d hd
    have h2 := (List.mem_filter.1 hd).2
    simp only [decide_eq_true_eq] at h2
    rcases List.mem_append.1 hc with hc | hc
    · have h1 := (List.mem_filter.1 hc).2
      simp only [decide_eq_true_eq] at h1
      omega
    · have := cellsFrom_bounds bytes i c hc
      omega

theorem Memory.wf_iff (m : Memory) : m.wf = true ↔ ∀ b, rising (m.get b) = true := by
  constructor
  · intro h b
    simp only [Memory.wf, Bool.and_eq_true] at h
    cases b <;> simp [Memory.get, h]
  · intro h
    simp only [Memory.wf, Bool.and_eq_true]
    exact ⟨⟨⟨⟨h .digest, h .rhex⟩, h .shex⟩, h .encbuf⟩, h .result⟩

/-- Replacing one buffer by a canonical one keeps the canonical form. -/
theorem Memory.wf_set {m : Memory} (h : m.wf = true) (b : BufSel) {cells : List Host.Cell} (hc : rising cells = true) :
    (m.set b cells).wf = true := by
  rw [Memory.wf_iff] at h ⊢
  intro b'
  by_cases hb : b' = b
  · subst hb; simpa using hc
  · rw [Memory.get_set_ne _ _ hb]; exact h b'

@[simp] theorem Memory.wf_reset : Memory.reset.wf = true := rfl

/-- Every buffer operation keeps the canonical form: MemWrite … -/
theorem Seq.memWrite_wf {q q' : Seq} {lmax i : Nat} {b : BufSel} {bytes : List Byte} (h : q.mem.wf = true)
    (hw : q.memWrite lmax b i bytes = .ok q') : q'.mem.wf = true := by
  unfold Seq.memWrite at hw
  split at hw
  · cases hw
    exact Memory.wf_set h b (rising_writeCells ((Memory.wf_iff _).1 h b) i bytes)
  · cases hw

/-- … the loss of the data registers … -/
theorem Seq.dropData_wf {q : Seq} (h : q.mem.wf = true) : q.dropData.mem.wf = true := by
  simp only [Memory.wf, Bool.and_eq_true] at h
  simp [Memory.wf, rising, h]

/-- … and the failure exit. -/
theorem Seq.failExit_wf {q : Seq} (h : q.mem.wf = true) (k : ErrKind) (c : PhaseCode) :
    (q.failExit k c).mem.wf = true := Seq.dropData_wf h

/-! ### MemRead and MemWrite -/

/-- All that MemWrite can do: within the capacity it stores the bytes, and it writes nothing but that buffer. -/
theorem Seq.memWrite_ok {q q' : Seq} {lmax i : Nat} {b : BufSel} {bytes : List Byte}
    (hw : q.memWrite lmax b i bytes = .ok q') :
    i + bytes.length ≤ capacity lmax b ∧
      q' = { q with mem := q.mem.set b (writeCells (q.mem.get b) i bytes) } := by
  unfold Seq.memWrite at hw
  split at hw
  · rename_i h
    cases hw
    exact ⟨h, rfl⟩
  · cases hw

theorem Seq.memWrite_of_le {q : Seq} {lmax i : Nat} {b : BufSel} {bytes : List Byte}
    (h : i + bytes.length ≤ capacity lmax b) :
    q.memWrite lmax b i bytes = .ok { q with mem := q.mem.set b (writeCells (q.mem.get b) i bytes) } := by
  simp [Seq.memWrite, h]

/-- All that MemRead can do when it succeeds: the stretch is within the valid length, and its cells are the bytes. -/
theorem Seq.memRead_ok {q : Seq} {lmax i n : Nat} {b : BufSel} {bytes : List Byte}
    (hr : q.memRead lmax b i n = .ok bytes) :
    ∃ len, q.validLen lmax b = .ok len ∧ i + n ≤ len ∧ readCells (q.mem.get b) i n = some bytes := by
  unfold Seq.memRead at hr
  cases hv : q.validLen lmax b with
  | error f => rw [hv] at hr; cases hr
  | ok len =>
    rw [hv] at hr
    simp only [bind, Except.bind] at hr
    split at hr
    · rename_i h
      cases hc : readCells (q.mem.get b) i n with
      | none => rw [hc] at hr; cases hr
      | some bs =>
        rw [hc] at hr
        cases hr
        exact ⟨len, rfl, h, rfl⟩
    · cases hr

theorem Seq.memRead_of {q : Seq} {lmax i n len : Nat} {b : BufSel} {bytes : List Byte}
    (hv : q.validLen lmax b = .ok len) (hl : i + n ≤ len) (hc : readCells (q.mem.get b) i n = some bytes) :
    q.memRead lmax b i n = .ok bytes := by
  simp [Seq.memRead, hv, hl, hc, bind, Except.bind]

end Sys2Proof.Machine
end

