-- ==== Sys2Proof/Laws/Ops.lean ====
section
/-! SUPPORT. One lemma for each shared operation that says once all it can do; the proofs cite these and do not unfold the
operations. -/

namespace Sys2Proof.Machine

/-! ### Draws -/

/-- A draw of RESFAIL changes only the draws: the parameters stay. -/
@[simp] theorem drawFail_params (l : LibSide) : (drawFail l).2.params = l.params := by
  unfold drawFail; split <;> rfl

theorem drawFail_scripted {l : LibSide} {b : Bool} {rest : List Bool} (h : l.fails = b :: rest) :
    drawFail l = (b, { l with fails := rest }) := by
  simp [drawFail, h]

theorem drawTake_scripted {h : HostSide} {b : Bool} {rest : List Bool} (hs : h.takes = b :: rest) :
    drawTake h = (b, { h with takes := rest }) := by
  simp [drawTake, hs]

/-- Asking the host changes only its coming answers. -/
theorem drawTake_rest (h : HostSide) : (drawTake h).2.reqs = h.reqs ∧ (drawTake h).2.follow = h.follow ∧
    (drawTake h).2.rsps = h.rsps ∧ (drawTake h).2.rst = h.rst := by
  unfold drawTake; split <;> simp

/-- Asking LIB whether it answers changes only its coming answers to that. -/
theorem drawReady_rest (l : LibSide) : (drawReady l).2.params = l.params ∧ (drawReady l).2.fails = l.fails ∧
    (drawReady l).2.failIx = l.failIx ∧ (drawReady l).2.tables = l.tables ∧ (drawReady l).2.tableIx = l.tableIx := by
  unfold drawReady; split <;> simp

@[simp] theorem drawReady_params (l : LibSide) : (drawReady l).2.params = l.params := (drawReady_rest l).1

theorem drawReady_scripted {l : LibSide} {b : Bool} {rest : List Bool} (h : l.ready = b :: rest) :
    drawReady l = (b, { l with ready := rest }) := by
  simp [drawReady, h]

/-- Of the parameters only the curve table can change between calls (70 R303). -/
theorem betweenCalls_params (l : LibSide) :
    ∃ table, (betweenCalls l).params = { l.params with table := table } := by
  have h : (drawTable l).2.params = l.params := by unfold drawTable; split <;> rfl
  unfold betweenCalls LibSide.withTable
  split
  · exact ⟨_, by rw [h]⟩
  · exact ⟨l.params.table, h⟩

@[simp] theorem betweenCalls_lmax (l : LibSide) : (betweenCalls l).params.lmax = l.params.lmax := by
  obtain ⟨table, h⟩ := betweenCalls_params l
  rw [h]

/-! ### The library call mechanism -/

/-- All that a micro-op with a call can do: issue, wait, or commit (30_encoding R125). -/
theorem callStep_next {issue : Except Fault State} {commit : LRet → Except Fault State} {s t : State}
    (h : callStep issue commit s = .next t) :
    (s.seq.callpend = false ∧ issue = .ok t) ∨ (s.seq.callpend = true ∧ (∀ r, s.chan ≠ .returned r) ∧ t = s) ∨
      ∃ r, s.seq.callpend = true ∧ s.chan = .returned r ∧ commit r = .ok t := by
  unfold callStep at h
  have h := run_next h
  cases hc : s.seq.callpend with
  | false => simp only [hc] at h; exact .inl ⟨rfl, h⟩
  | true =>
    simp only [hc, if_true] at h
    cases hr : s.chan with
    | idle => rw [hr] at h; cases h; exact .inr (.inl ⟨rfl, by simp, rfl⟩)
    | sent m => rw [hr] at h; cases h; exact .inr (.inl ⟨rfl, by simp, rfl⟩)
    | returned r => rw [hr] at h; exact .inr (.inr ⟨r, rfl, rfl, h⟩)

/-- When a micro-op with a call meets a model fault: at its issue or at its commit. -/
theorem callStep_fault {issue : Except Fault State} {commit : LRet → Except Fault State} {s : State} {f : Fault}
    (h : callStep issue commit s = .fault f) :
    (s.seq.callpend = false ∧ issue = .error f) ∨
      ∃ r, s.seq.callpend = true ∧ s.chan = .returned r ∧ commit r = .error f := by
  unfold callStep at h
  have h := run_fault h
  cases hc : s.seq.callpend with
  | false => simp only [hc] at h; exact .inl ⟨rfl, h⟩
  | true =>
    simp only [hc, if_true] at h
    cases hr : s.chan with
    | idle => rw [hr] at h; cases h
    | sent m => rw [hr] at h; cases h
    | returned r => rw [hr] at h; exact .inr ⟨r, rfl, rfl, h⟩

theorem callStep_issue {issue : Except Fault State} {commit : LRet → Except Fault State} {s : State}
    (h : s.seq.callpend = false) : callStep issue commit s = run issue := by
  simp [callStep, h]

theorem callStep_commit {issue : Except Fault State} {commit : LRet → Except Fault State} {s : State} {r : LRet}
    (h : s.seq.callpend = true) (hr : s.chan = .returned r) : callStep issue commit s = run (commit r) := by
  simp [callStep, h, hr]

theorem callStep_wait {issue : Except Fault State} {commit : LRet → Except Fault State} {s : State} {m : LMsg}
    (h : s.seq.callpend = true) (hr : s.chan = .sent m) : callStep issue commit s = .next s := by
  simp [callStep, h, hr]

/-- All that an issue can do: the argument values are there, and they are sent with the descriptor. -/
theorem issue_ok {d : Instr} {s t : State} (h : issue d s = .ok t) :
    ∃ m, gather s d = .ok m ∧ t = sendCall d m s := by
  unfold issue at h
  cases hg : gather s d with
  | error f => rw [hg] at h; cases h
  | ok m => rw [hg] at h; cases h; exact ⟨m, rfl, rfl⟩

theorem issue_of {d : Instr} {s : State} {m : LMsg} (h : gather s d = .ok m) : issue d s = .ok (sendCall d m s) := by
  simp [issue, h, bind, Except.bind]

theorem issue_error {d : Instr} {s : State} {f : Fault} (h : issue d s = .error f) : gather s d = .error f := by
  unfold issue at h
  cases hg : gather s d with
  | error g => rw [hg] at h; cases h; rfl
  | ok m => rw [hg] at h; cases h

/-- All that the commit of an integer call can do. -/
theorem commitInt_ok {c : PhaseCode} {dst : BReg} {k : ErrKind} {s t : State} {r : LRet}
    (h : commitInt c dst k s r = .ok t) :
    (∃ v, r = .ok (.int v) ∧ t = complete c (s.seq.writeB dst v) s) ∨ (r = .domfail ∧ t = raise k c s) ∨
      t = raise .arithmeticFailure c s := by
  cases r with
  | ok v =>
    cases v <;> simp only [commitInt] at h <;> cases h
    exact .inl ⟨_, rfl, rfl⟩
  | domfail => cases h; exact .inr (.inl ⟨rfl, rfl⟩)
  | resfail => cases h; exact .inr (.inr rfl)
  | reserved => cases h; exact .inr (.inr rfl)

/-- All that the commit of a point call can do. -/
theorem commitPoint_ok {c : PhaseCode} {dst : PReg} {k : ErrKind} {s t : State} {r : LRet}
    (h : commitPoint c dst k s r = .ok t) :
    (∃ q, r = .ok (.point q) ∧ t = complete c (s.seq.writeP dst q) s) ∨ (r = .domfail ∧ t = raise k c s) ∨
      t = raise .arithmeticFailure c s := by
  cases r with
  | ok v =>
    cases v <;> simp only [commitPoint] at h <;> cases h
    exact .inl ⟨_, rfl, rfl⟩
  | domfail => cases h; exact .inr (.inl ⟨rfl, rfl⟩)
  | resfail => cases h; exact .inr (.inr rfl)
  | reserved => cases h; exact .inr (.inr rfl)

/-- All that CURVE's commit can do (41 R172). -/
theorem commitCurve_ok {s t : State} {r : LRet} (h : commitCurve s r = .ok t) :
    (∃ p n g l, r = .ok (.curve p n g l) ∧ curveFits s.lib.params.lmax p n l = true ∧
        t = complete Code.curve (writeCurve s.seq p n g l) s) ∨
      t = raise .arithmeticFailure Code.curve s := by
  cases r with
  | ok v =>
    cases v with
    | curve p n g l =>
      simp only [commitCurve] at h
      split at h
      · rename_i hf
        cases h
        exact .inl ⟨p, n, g, l, rfl, hf, rfl⟩
      · cases h; exact .inr rfl
    | int v => cases h
    | point q => cases h
    | bit b => cases h
    | bytes bs => cases h
  | domfail => cases h; exact .inr rfl
  | resfail => cases h; exact .inr rfl
  | reserved => cases h; exact .inr rfl

/-- All that ORDCHK's commit can do (43 R201). -/
theorem commitOrdchk_ok {s t : State} {r : LRet} (h : commitOrdchk s r = .ok t) :
    (∃ f, r = .ok (.bit f) ∧ f ≠ 0 ∧ t = complete Code.ordchk { s.seq with inff := some f } s) ∨
      t = raise .invalidPoint Code.ordchk s ∨ t = raise .arithmeticFailure Code.ordchk s := by
  cases r with
  | ok v =>
    cases v with
    | bit f =>
      simp only [commitOrdchk] at h
      split at h
      · cases h; exact .inr (.inl rfl)
      · rename_i hf
        cases h
        exact .inl ⟨f, rfl, hf, rfl⟩
    | curve p n g l => cases h
    | int v => cases h
    | point q => cases h
    | bytes bs => cases h
  | domfail => cases h; exact .inr (.inr rfl)
  | resfail => cases h; exact .inr (.inr rfl)
  | reserved => cases h; exact .inr (.inr rfl)

/-- All that ENC's commit can do (45 R230). -/
theorem commitEnc_ok {s t : State} {r : LRet} (h : commitEnc s r = .ok t) :
    (∃ bytes l q, r = .ok (.bytes bytes) ∧ s.seq.cpL = some l ∧ bytes.length = 2 * l.toNat + 1 ∧
        s.seq.memWrite s.lib.params.lmax .encbuf 0 bytes = .ok q ∧
        t = complete Code.enc { q with enclen := some (BitVec.ofNat 9 (2 * l.toNat + 1)) } s) ∨
      t = raise .arithmeticFailure Code.enc s := by
  cases r with
  | ok v =>
    cases v with
    | bytes bytes =>
      simp only [commitEnc, commitEncoding] at h
      cases hl : s.seq.cpL with
      | none => rw [hl] at h; cases h
      | some l =>
        rw [hl] at h
        simp only [must_some, bind, Except.bind] at h
        split at h
        · rename_i hlen
          cases hw : s.seq.memWrite s.lib.params.lmax .encbuf 0 bytes with
          | error f => rw [hw] at h; cases h
          | ok q =>
            rw [hw] at h
            cases h
            exact .inl ⟨bytes, l, q, rfl, rfl, hlen, hw, rfl⟩
        · cases h; exact .inr rfl
    | curve p n g l => cases h
    | int v => cases h
    | point q => cases h
    | bit b => cases h
  | domfail => cases h; exact .inr rfl
  | resfail => cases h; exact .inr rfl
  | reserved => cases h; exact .inr rfl

/-- All that a library call can do: it answers the argument values in flight. -/
theorem serve_next {f : LMsg → Option LRet} {s t : State} (h : serve f s = .next t) :
    ∃ m r, s.chan = .sent m ∧ f m = some r ∧ t = answer r s := by
  unfold serve at h
  cases hc : s.chan with
  | idle => rw [hc] at h; cases h
  | returned r => rw [hc] at h; cases h
  | sent m =>
    rw [hc] at h
    cases hf : f m with
    | none => simp only [hf] at h; cases h
    | some r => simp only [hf] at h; cases h; exact ⟨m, r, rfl, hf, rfl⟩

theorem serve_of {f : LMsg → Option LRet} {s : State} {m : LMsg} {r : LRet} (hc : s.chan = .sent m)
    (hf : f m = some r) : serve f s = .next (answer r s) := by
  simp [serve, hc, hf]

/-! ### The host channels -/

/-- All that request acceptance can do: the latch is written, and DIGEST, RHEX, SHEX hold the request's bytes. -/
theorem accept_ok {recid curveid : Byte} {digest rhex shex : List Byte} {s t : State}
    (h : accept recid curveid digest rhex shex s = .ok t) :
    rhex.length ≤ Config.hexcap ∧ shex.length ≤ Config.hexcap ∧
      t = { s with
        chan := .idle
        seq := { s.seq.rest with
          phase := 0x01, recid := some recid, curveid := some curveid
          rlen := some (BitVec.ofNat 8 rhex.length), slen := some (BitVec.ofNat 8 shex.length)
          dlen := some (BitVec.ofNat 16 digest.length)
          mem := { Memory.reset with
            digest := writeCells [] 0 (digest.take (min digest.length s.lib.params.lmax))
            rhex := writeCells [] 0 rhex
            shex := writeCells [] 0 shex } } } := by
  simp only [accept, bind, Except.bind] at h
  split at h
  · cases h
  · rename_i q1 h1
    obtain ⟨-, rfl⟩ := Seq.memWrite_ok h1
    split at h
    · cases h
    · rename_i q2 h2
      obtain ⟨c2, rfl⟩ := Seq.memWrite_ok h2
      split at h
      · cases h
      · rename_i q3 h3
        obtain ⟨c3, rfl⟩ := Seq.memWrite_ok h3
        cases h
        refine ⟨by simpa [capacity] using c2, by simpa [capacity] using c3, ?_⟩
        rfl

/-- Acceptance never fails on a request whose strings fit their length fields (40 R151). -/
theorem accept_succeeds {recid curveid : Byte} {digest rhex shex : List Byte} {s : State}
    (hr : rhex.length ≤ Config.hexcap) (hs : shex.length ≤ Config.hexcap) :
    ∃ t, accept recid curveid digest rhex shex s = .ok t := by
  have c1 : 0 + (digest.take (min digest.length s.lib.params.lmax)).length ≤ capacity s.lib.params.lmax .digest := by
    simp only [List.length_take, capacity]; omega
  simp only [accept, bind, Except.bind]
  rw [Seq.memWrite_of_le c1]
  simp only
  rw [Seq.memWrite_of_le (by simpa [capacity] using hr)]
  simp only
  rw [Seq.memWrite_of_le (by simpa [capacity] using hs)]
  exact ⟨_, rfl⟩

/-- All that the response channel can do: the response is taken and the call ends, or it is held. -/
theorem offer_cases (rsp : List Byte) (s : State) :
    ((drawTake s.host).1 = true ∧ offer rsp s = { s with
        seq := s.seq.rest, chan := .idle, host := (drawTake s.host).2.took rsp, lib := betweenCalls s.lib }) ∨
      ((drawTake s.host).1 = false ∧ offer rsp s = { s with host := (drawTake s.host).2 }) := by
  unfold offer
  cases h : (drawTake s.host).1 <;> simp

/-! ### Fetch and step -/

theorem fetchLcd_next {s : State} {f : Instr × State} (h : fetchLcd s = .next f) :
    decodeLcd s.seq.lcd = .ok f.1 ∧ f.2 = s := by
  unfold fetchLcd at h
  cases hd : decodeLcd s.seq.lcd with
  | error e => rw [hd] at h; cases h
  | ok i => rw [hd] at h; cases h; exact ⟨rfl, rfl⟩

theorem fetchPhase_next {s : State} {f : Instr × State} (h : fetchPhase s = .next f) :
    decodePhase s.seq.phase = .ok f.1 ∧ f.2 = s := by
  unfold fetchPhase at h
  cases hd : decodePhase s.seq.phase with
  | error e => rw [hd] at h; cases h
  | ok i => rw [hd] at h; cases h; exact ⟨rfl, rfl⟩

theorem fetchReq_next {s : State} {f : Instr × State} (h : fetchReq s = .next f) :
    (s.host.reqs = [] ∧ f = (.idle, s)) ∨ ∃ r rest, s.host.reqs = r :: rest ∧ decodeReq r.bytes = .ok f.1 ∧
      f.2 = { s with host := { s.host with reqs := rest, follow := r.follow } } := by
  unfold fetchReq at h
  cases hr : s.host.reqs with
  | nil => rw [hr] at h; cases h; exact .inl ⟨rfl, rfl⟩
  | cons r rest =>
    rw [hr] at h
    cases hd : decodeReq r.bytes with
    | error e => simp only [hd] at h; cases e <;> cases h
    | ok i => simp only [hd] at h; cases h; exact .inr ⟨r, rest, rfl, hd, rfl⟩

/-- All that a fetch can give: LIB's descriptor or the micro-op that waits for LIB, the resting code, the oldest request, or
the micro-op in PHASE. -/
theorem fetch_next {s : State} {f : Instr × State} (h : fetch s = .next f) :
    (callSent s = true ∧ (drawReady s.lib).1 = true ∧ decodeLcd s.seq.lcd = .ok f.1 ∧
        f.2 = { s with lib := (drawReady s.lib).2 }) ∨
      (callSent s = true ∧ (drawReady s.lib).1 = false ∧ decodePhase s.seq.phase = .ok f.1 ∧
        f.2 = { s with lib := (drawReady s.lib).2 }) ∨
      (callSent s = false ∧ s.seq.phase = 0x00 ∧ s.host.reqs = [] ∧ f = (.idle, s)) ∨
      (callSent s = false ∧ s.seq.phase = 0x00 ∧ ∃ r rest, s.host.reqs = r :: rest ∧ decodeReq r.bytes = .ok f.1 ∧
        f.2 = { s with host := { s.host with reqs := rest, follow := r.follow } }) ∨
      (callSent s = false ∧ s.seq.phase ≠ 0x00 ∧ decodePhase s.seq.phase = .ok f.1 ∧ f.2 = s) := by
  unfold fetch at h
  cases hc : callSent s <;> simp only [hc, if_true, Bool.false_eq_true, if_false] at h
  · split at h
    · rename_i hp
      rcases fetchReq_next h with ⟨hr, hf⟩ | hr
      · exact .inr (.inr (.inl ⟨rfl, hp, hr, hf⟩))
      · exact .inr (.inr (.inr (.inl ⟨rfl, hp, hr⟩)))
    · rename_i hp
      exact .inr (.inr (.inr (.inr ⟨rfl, hp, fetchPhase_next h⟩)))
  · cases hd : (drawReady s.lib).1 <;> simp only [hd, if_true, Bool.false_eq_true, if_false] at h
    · exact .inr (.inl ⟨rfl, rfl, fetchPhase_next h⟩)
    · exact .inl ⟨rfl, rfl, fetchLcd_next h⟩

/-- All that a step can be: the reset, or the fetched instruction run. -/
theorem step_next {s t : State} (h : step s = .next t) :
    (s.host.rst = true ∧ t = resetNow s) ∨
      (s.host.rst = false ∧ ∃ f, fetch s = .next f ∧ exec f.1 f.2 = .next t) := by
  unfold step at h
  split at h
  · rename_i hr; cases h; exact .inl ⟨hr, rfl⟩
  · rename_i hr
    have hr : s.host.rst = false := by simpa using hr
    cases hf : fetch s with
    | next f => rw [hf] at h; exact .inr ⟨hr, f, rfl, h⟩
    | fault f => rw [hf] at h; cases h
    | refused r => rw [hf] at h; cases h

theorem fetchLcd_fault {s : State} {f : Fault} (h : fetchLcd s = .fault f) : f = .reservedLcd s.seq.lcd := by
  unfold fetchLcd at h
  cases hd : decodeLcd s.seq.lcd <;> rw [hd] at h <;> cases h
  rfl

theorem fetchPhase_fault {s : State} {f : Fault} (h : fetchPhase s = .fault f) : f = .reservedPhase s.seq.phase := by
  unfold fetchPhase at h
  cases hd : decodePhase s.seq.phase <;> rw [hd] at h <;> cases h
  rfl

/-- All the faults of a fetch: a call that LIB is to answer under a word of no library call, or a reserved PHASE code. -/
theorem fetch_fault {s : State} {f : Fault} (h : fetch s = .fault f) :
    (callSent s = true ∧ (drawReady s.lib).1 = true ∧ f = .reservedLcd s.seq.lcd) ∨
      ((callSent s = false ∨ (drawReady s.lib).1 = false) ∧ f = .reservedPhase s.seq.phase) := by
  unfold fetch at h
  cases hc : callSent s <;> simp only [hc, if_true, Bool.false_eq_true, if_false] at h
  · split at h
    · unfold fetchReq at h
      cases hq : s.host.reqs with
      | nil => rw [hq] at h; cases h
      | cons r rest =>
        rw [hq] at h
        cases hd : decodeReq r.bytes with
        | error e => simp only [hd] at h; cases e <;> cases h
        | ok i => simp only [hd] at h; cases h
    · exact .inr ⟨.inl rfl, fetchPhase_fault h⟩
  · cases hd : (drawReady s.lib).1 <;> simp only [hd, if_true, Bool.false_eq_true, if_false] at h
    · have hf := fetchPhase_fault h
      exact .inr ⟨.inr rfl, hf⟩
    · have hf := fetchLcd_fault h
      exact .inl ⟨rfl, rfl, hf⟩

/-- When a step faults: the fetch faults (`fetch_fault`), or the instruction meets a model fault. -/
theorem step_fault {s : State} {f : Fault} (h : step s = .fault f) :
    s.host.rst = false ∧ (fetch s = .fault f ∨ ∃ i, fetch s = .next i ∧ exec i.1 i.2 = .fault f) := by
  unfold step at h
  split at h
  · cases h
  · rename_i hr
    refine ⟨by simpa using hr, ?_⟩
    cases hf : fetch s with
    | next i => rw [hf] at h; exact .inr ⟨i, rfl, h⟩
    | fault g => rw [hf] at h; cases h; exact .inl rfl
    | refused r => rw [hf] at h; cases h

end Sys2Proof.Machine
end

