-- ==== Sys2Proof/Laws/Library.lean ====
section
/-! SUPPORT. What each library call answers, as one lemma per operation, and what the draw of RESFAIL does to it. -/

namespace Sys2Proof.Machine

open Sys2Proof.Safety

/-- A call whose answer to the argument values is `r` is answered `r` unless the draw is RESFAIL. -/
theorem answers_of {P : Params} {i : Instr} {m : LMsg} {r : LRet}
    (h : ∀ s : State, s.lib.params = P → s.chan = .sent m → exec i s = .next (answer r s)) : answers P i m r := by
  intro s l hp hc hd
  rw [h s hp hc]
  simp [answer, hd, answered]

theorem answers_curve (P : Params) (id : Byte) : answers P .lcCurve (.curve id) (libCurve P id) := by
  refine answers_of fun s hp hc => ?_
  subst hp
  exact serve_of hc rfl

theorem answers_bnhex (P : Params) (dst : BReg) (src : HexBuf) (h : List Byte) :
    answers P (.lcBnhex dst src) (.bnhex h) (libBnhex h) :=
  answers_of fun _ _ hc => serve_of hc rfl

theorem answers_bnbin (P : Params) (dst : BReg) (d : List Byte) : answers P (.lcBnbin dst) (.bnbin d) (libBnbin d) :=
  answers_of fun _ _ hc => serve_of hc rfl

theorem answers_bnneg (P : Params) (dst a : BReg) (v : Int) : answers P (.lcBnneg dst a) (.bnneg v) (libBnneg v) :=
  answers_of fun _ _ hc => serve_of hc rfl

theorem answers_bninv (P : Params) (dst a b : BReg) (v m : Int) :
    answers P (.lcBninv dst a b) (.bninv v m) (libBninv v m) :=
  answers_of fun _ _ hc => serve_of hc rfl

theorem answers_pdec (P : Params) (dst : PReg) (a : BReg) (v : BitVec 1) (id : Byte) (x : Int) :
    answers P (.lcPdec dst a v) (.pdec id x) (libPdec P id x v) := by
  refine answers_of fun s hp hc => ?_
  subst hp
  exact serve_of hc rfl

theorem answers_pmul (P : Params) (dst b : PReg) (a : BReg) (id : Byte) (k : Int) (q : Point) :
    answers P (.lcPmul dst a b) (.pmul id k q) (libPmul P id k q) := by
  refine answers_of fun s hp hc => ?_
  subst hp
  exact serve_of hc rfl

theorem answers_padd (P : Params) (dst a b : PReg) (id : Byte) (q r : Point) :
    answers P (.lcPadd dst a b) (.padd id q r) (libPadd P id q r) := by
  refine answers_of fun s hp hc => ?_
  subst hp
  exact serve_of hc rfl

theorem answers_pinf (P : Params) (a : PReg) (q : Point) : answers P (.lcPinf a) (.pinf q) (libPinf q) :=
  answers_of fun _ _ hc => serve_of hc rfl

theorem answers_penc (P : Params) (a : PReg) (id : Byte) (q : Point) :
    answers P (.lcPenc a) (.penc id q) (libPenc P id q) := by
  refine answers_of fun s hp hc => ?_
  subst hp
  exact serve_of hc rfl

/-- The failure exit of the model is the one the claims spell out (60 R280). -/
theorem raise_eq (k : ErrKind) (c : PhaseCode) (s : State) : raise k c s = failed k.code c s := rfl

/-- A commit of the model is the one the claims spell out (30_encoding R125). -/
theorem complete_eq (c : PhaseCode) (q : Seq) (s : State) : complete c q s = committed (c + 1) q s := rfl

theorem advance_eq (c : PhaseCode) (q : Seq) (s : State) : advance c q s = advanced (c + 1) q s := rfl

theorem sendCall_eq (d : Instr) (m : LMsg) (s : State) : sendCall d m s = issued (descriptor d) m s := rfl

theorem rest_eq (q : Seq) : q.rest = rested q := rfl

/-- A call is sent and not answered, in the statements' words. -/
theorem callSent_iff (s : State) : callSent s = true ↔ ∃ m, sent s m := by
  unfold callSent sent
  cases s.seq.callpend <;> cases s.chan <;> simp

/-- A PHASE code decodes to the instruction that encodes to it. -/
theorem decodePhase_ok {c : PhaseCode} {i : Instr} (h : decodePhase c = .ok i) : encode i = some (.uop c) := by
  have key : ∀ c : PhaseCode, (match decodePhase c with
      | .ok i => decide (encode i = some (.uop c))
      | .error _ => true) = true := by decide
  have := key c
  rw [h] at this
  exact of_decide_eq_true this

/-- The argument values an issue sends are of its operation. -/
theorem gather_args {s : State} {d : Instr} {m : LMsg} (h : gather s d = .ok m) : argsMatch d m = true := by
  cases d <;> simp only [gather] at h <;> try (cases h)
  all_goals
    simp only [bind, Except.bind] at h
    repeat' split at h
    all_goals first | (cases h; done) | (cases h; rfl)

end Sys2Proof.Machine
end

