-- ==== Sys2Proof/Laws/Inv.lean ====
section
/-! SUPPORT. The ways a step keeps the invariant of the machine, one lemma for each shared ending of a step. -/

namespace Sys2Proof.Machine

open Sys2Proof.Safety

/-- The failure exit keeps the invariant (60 R280). -/
theorem inv_raise {s : State} (h : Inv s) (hp : ¬ s.seq.phase = 0#5) {k : ErrKind} {c : PhaseCode}
    (hm : mayRaise c k.code = true) : Inv (raise k c s) := by
  have hw : ∀ w, written w 20#5 = false := by intro w; simp [written]
  have hl := h.latch
  have hb := h.buffers
  refine ⟨by simp, h.lmax, ?_, ?_, ?_, ?_, ⟨by simp, by simp⟩, ?_, ?_⟩
  · constructor <;> simp [hw, BFile.reset, PFile.reset]
  · constructor
    · simpa [hp] using hl.recid
    · simpa [hp] using hl.curveid
    · simpa [hp] using hl.dlen
    · simpa [hp] using hl.rlen
    · simpa [hp] using hl.slen
  · constructor <;> simp
    · exact hb.digest
    · exact hb.rhex
    · exact hb.shex
    · exact hb.noDigest
    · exact hb.noRhex
    · exact hb.noShex
  · constructor <;> simp
  · simpa [errorsOk] using hm
  · exact Seq.failExit_wf h.canonical k c

/-- The issue of the call PHASE names keeps the invariant (30_encoding R125). -/
theorem inv_send {s : State} (h : Inv s) {d : Instr} {m : LMsg} (hd : callOf (s.seq.v.getD 0) s.seq.phase = some d)
   (hm : argsMatch d m = true) : Inv (sendCall d m s) := by
  obtain ⟨h1,h2,h3,h4,h5,h6,h7,h8,h9⟩ := h
  refine ⟨h1,h2,?_,?_,?_,?_,⟨by simp, fun _ => ⟨d, hd, rfl, hm⟩⟩,h8,h9⟩
  · exact ⟨h3.1,h3.2,h3.3,h3.4,h3.5,h3.6,h3.7,h3.8,h3.9,h3.10,h3.11,h3.12,h3.13,h3.14,h3.15,h3.16,h3.17,h3.18,h3.19,h3.20,h3.21⟩
  · exact ⟨h4.1,h4.2,h4.3,h4.4,h4.5⟩
  · exact ⟨h5.1,h5.2,h5.3,h5.4,h5.5,h5.6,h5.7,h5.8,h5.9,h5.10⟩
  · exact ⟨h6.1,h6.2,h6.3,h6.4⟩

/-- A completion that writes no buffer keeps the invariant, given the valid bits and lengths after it. -/
theorem inv_write {s : State} (h : Inv s) {q : Seq} {c : PhaseCode} (hp : s.seq.phase = c) (hc : ¬ c = 0#5 ∧ c.toNat < 0x13)
    (hmem : q.mem = s.seq.mem) (hlat : q.recid = s.seq.recid ∧ q.curveid = s.seq.curveid ∧ q.dlen = s.seq.dlen ∧ q.rlen = s.seq.rlen ∧ q.slen = s.seq.slen)
    (herr : q.errkind = s.seq.errkind ∧ q.errphase = s.seq.errphase)
    (hlen : q.enclen = s.seq.enclen ∧ q.rlenb = s.seq.rlenb) 
    (hdata : DataLive (q.next c)) (hsz : SizesOk q s.lib.params.lmax) (hcp : q.callpend = false) (ch : Chan) (hch : ch = .idle) :
    Inv { s with seq := q.next c, chan := ch } := by
  subst hch
  have hc1 : (c + 1).toNat = c.toNat + 1 := by
    rw [BitVec.toNat_add]; simp; have := hc.2; omega
  have hc0 : ¬ c + 1#5 = 0#5 := by intro e; have hc1 : (c + 1#5).toNat = _ := hc1; rw [e] at hc1; simp at hc1
  have hcf : ¬ c + 1#5 = 20#5 := by intro e; have hc1 : (c + 1#5).toNat = _ := hc1; rw [e] at hc1; simp at hc1; have := hc.2; omega
  have hl := h.latch
  have hb := h.buffers
  have he := h.errors
  have hcF : ¬ c = 20#5 := by intro e; have := hc.2; rw [e] at this; simp at this
  refine ⟨?_, h.lmax, hdata, ?_, ?_, ?_, ⟨by simp, by simp [hcp]⟩, ?_, ?_⟩
  · simp only [Seq.next_phase, hc1]; have := hc.2; omega
  · have hph : ¬ s.seq.phase = 0#5 := hp ▸ hc.1
    constructor <;> simp [hlat]
    · simpa [hph, hc0] using hl.recid
    · simpa [hph, hc0] using hl.curveid
    · simpa [hph, hc0] using hl.dlen
    · simpa [hph, hc0] using hl.rlen
    · simpa [hph, hc0] using hl.slen
  · constructor <;> simp [hmem, hlat, hlen]
    · exact hb.digest
    · exact hb.rhex
    · exact hb.shex
    · exact hb.encbuf
    · exact hb.result
    · exact hb.noDigest
    · exact hb.noRhex
    · exact hb.noShex
    · exact hb.noEncbuf
    · exact hb.noResult
  · exact ⟨hsz.1,hsz.2,hsz.3,hsz.4⟩
  · simp [errorsOk, hp, hcF] at he
    simpa [errorsOk, hcf, herr] using he
  · simpa [hmem] using h.canonical

/-- At rest, with LCD of any value, the invariant holds (40 R156). -/
theorem inv_rested (s : State) (hl : 1 ≤ s.lib.params.lmax ∧ s.lib.params.lmax ≤ 127) (q : Seq) (hq : q = { Seq.reset with lcd := q.lcd }) (h : HostSide)
    (l : LibSide) (hlib : l.params.lmax = s.lib.params.lmax) : Inv { s with seq := q, chan := .idle, host := h, lib := l } := by
  rw [hq]
  rw [← hlib] at hl
  have hw : ∀ w, written w 0#5 = false := by intro w; simp [written]
  refine ⟨by simp [Seq.reset], hl, ?_, ?_, ?_, ?_, ⟨by simp, by simp [Seq.reset]⟩, rfl, rfl⟩
  · constructor <;> simp [Seq.reset, hw, BFile.reset, PFile.reset]
  · constructor <;> simp [Seq.reset]
  · constructor <;> simp [Seq.reset, Memory.reset]
  · constructor <;> simp [Seq.reset]

/-- The invariant does not speak of the host. -/
theorem inv_host {s : State} (h : Inv s) (ho : HostSide) : Inv { s with host := ho } := by
  obtain ⟨h1,h2,h3,h4,h5,h6,h7,h8,h9⟩ := h
  exact ⟨h1,h2,h3,h4,h5,h6,⟨h7.1,h7.2⟩,h8,h9⟩

/-- Of LIB the invariant speaks of LMAX alone. -/
theorem inv_draw {s : State} (h : Inv s) (l : LibSide) (hl : l.params.lmax = s.lib.params.lmax) :
    Inv { s with lib := l } := by
  obtain ⟨h1,h2,h3,h4,h5,h6,h7,h8,h9⟩ := h
  exact ⟨h1, by simpa [hl] using h2, h3, h4, by simpa [hl] using h5, by simpa [hl] using h6, ⟨h7.1,h7.2⟩, h8, h9⟩

/-- LIB's return, of the type of the descriptor in LCD, keeps the invariant (30_encoding R126). -/
theorem inv_lib {s : State} (h : Inv s) (l : LibSide) (hl : l.params = s.lib.params) {r : LRet} {m d}
   (_ : s.chan = .sent m) (hcp : s.seq.callpend = true) (hd : decodeLcd s.seq.lcd = .ok d) (hr : inFlight d (.returned r) = true) : Inv { s with chan := .returned r, lib := l } := by
  obtain ⟨h1,h2,h3,h4,h5,h6,h7,h8,h9⟩ := h
  refine ⟨h1,by simpa [hl] using h2,h3,h4,by simpa [hl] using h5,by simpa [hl] using h6,⟨by simp [hcp], ?_⟩,h8,h9⟩
  intro _
  obtain ⟨e, he1, he2, he3⟩ := h7.on hcp
  refine ⟨e, he1, he2, ?_⟩
  have : decodeLcd (descriptor e) = .ok e := by
    revert he1
    have : ∀ (v : BitVec 1) (c : PhaseCode), ∀ e, callOf v c = some e → decodeLcd (descriptor e) = .ok e := by
      intro v c e h
      unfold callOf at h
      split at h <;> cases h
      all_goals first | rfl | (revert v; decide)
    exact this _ _ _
  rw [he2, this] at hd; cases hd; exact hr

/-- The acceptance of a request keeps the invariant (40 R151). -/
theorem inv_accept {s t : State} (h : Inv s) {a b : Byte} {c d e : List Byte} (hc : c.length < 65536)
    (hd : d.length < 256) (hee : e.length < 256) (he : accept a b c d e s = .ok t) : Inv t := by
  obtain ⟨h1, h2, rfl⟩ := accept_ok he
  have hw : ∀ w, 1 ≤ w → written w 1#5 = false := by intro w hw; simp [written]; omega
  refine ⟨by simp, h.lmax, ?_, ?_, ?_, ?_, ⟨by simp, by simp⟩, rfl, ?_⟩
  · constructor <;> simp [hw, BFile.reset, PFile.reset]
  · constructor <;> simp
  · constructor <;> simp [Memory.reset]
    · have key := readCells_writeCells [] 0 (c.take (min c.length s.lib.params.lmax))
      rw [List.length_take, Nat.min_eq_left (Nat.min_le_left _ _)] at key
      rw [Nat.mod_eq_of_lt (by omega), key]
      rfl
    · rw [Nat.mod_eq_of_lt (by omega), readCells_writeCells]; rfl
    · rw [Nat.mod_eq_of_lt (by omega), readCells_writeCells]; rfl
  · constructor <;> simp
  · rw [Memory.wf_iff]; intro b; cases b <;> simp [Memory.get, Memory.reset] <;> first | rfl | exact rising_writeCells rfl _ _

end Sys2Proof.Machine
end

