-- ==== Sys2Proof/Laws/PerInstr.lean ====
section
/-! SUPPORT. Statements for all instructions, one lemma for each constructor. Format: an instruction encodes in the format
the opcode table gives it, and the pseudo-operation, alone, in none (30_encoding R110, R132). -/

namespace Sys2Proof.Laws.Format

/-- The encoding has the format of the table, and only the pseudo-operation has none. -/
def Statement (i : Instr) : Prop :=
  (encode i = none ↔ i.format = .pseudo) ∧ ∀ e, encode i = some e → e.format = i.format

theorem recover (recid : Byte) (curveid : Byte) (digest : List Byte) (rhex : List Byte) (shex : List Byte) : Statement (.recover recid curveid digest rhex shex) := by
  refine ⟨by simp [encode, Instr.format], fun e h => ?_⟩
  cases h
  rfl

theorem recover2 (curveid : Byte) (digest : List Byte) (rhex : List Byte) (shex : List Byte) : Statement (.recover2 curveid digest rhex shex) := by
  refine ⟨by simp [encode, Instr.format], fun e h => ?_⟩
  cases h

theorem vrid : Statement .vrid := by
  refine ⟨by simp [encode, Instr.format], fun e h => ?_⟩
  cases h
  rfl

theorem curve : Statement .curve := by
  refine ⟨by simp [encode, Instr.format], fun e h => ?_⟩
  cases h
  rfl

theorem parser : Statement .parser := by
  refine ⟨by simp [encode, Instr.format], fun e h => ?_⟩
  cases h
  rfl

theorem parses : Statement .parses := by
  refine ⟨by simp [encode, Instr.format], fun e h => ?_⟩
  cases h
  rfl

theorem trunc : Statement .trunc := by
  refine ⟨by simp [encode, Instr.format], fun e h => ?_⟩
  cases h
  rfl

theorem setx : Statement .setx := by
  refine ⟨by simp [encode, Instr.format], fun e h => ?_⟩
  cases h
  rfl

theorem decomp : Statement .decomp := by
  refine ⟨by simp [encode, Instr.format], fun e h => ?_⟩
  cases h
  rfl

theorem ordmul : Statement .ordmul := by
  refine ⟨by simp [encode, Instr.format], fun e h => ?_⟩
  cases h
  rfl

theorem ordchk : Statement .ordchk := by
  refine ⟨by simp [encode, Instr.format], fun e h => ?_⟩
  cases h
  rfl

theorem eload : Statement .eload := by
  refine ⟨by simp [encode, Instr.format], fun e h => ?_⟩
  cases h
  rfl

theorem inv : Statement .inv := by
  refine ⟨by simp [encode, Instr.format], fun e h => ?_⟩
  cases h
  rfl

theorem muls : Statement .muls := by
  refine ⟨by simp [encode, Instr.format], fun e h => ?_⟩
  cases h
  rfl

theorem neg : Statement .neg := by
  refine ⟨by simp [encode, Instr.format], fun e h => ?_⟩
  cases h
  rfl

theorem mulg : Statement .mulg := by
  refine ⟨by simp [encode, Instr.format], fun e h => ?_⟩
  cases h
  rfl

theorem add : Statement .add := by
  refine ⟨by simp [encode, Instr.format], fun e h => ?_⟩
  cases h
  rfl

theorem mulq : Statement .mulq := by
  refine ⟨by simp [encode, Instr.format], fun e h => ?_⟩
  cases h
  rfl

theorem enc : Statement .enc := by
  refine ⟨by simp [encode, Instr.format], fun e h => ?_⟩
  cases h
  rfl

theorem strip : Statement .strip := by
  refine ⟨by simp [encode, Instr.format], fun e h => ?_⟩
  cases h
  rfl

theorem idle : Statement .idle := by
  refine ⟨by simp [encode, Instr.format], fun e h => ?_⟩
  cases h
  rfl

theorem done : Statement .done := by
  refine ⟨by simp [encode, Instr.format], fun e h => ?_⟩
  cases h
  rfl

theorem fail : Statement .fail := by
  refine ⟨by simp [encode, Instr.format], fun e h => ?_⟩
  cases h
  rfl

theorem lcCurve : Statement .lcCurve := by
  refine ⟨by simp [encode, Instr.format], fun e h => ?_⟩
  cases h
  rfl

theorem lcBnhex (dst : BReg) (src : HexBuf) : Statement (.lcBnhex dst src) := by
  refine ⟨by simp [encode, Instr.format], fun e h => ?_⟩
  cases h
  rfl

theorem lcBnbin (dst : BReg) : Statement (.lcBnbin dst) := by
  refine ⟨by simp [encode, Instr.format], fun e h => ?_⟩
  cases h
  rfl

theorem lcBnneg (dst : BReg) (a : BReg) : Statement (.lcBnneg dst a) := by
  refine ⟨by simp [encode, Instr.format], fun e h => ?_⟩
  cases h
  rfl

theorem lcBninv (dst : BReg) (v : BReg) (m : BReg) : Statement (.lcBninv dst v m) := by
  refine ⟨by simp [encode, Instr.format], fun e h => ?_⟩
  cases h
  rfl

theorem lcPdec (dst : PReg) (x : BReg) (parity : BitVec 1) : Statement (.lcPdec dst x parity) := by
  refine ⟨by simp [encode, Instr.format], fun e h => ?_⟩
  cases h
  rfl

theorem lcPmul (dst : PReg) (k : BReg) (q : PReg) : Statement (.lcPmul dst k q) := by
  refine ⟨by simp [encode, Instr.format], fun e h => ?_⟩
  cases h
  rfl

theorem lcPadd (dst : PReg) (a : PReg) (b : PReg) : Statement (.lcPadd dst a b) := by
  refine ⟨by simp [encode, Instr.format], fun e h => ?_⟩
  cases h
  rfl

theorem lcPinf (a : PReg) : Statement (.lcPinf a) := by
  refine ⟨by simp [encode, Instr.format], fun e h => ?_⟩
  cases h
  rfl

theorem lcPenc (a : PReg) : Statement (.lcPenc a) := by
  refine ⟨by simp [encode, Instr.format], fun e h => ?_⟩
  cases h
  rfl

end Sys2Proof.Laws.Format
end

