-- ==== Sys2Proof/Laws/Points.lean ====
section
/-! SUPPORT. The library's points stay in range: with p not 0, coordinates below p give coordinates below p (00_scope R15). -/

namespace Sys2Proof.Machine

open Sys2Proof.Safety

theorem emod_toNat_lt {p : Nat} (hp : 0 < p) (z : Int) : (z % (p : Int)).toNat < p := by
  have h0 := Int.emod_nonneg z (show (p : Int) ≠ 0 by omega)
  have h1 := Int.emod_lt_of_pos z (show (0 : Int) < p by omega)
  omega

theorem chord_below {p : Nat} (hp : 0 < p) (lam : Int) (x1 y1 x2 : Nat) : below p (chord p lam x1 y1 x2) :=
  ⟨emod_toNat_lt hp _, emod_toNat_lt hp _⟩

theorem addPoint_below {c : Curve} (hp : 0 < c.p) {q r : Point} (hq : below c.p q) (hr : below c.p r) :
    below c.p (addPoint c q r) := by
  cases q with
  | inf => simpa [addPoint] using hr
  | aff x1 y1 =>
    cases r with
    | inf => simpa [addPoint] using hq
    | aff x2 y2 =>
      simp only [addPoint]
      split
      · trivial
      · split <;> exact chord_below hp _ _ _ _

theorem negPoint_below {c : Curve} (hp : 0 < c.p) {q : Point} (hq : below c.p q) : below c.p (negPoint c q) := by
  cases q with
  | inf => trivial
  | aff x y => exact ⟨hq.1, Nat.mod_lt _ hp⟩

theorem mulBits_below {c : Curve} (hp : 0 < c.p) {q : Point} (hq : below c.p q) (fuel k : Nat) :
    below c.p (mulBits c q fuel k) := by
  induction fuel generalizing k with
  | zero => trivial
  | succ fuel ih =>
    simp only [mulBits]
    split
    · trivial
    · split
      · exact addPoint_below hp (addPoint_below hp (ih _) (ih _)) hq
      · exact addPoint_below hp (ih _) (ih _)

theorem mulPoint_below {c : Curve} (hp : 0 < c.p) {q : Point} (hq : below c.p q) (k : Int) :
    below c.p (mulPoint c k q) := by
  unfold mulPoint mulNat
  split
  · exact mulBits_below hp hq _ _
  · exact mulBits_below hp (negPoint_below hp hq) _ _

theorem powMod_lt {m : Nat} (hm : 0 < m) (b fuel e : Nat) : powMod m b fuel e < m := by
  cases fuel with
  | zero => exact Nat.mod_lt _ hm
  | succ fuel =>
    simp only [powMod]
    split
    · exact Nat.mod_lt _ hm
    · split <;> exact Nat.mod_lt _ hm

theorem searchRoot_lt {p w k y : Nat} (h : searchRoot p w k = some y) : y < k := by
  induction k with
  | zero => cases h
  | succ k ih =>
    simp only [searchRoot] at h
    split at h
    · cases h; omega
    · have := ih h; omega

theorem sqrtMod_lt {p w y : Nat} (hp : 0 < p) (h : sqrtMod p w = some y) : y < p := by
  unfold sqrtMod at h
  split at h
  · simp only at h
    split at h
    · cases h; exact powMod_lt hp _ _ _
    · cases h
  · exact searchRoot_lt h

theorem decompress_below {c : Curve} (hp : 0 < c.p) {x : Nat} (hx : x < c.p) {v : BitVec 1} {q : Point}
    (h : decompress c x v = some q) : below c.p q := by
  unfold decompress at h
  cases hs : sqrtMod c.p (curveRhs c x) with
  | none => rw [hs] at h; cases h
  | some y0 =>
    have hy := sqrtMod_lt hp hs
    simp only [hs] at h
    by_cases hv : BitVec.ofNat 1 y0 = v
    · rw [if_pos hv, if_pos hv] at h
      cases h
      exact ⟨hx, hy⟩
    · rw [if_neg hv] at h
      split at h
      · cases h; exact ⟨hx, Nat.mod_lt _ hp⟩
      · cases h

theorem decompressX_lt {P : Params} {c : Curve} (hp : 0 < c.p) {x : Int} {y : Nat} (h : decompressX P c x = some y) :
    y < c.p := by
  unfold decompressX at h
  split at h
  · cases h
  · split at h
    · cases h; omega
    · split at h
      · cases h
      · cases h; exact emod_toNat_lt hp x

theorem findCurve_mem {table : List Curve} {id : Byte} {c : Curve} (h : findCurve table id = some c) : c ∈ table := by
  induction table with
  | nil => cases h
  | cons d rest ih =>
    simp only [findCurve] at h
    split at h
    · cases h; exact .head _
    · exact .tail _ (ih h)

/-! ### The three calls that answer a point -/

theorem libPdec_below {P : Params} (hP : TableFits P) {id : Byte} {x : Int} {v : BitVec 1} {q : Point}
    (h : libPdec P id x v = .ok (.point q)) : ∃ c, findCurve P.table id = some c ∧ below c.p q := by
  unfold libPdec at h
  cases hc : findCurve P.table id with
  | none => simp only [hc] at h; cases h
  | some c =>
    have hp := (hP c (findCurve_mem hc)).1
    simp only [hc] at h
    cases hx : decompressX P c x with
    | none => simp only [hx] at h; cases h
    | some y =>
      simp only [hx] at h
      cases hd : decompress c y v with
      | none => simp only [hd] at h; cases h
      | some r =>
        simp only [hd] at h
        cases h
        exact ⟨c, rfl, decompress_below hp (decompressX_lt hp hx) hd⟩

theorem libPmul_below {P : Params} (hP : TableFits P) {id : Byte} {k : Int} {q r : Point} {c : Curve}
    (hc : findCurve P.table id = some c) (hq : below c.p q) (h : libPmul P id k q = .ok (.point r)) : below c.p r := by
  simp only [libPmul, hc] at h
  cases h
  exact mulPoint_below (hP c (findCurve_mem hc)).1 hq k

theorem libPadd_below {P : Params} (hP : TableFits P) {id : Byte} {a b r : Point} {c : Curve}
    (hc : findCurve P.table id = some c) (ha : below c.p a) (hb : below c.p b)
    (h : libPadd P id a b = .ok (.point r)) : below c.p r := by
  simp only [libPadd, hc] at h
  cases h
  exact addPoint_below (hP c (findCurve_mem hc)).1 ha hb

end Sys2Proof.Machine
end

