-- ==== Sys2Proof/Tests/Slice0.lean ====
section
/-! SUPPORT. Tests: well-formedness, decoding of words written out from the spec's encodings, one step of each instruction
with the spec's worked values (curve TA of 95_test_vectors), and for each statement a witness of its hypotheses. -/

namespace Sys2Proof.Tests

open Sys2Proof Sys2Proof.Machine Sys2Proof.Safety

/-! ### Builders -/

/-- Curve TA of 95_test_vectors: y^2 = x^3 + 2x + 1 over 199 elements. -/
def ta : Curve := { id := 0xA0, p := 199, a := 2, b := 1, g := .aff 1 2, n := 181, l := 1 }

/-- A small lawful curve: y^2 = x^3 + 2x + 1 over 5 elements, of prime order 7. -/
def t5 : Curve := { id := 0x05, p := 5, a := 2, b := 1, g := .aff 0 1, n := 7, l := 1 }

def params : Params := { lmax := 2, hexcase := .lower, decompOor := .domfail, table := [ta, t5] }

/-- A value where the register has one at PHASE = c. -/
def at' {α : Type} (w : Nat) (c : PhaseCode) (x : α) : Option α := if written w c then some x else none

/-- A value of the request latch. -/
def latched {α : Type} (c : PhaseCode) (x : α) : Option α := if c = 0x00 then none else some x

def cellsAt (b : Bool) (cells : List Host.Cell) : List Host.Cell := if b then cells else []

/-- SEQ at PHASE = c in the call of 40 R151's example, with RECID 5. -/
def seqAt (c : PhaseCode) : Seq :=
  { phase := c, callpend := false, lcd := 0
    errkind := if c = 0x14 then 4 else 0, errphase := if c = 0x14 then 0x02 else 0
    v := at' 1 c 0, inff := at' 9 c 1, deff := at' 5 c 1, rlenb := at' 0x12 c 2, enclen := at' 0x11 c 3, cpL := at' 2 c 1
    b := { br := at' 3 c 157, bs := at' 4 c 137, bx := at' 6 c 157, be := at' 0x0A c 90, bne := at' 0x0D c (-90)
           bri := at' 0x0B c 98, bn := at' 2 c 181, bp := at' 2 c 199 }
    p := { pg := at' 2 c (.aff 1 2), pr := at' 7 c (.aff 157 102), pchk := at' 8 c .inf, ps := at' 0x0C c (.aff 74 72)
           pt := at' 0x0E c (.aff 0 198), pu := at' 0x0F c (.aff 84 101), pq := at' 0x10 c (.aff 70 57) }
    recid := latched c 5, curveid := latched c 0xA0, dlen := latched c 1, rlen := latched c 2, slen := latched c 2
    mem := { digest := cellsAt (c ≠ 0x00) [(0, 0x5A)]
             rhex := cellsAt (c ≠ 0x00) [(0, 0x39), (1, 0x64)]
             shex := cellsAt (c ≠ 0x00) [(0, 0x38), (1, 0x39)]
             encbuf := cellsAt (written 0x11 c) [(0, 0x04), (1, 0x46), (2, 0x39)]
             result := cellsAt (written 0x12 c) [(0, 0x46), (1, 0x39)] } }

/-- The host with requests on the channel and answers to come. -/
def host (reqs : List (List Byte)) (takes : List Bool) : HostSide :=
  { reqs := reqs.map Request.single, follow := none, takes := takes, takeIx := 0, rsps := [], rst := false }

/-- LIB with the draws to come: whether it answers, and whether RESFAIL. -/
def libSide (ready fails : List Bool) : LibSide :=
  { params := params, ready := ready, readyIx := 0, tables := [], tableIx := 0, fails := fails, failIx := 0 }

/-- ECREC at PHASE = c. -/
def stateAt (c : PhaseCode) (h : HostSide) (fails : List Bool) : State :=
  { seq := seqAt c, chan := .idle, host := h, lib := libSide [] fails }

/-- ECREC at PHASE = c, nothing on the request channel. -/
def st (c : PhaseCode) : State := stateAt c (host [] []) []

/-- ECREC at PHASE = c, the return `r` there. -/
def back (c : PhaseCode) (r : LRet) : State := { st c with seq := { seqAt c with callpend := true }, chan := .returned r }

/-- ECREC at PHASE = c, a call sent with the descriptor `w`. -/
def asked (c : PhaseCode) (w : LcdWord) (m : LMsg) (fails : List Bool) : State :=
  { stateAt c (host [] []) fails with
    seq := { seqAt c with callpend := true, lcd := w }, chan := .sent m, lib := libSide [true] fails }

/-- The state a meaning answers, if it answers one. -/
def next (o : Out) : Option State :=
  match o with
  | .next t => some t
  | _ => none

/-- LIB's return after an instruction. -/
def reply (o : Out) : Option LRet :=
  match o with
  | .next t =>
    match t.chan with
    | .returned r => some r
    | _ => none
  | _ => none

/-- PHASE, LCD and the channel after an instruction. -/
def call (o : Out) : Option (PhaseCode × LcdWord × Chan) := (next o).map (fun t => (t.seq.phase, t.seq.lcd, t.chan))

/-- LIB's reply to the call `i` with the argument values `m`, the draw not RESFAIL. -/
def lib (i : Instr) (m : LMsg) : Option LRet := reply (exec i (asked 0x02 0 m [false]))

/-! ### Well-formedness (30_encoding R111) -/

theorem test_wf_digest_too_long : (Instr.recover 0 0 (List.replicate 65536 0) [] []).wf = false := by
  simp only [Instr.wf, lengthsFit, List.length_replicate]; decide

theorem test_wf_rhex_too_long : (Instr.recover 0 0 [] (List.replicate 256 0) []).wf = false := by
  simp only [Instr.wf, lengthsFit, List.length_replicate]; decide

theorem test_wf_shex_too_long : (Instr.recover2 0 [] [] (List.replicate 256 0)).wf = false := by
  simp only [Instr.wf, lengthsFit, List.length_replicate]; decide

theorem test_wf_longest : (Instr.recover 0 0 (List.replicate 65535 0) (List.replicate 255 0) (List.replicate 255 0)).wf
    = true := by
  simp only [Instr.wf, lengthsFit, List.length_replicate]; decide

/-! ### Decoding: words written out from the spec -/

/-- The request of 40 R151's example. -/
theorem test_decode_recover : decode (.req [0x01, 0x00, 0xA0, 0x02, 0x02, 0x00, 0x01, 0x5A, 0x39, 0x64, 0x38, 0x39])
    = .ok (.recover 0 0xA0 [0x5A] [0x39, 0x64] [0x38, 0x39]) := rfl

/-- DLEN is big-endian (20_memory R88): 0x0102 is 258. -/
theorem test_decode_dlen : decode (.req ([0x01, 0x1C, 0x07, 0x00, 0x00, 0x01, 0x02] ++ List.replicate 258 0x11))
    = .ok (.recover 28 7 (List.replicate 258 0x11) [] []) := by decide +kernel

/-- PHASE codes bit by bit (30_encoding R120). -/
theorem test_decode_uop : [decode (.uop 0b00000), decode (.uop 0b00001), decode (.uop 0b00010), decode (.uop 0b00011),
      decode (.uop 0b00100), decode (.uop 0b00101), decode (.uop 0b00110), decode (.uop 0b00111), decode (.uop 0b01000),
      decode (.uop 0b01001), decode (.uop 0b01010)]
    = [.ok .idle, .ok .vrid, .ok .curve, .ok .parser, .ok .parses, .ok .trunc, .ok .setx, .ok .decomp, .ok .ordmul,
      .ok .ordchk, .ok .eload] := rfl

theorem test_decode_uop_high : [decode (.uop 0b01011), decode (.uop 0b01100), decode (.uop 0b01101),
      decode (.uop 0b01110), decode (.uop 0b01111), decode (.uop 0b10000), decode (.uop 0b10001), decode (.uop 0b10010),
      decode (.uop 0b10011), decode (.uop 0b10100)]
    = [.ok .inv, .ok .muls, .ok .neg, .ok .mulg, .ok .add, .ok .mulq, .ok .enc, .ok .strip, .ok .done, .ok .fail] := rfl

/-- Descriptors of 30_encoding R120, bit by bit: op, dst, a, b. -/
theorem test_decode_lcd : [decode (.lcd 0b0001000000000000), decode (.lcd 0b0010000000000000),
      decode (.lcd 0b0010000100010000), decode (.lcd 0b0011001100000000), decode (.lcd 0b0100010000110000),
      decode (.lcd 0b0101010100000110), decode (.lcd 0b0110000100100000), decode (.lcd 0b0110000100100001)]
    = [.ok .lcCurve, .ok (.lcBnhex .br .rhex), .ok (.lcBnhex .bs .shex), .ok (.lcBnbin .be), .ok (.lcBnneg .bne .be),
      .ok (.lcBninv .bri .br .bn), .ok (.lcPdec .pr .bx 0), .ok (.lcPdec .pr .bx 1)] := rfl

theorem test_decode_lcd_points : [decode (.lcd 0b0111001001100001), decode (.lcd 0b0111001100010001),
      decode (.lcd 0b0111010001000000), decode (.lcd 0b0111011001010101), decode (.lcd 0b1000010100110100),
      decode (.lcd 0b1001000000100000), decode (.lcd 0b1010000001100000)]
    = [.ok (.lcPmul .pchk .bn .pr), .ok (.lcPmul .ps .bs .pr), .ok (.lcPmul .pt .bne .pg), .ok (.lcPmul .pq .bri .pu),
      .ok (.lcPadd .pu .ps .pt), .ok (.lcPinf .pchk), .ok (.lcPenc .pq)] := rfl

/-- Words that are no instruction: op 0 and 0xB, P[7], a parity of 2, a form of 1 (30_encoding R124, R127, R128). -/
theorem test_decode_lcd_rejected : [decode (.lcd 0x0000), decode (.lcd 0xB000), decode (.lcd 0x7761),
      decode (.lcd 0x6122), decode (.lcd 0xA061)]
    = [.error (.reservedOp 0x0000), .error (.reservedOp 0xB000), .error (.badField 0x7761), .error (.badField 0x6122),
      .error (.badField 0xA061)] := rfl

theorem test_decode_table_words : decodeTableWord 16 0x9020 = some (.lcPinf .pchk) ∧
    decodeTableWord 8 0x02 = some .curve ∧ decodeTableWord 5 0x01 = some .vrid ∧
    decodeTableWord 8 0x01 = some (.recover 0 0 [] [] []) := by decide

/-! ### One step of each instruction: the spec's worked values -/

/-- 40 R151's example, with LMAX = 2: the latch, and of a longer digest the left-most bytes. -/
theorem test_recover_accepts :
    (next (exec (.recover 0 0xA0 [0x5A, 0xFF, 0x01] [0x39, 0x64] [0x38, 0x39]) (st 0x00))).map
      (fun t => (t.seq.dlen, t.seq.mem.digest, t.seq.mem.shex))
    = some (some 3, [(0, 0x5A), (1, 0xFF)], [(0, 0x38), (1, 0x39)]) := by decide

theorem test_recover_waits : (next (exec (.recover 0 0xA0 [] [] []) (st 0x13))).map (fun t => (t.seq.phase, t.host.reqs))
    = some (0x13, [⟨[0x01, 0x00, 0xA0, 0x00, 0x00, 0x00, 0x00], none⟩]) := by decide

theorem test_recover2 : (next (exec (.recover2 0xA0 [0x5A] [] []) (st 0x00))).map (fun t => (t.seq.phase, t.host.reqs))
    = some (0x00, [⟨[0x01, 0x00, 0xA0, 0, 0, 0, 0x01, 0x5A], some [0x01, 0x01, 0xA0, 0, 0, 0, 0x01, 0x5A]⟩]) := by decide

/-- 41 R170: RECID 28 is V = 1, though its bit 0 is 0. -/
theorem test_vrid_28 : (next (exec .vrid { st 0x01 with seq := { seqAt 0x01 with recid := some 28 } })).map
    (fun t => (t.seq.phase, t.seq.v)) = some (0x02, some 1) := by decide

/-- 41 R170: RECID 5 is the response 01 01 00. -/
theorem test_vrid_5 : (next (exec .vrid (st 0x01))).bind response = some [0x01, 0x01, 0x00] := by decide

theorem test_curve_commit : (next (exec .curve (back 0x02 (.ok (.curve 199 181 (.aff 1 2) 1))))).map
    (fun t => (t.seq.phase, t.seq.b.bn, t.seq.p.pg, t.seq.cpL)) = some (0x03, some 181, some (.aff 1 2), some 1) := by decide

/-- 41 R172: p = 256 does not fit L = 1. -/
theorem test_curve_wide : (next (exec .curve (back 0x02 (.ok (.curve 256 181 (.aff 1 2) 1))))).bind response
    = some [0x04, 0x02, 0x00] := by decide

theorem test_parser_issue : call (exec .parser (st 0x03)) = some (0x03, 0x2000, .sent (.bnhex [0x39, 0x64])) := by decide

/-- 41 R173: a malformed r is the response 04 03 00. -/
theorem test_parser_fails : (next (exec .parser (back 0x03 .domfail))).bind response = some [0x04, 0x03, 0x00] := by decide

theorem test_parses_issue : call (exec .parses (st 0x04)) = some (0x04, 0x2110, .sent (.bnhex [0x38, 0x39])) := by decide

theorem test_parses_commit : (next (exec .parses (back 0x04 (.ok (.int 137))))).map (fun t => (t.seq.phase, t.seq.b.bs))
    = some (0x05, some 137) := by decide

/-- 41 R175: L = 1, DLEN = 65535 gives DEFF = 1. -/
theorem test_trunc_longest : (next (exec .trunc { st 0x05 with seq := { seqAt 0x05 with dlen := some 0xFFFF } })).map
    (fun t => (t.seq.phase, t.seq.deff)) = some (0x06, some 1) := by decide

theorem test_trunc_empty : (next (exec .trunc { st 0x05 with seq := { seqAt 0x05 with dlen := some 0 } })).map
    (fun t => t.seq.deff) = some (some 0) := by decide

theorem test_setx : (next (exec .setx (st 0x06))).map (fun t => (t.seq.phase, t.seq.b.bx)) = some (0x07, some 157) := by
  decide

/-- 30_encoding R129: V = 1 is the word 0x6121. -/
theorem test_decomp_issue : call (exec .decomp { st 0x07 with seq := { seqAt 0x07 with v := some 1 } })
    = some (0x07, 0x6121, .sent (.pdec 0xA0 157)) := by decide

/-- 60 R272: DOMFAIL in DECOMP is InvalidPoint. -/
theorem test_decomp_fails : (next (exec .decomp (back 0x07 .domfail))).bind response = some [0x02, 0x07, 0x00] := by decide

/-- 43 R200: the scalar sent is n itself. -/
theorem test_ordmul_issue : call (exec .ordmul (st 0x08)) = some (0x08, 0x7261, .sent (.pmul 0xA0 181 (.aff 157 102))) := by
  decide

theorem test_ordmul_commit : (next (exec .ordmul (back 0x08 (.ok (.point (.aff 110 0)))))).map
    (fun t => (t.seq.phase, t.seq.p.pchk)) = some (0x09, some (.aff 110 0)) := by decide

/-- 43 R201: INFF = 0 is the response 02 09 00. -/
theorem test_ordchk_fails : (next (exec .ordchk (back 0x09 (.ok (.bit 0))))).bind response = some [0x02, 0x09, 0x00] := by
  decide

theorem test_ordchk_passes : (next (exec .ordchk (back 0x09 (.ok (.bit 1))))).map (fun t => (t.seq.phase, t.seq.inff))
    = some (0x0A, some 1) := by decide

theorem test_eload_issue : call (exec .eload (st 0x0A)) = some (0x0A, 0x3300, .sent (.bnbin [0x5A])) := by decide

theorem test_eload_commit : (next (exec .eload (back 0x0A (.ok (.int 240))))).map (fun t => (t.seq.phase, t.seq.b.be))
    = some (0x0B, some 240) := by decide

theorem test_inv_issue : call (exec .inv (st 0x0B)) = some (0x0B, 0x5506, .sent (.bninv 157 181)) := by decide

/-- 60 R272: DOMFAIL in INV is NoInverse. -/
theorem test_inv_fails : (next (exec .inv (back 0x0B .domfail))).bind response = some [0x03, 0x0B, 0x00] := by decide

theorem test_muls_issue : call (exec .muls (st 0x0C)) = some (0x0C, 0x7311, .sent (.pmul 0xA0 137 (.aff 157 102))) := by
  decide

theorem test_muls_commit : (next (exec .muls (back 0x0C (.ok (.point .inf))))).map (fun t => (t.seq.phase, t.seq.p.ps))
    = some (0x0D, some .inf) := by decide

theorem test_neg_issue : call (exec .neg (st 0x0D)) = some (0x0D, 0x4430, .sent (.bnneg 90)) := by decide

theorem test_neg_commit : (next (exec .neg (back 0x0D (.ok (.int (-90)))))).map (fun t => (t.seq.phase, t.seq.b.bne))
    = some (0x0E, some (-90)) := by decide

theorem test_mulg_issue : call (exec .mulg (st 0x0E)) = some (0x0E, 0x7440, .sent (.pmul 0xA0 (-90) (.aff 1 2))) := by
  decide

theorem test_mulg_commit : (next (exec .mulg (back 0x0E (.ok (.point (.aff 0 198)))))).map
    (fun t => (t.seq.phase, t.seq.p.pt)) = some (0x0F, some (.aff 0 198)) := by decide

theorem test_add_issue : call (exec .add (st 0x0F))
    = some (0x0F, 0x8534, .sent (.padd 0xA0 (.aff 74 72) (.aff 0 198))) := by decide

theorem test_add_commit : (next (exec .add (back 0x0F (.ok (.point (.aff 84 101)))))).map
    (fun t => (t.seq.phase, t.seq.p.pu)) = some (0x10, some (.aff 84 101)) := by decide

theorem test_mulq_issue : call (exec .mulq (st 0x10)) = some (0x10, 0x7655, .sent (.pmul 0xA0 98 (.aff 84 101))) := by
  decide

theorem test_mulq_fails : (next (exec .mulq (back 0x10 .reserved))).bind response = some [0x04, 0x10, 0x00] := by decide

theorem test_enc_commit : (next (exec .enc (back 0x11 (.ok (.bytes [0x04, 0x46, 0x39]))))).map
    (fun t => (t.seq.phase, t.seq.enclen, t.seq.mem.encbuf)) = some (0x12, some 3, [(0, 0x04), (1, 0x46), (2, 0x39)]) := by
  decide

/-- 45 R230: an encoding of the wrong length. -/
theorem test_enc_short : (next (exec .enc (back 0x11 (.ok (.bytes [0x00]))))).bind response = some [0x04, 0x11, 0x00] := by
  decide

/-- 45 R231: the format byte is dropped. -/
theorem test_strip : (next (exec .strip (st 0x12))).map (fun t => (t.seq.phase, t.seq.rlenb, t.seq.mem.result))
    = some (0x13, some 2, [(0, 0x46), (1, 0x39)]) := by decide

/-- 45 R231: the view "4639" of the result 46 39. -/
theorem test_resultView : (match resultView (st 0x13) with
    | .ok view => view
    | .error _ => []) = [0x34, 0x36, 0x33, 0x39] := by decide

theorem test_idle : next (exec .idle (st 0x00)) = some (st 0x00) := by decide

/-- 40 R154's example: the response 00 00 02 46 39, and after it the reset state (R156). -/
theorem test_done_taken : (next (exec .done (stateAt 0x13 (host [] [true]) []))).map (fun t => (t.seq, t.host.rsps))
    = some (Seq.reset, [[0x00, 0x00, 0x02, 0x46, 0x39]]) := by decide

/-- 30 R132: the second request of RECOVER2 is presented when the first one's response is accepted; R301 of 70: never, where
a reset abandons the first. -/
theorem test_second_follows :
    let s := stateAt 0x13 { host [[0x07]] [true] with follow := some [0x01] } []
    (next (exec .done s)).map (fun t => (t.host.reqs, t.host.follow)) = some ([⟨[0x07], none⟩, ⟨[0x01], none⟩], none) ∧
      ((resetNow s).host.reqs, (resetNow s).host.follow) = ([⟨[0x07], none⟩], none) := by decide

/-- 70 R303: the curve table may change between calls. -/
theorem test_table_changes :
    let s := { stateAt 0x14 (host [] [true]) [] with lib := { libSide [] [] with tables := [some [t5], none] } }
    (next (exec .fail s)).map (fun t => (t.lib.params.table, t.lib.tables)) = some ([t5], [none]) := by decide

theorem test_done_held : (next (exec .done (stateAt 0x13 (host [] [false]) []))).map (fun t => (t.seq, t.host.rsps))
    = some (seqAt 0x13, []) := by decide

theorem test_fail_taken : (next (exec .fail (stateAt 0x14 (host [] [true]) []))).map (fun t => (t.seq, t.host.rsps))
    = some (Seq.reset, [[0x04, 0x02, 0x00]]) := by decide

theorem test_fail_held : (next (exec .fail (stateAt 0x14 (host [] [false]) []))).map (fun t => (t.seq, t.host.rsps))
    = some (seqAt 0x14, []) := by decide

theorem test_lc_curve : lib .lcCurve (.curve 0xA0) = some (.ok (.curve 199 181 (.aff 1 2) 1)) := by decide

theorem test_lc_curve_unknown : lib .lcCurve (.curve 0x77) = some .domfail := by decide

/-- 46 R245: "9D" is 157, "0x89" is malformed. -/
theorem test_lc_bnhex : lib (.lcBnhex .br .rhex) (.bnhex [0x39, 0x44]) = some (.ok (.int 157)) := by decide

theorem test_lc_bnhex_malformed : lib (.lcBnhex .bs .shex) (.bnhex [0x30, 0x78, 0x38, 0x39]) = some .domfail := by decide

/-- 46 R246: 12 34 is 4660. -/
theorem test_lc_bnbin : lib (.lcBnbin .be) (.bnbin [0x12, 0x34]) = some (.ok (.int 4660)) := by decide

theorem test_lc_bnneg : lib (.lcBnneg .bne .be) (.bnneg 90) = some (.ok (.int (-90))) := by decide

/-- 46 R248: (157, 181) is 98, (181, 181) has no inverse. -/
theorem test_lc_bninv : lib (.lcBninv .bri .br .bn) (.bninv 157 181) = some (.ok (.int 98)) := by decide

theorem test_lc_bninv_none : lib (.lcBninv .bri .br .bn) (.bninv 181 181) = some .domfail := by decide

/-- 46 R249: (157, 1) is (157, 97), (0, 0) is (0, 198). -/
theorem test_lc_pdec : lib (.lcPdec .pr .bx 1) (.pdec 0xA0 157) = some (.ok (.point (.aff 157 97))) := by decide

theorem test_lc_pdec_none : lib (.lcPdec .pr .bx 0) (.pdec 0xA0 3) = some .domfail := by decide

/-- 46 R250: 137·(157, 102) = (74, 72), (−90)·(1, 2) = (0, 198). -/
theorem test_lc_pmul : lib (.lcPmul .ps .bs .pr) (.pmul 0xA0 137 (.aff 157 102)) = some (.ok (.point (.aff 74 72))) := by
  decide

theorem test_lc_pmul_negative : lib (.lcPmul .pt .bne .pg) (.pmul 0xA0 (-90) (.aff 1 2))
    = some (.ok (.point (.aff 0 198))) := by decide

/-- 46 R251: (74, 72) + (0, 198) = (84, 101), (0, 1) + (0, 198) = INF. -/
theorem test_lc_padd : lib (.lcPadd .pu .ps .pt) (.padd 0xA0 (.aff 74 72) (.aff 0 198))
    = some (.ok (.point (.aff 84 101))) := by decide

theorem test_lc_padd_opposite : lib (.lcPadd .pu .ps .pt) (.padd 0xA0 (.aff 0 1) (.aff 0 198))
    = some (.ok (.point .inf)) := by decide

theorem test_lc_pinf : lib (.lcPinf .pchk) (.pinf .inf) = some (.ok (.bit 1)) := by decide

theorem test_lc_pinf_affine : lib (.lcPinf .pchk) (.pinf (.aff 110 0)) = some (.ok (.bit 0)) := by decide

/-- 46 R253: (70, 57) is F 46 39, F of any value. -/
theorem test_lc_penc : ∃ f, lib (.lcPenc .pq) (.penc 0xA0 (.aff 70 57)) = some (.ok (.bytes [f, 0x46, 0x39])) := ⟨_, rfl⟩

/-- 46 R242: a call may answer RESFAIL. -/
theorem test_lc_resfail : reply (exec (.lcPinf .pchk) (asked 0x09 0x9020 (.pinf .inf) [true])) = some .resfail := by decide

/-! ### Witnesses: the invariant holds somewhere at every PHASE code -/

theorem at'_isSome {α : Type} (w : Nat) (c : PhaseCode) (x : α) : (at' w c x).isSome = written w c := by
  unfold at'; split <;> simp_all

theorem latched_isSome {α : Type} (c : PhaseCode) (x : α) : (latched c x).isSome = decide (c ≠ 0x00) := by
  unfold latched; split <;> simp_all

theorem at'_eq {α : Type} {w : Nat} {c : PhaseCode} {x y : α} (h : at' w c x = some y) : written w c = true ∧ x = y := by
  unfold at' at h; split at h <;> simp_all

theorem at'_none {α : Type} {w : Nat} {c : PhaseCode} {x : α} (h : at' w c x = none) : written w c = false := by
  unfold at' at h; split at h <;> simp_all

theorem latched_eq {α : Type} {c : PhaseCode} {x y : α} (h : latched c x = some y) : ¬ c = 0#5 ∧ x = y := by
  unfold latched at h; split at h <;> simp_all

theorem latched_none {α : Type} {c : PhaseCode} {x : α} (h : latched c x = none) : c = 0x00 := by
  unfold latched at h; split at h <;> simp_all

theorem cells_busy {c : PhaseCode} (h : ¬ c = 0#5) (cells : List Host.Cell) : cellsAt (c ≠ 0x00) cells = cells :=
  if_pos (decide_eq_true h)

theorem written_mono {w u : Nat} {c : PhaseCode} (h : written w c = true) (hu : u ≤ w) : written u c = true := by
  simp only [written, Bool.and_eq_true, decide_eq_true_eq] at h ⊢; omega

theorem written_phase {w : Nat} {c : PhaseCode} (h : written w c = true) : ¬ c = 0#5 := by
  rintro rfl; simp [written] at h

theorem inv_stateAt (c : PhaseCode) (hc : c.toNat ≤ 0x14) (h : HostSide) (fails : List Bool) : Inv (stateAt c h fails) := by
  refine ⟨hc, by simp [stateAt, libSide, params], ?_, ?_, ?_, ?_, ⟨fun _ => rfl, fun h => by cases h⟩, ?_, ?_⟩
  · constructor <;> exact at'_isSome _ _ _
  · constructor <;> exact latched_isSome _ _
  · constructor
    · intro n hn; obtain ⟨h0, rfl⟩ := latched_eq hn; simp only [stateAt, seqAt, cells_busy h0]; rfl
    · intro n hn; obtain ⟨h0, rfl⟩ := latched_eq hn; simp only [stateAt, seqAt, cells_busy h0]; rfl
    · intro n hn; obtain ⟨h0, rfl⟩ := latched_eq hn; simp only [stateAt, seqAt, cells_busy h0]; rfl
    · intro n hn; obtain ⟨h0, rfl⟩ := at'_eq hn; simp [stateAt, seqAt, cellsAt, h0]; decide
    · intro n hn; obtain ⟨h0, rfl⟩ := at'_eq hn; simp [stateAt, seqAt, cellsAt, h0]; decide
    · intro hn; simp [stateAt, seqAt, cellsAt, latched_none hn]
    · intro hn; simp [stateAt, seqAt, cellsAt, latched_none hn]
    · intro hn; simp [stateAt, seqAt, cellsAt, latched_none hn]
    · intro hn; simp [stateAt, seqAt, cellsAt, at'_none hn]
    · intro hn; simp [stateAt, seqAt, cellsAt, at'_none hn]
  · constructor
    · intro l hl; obtain ⟨-, rfl⟩ := at'_eq hl; simp [stateAt, libSide, params]
    · intro e he
      obtain ⟨h0, rfl⟩ := at'_eq he
      exact ⟨1, 1, by simp [stateAt, seqAt, latched, written_phase h0],
        by simp [stateAt, seqAt, at', written_mono h0 (show 2 ≤ 5 by decide)], rfl⟩
    · intro e he
      obtain ⟨h0, rfl⟩ := at'_eq he
      exact ⟨1, by simp [stateAt, seqAt, at', written_mono h0 (show 2 ≤ 0x11 by decide)], rfl⟩
    · intro e he
      obtain ⟨h0, rfl⟩ := at'_eq he
      exact ⟨1, by simp [stateAt, seqAt, at', written_mono h0 (show 2 ≤ 0x12 by decide)], rfl⟩
  · have key : ∀ c : PhaseCode, errorsOk (seqAt c) = true := by decide
    exact key c
  · have key : ∀ c : PhaseCode, (seqAt c).mem.wf = true := by decide
    exact key c

/-! ### Witnesses: encodings and steps -/

/-- DecodeOfEncode: the longest request, and a descriptor. -/
theorem wit_decodeOfEncode : (Instr.recover 255 0 (List.replicate 65535 0) (List.replicate 255 0) []).wf = true ∧
    (Instr.lcPdec .pq .bp 1).wf = true ∧ encode (.lcPdec .pq .bp 1) = some (.lcd 0x6671) := by
  refine ⟨?_, rfl, rfl⟩
  simp only [Instr.wf, lengthsFit, List.length_replicate]; decide

theorem wit_encodeOfDecode : decode (.req [0x01, 5, 0xA0, 0, 0, 0, 0]) = .ok (.recover 5 0xA0 [] [] []) ∧
    decode (.uop 0x14) = .ok .fail ∧ decode (.lcd 0x2010) = .ok (.lcBnhex .br .shex) := ⟨rfl, rfl, rfl⟩

theorem wit_reservedRejected : 0x15 ≤ (0x15 : PhaseCode).toNat ∧ 0x15 ≤ (0x1F : PhaseCode).toNat ∧
    (0x0FFF : LcdWord).toNat / 4096 = 0 ∧ 0xB ≤ (0xB000 : LcdWord).toNat / 4096 ∧ (0x00 : Byte) ≠ 0x01 ∧
    (0x02 : Byte) ≠ 0x01 := by decide

theorem wit_requestFields : ([0x5A, 0x39] : List Byte).length
      = 256 * (0 : Byte).toNat + (1 : Byte).toNat + (1 : Byte).toNat + (0 : Byte).toNat ∧
    ([0x5A] : List Byte).length ≠ 256 * (1 : Byte).toNat + (0 : Byte).toNat + (0 : Byte).toNat + (0 : Byte).toNat := by
  decide

/-- No call is sent in the states of `stateAt`. -/
theorem not_sent (c : PhaseCode) (h : HostSide) (fails : List Bool) : ¬ ∃ m, sent (stateAt c h fails) m := by
  rintro ⟨m, h, -⟩; cases h

theorem wit_stepRunsDecoded :
    (sent (asked 0x09 0x9020 (.pinf .inf) []) (.pinf .inf) ∧ decode (.lcd 0x9020) = .ok (.lcPinf .pchk) ∧
        decode (.uop (asked 0x09 0x9020 (.pinf .inf) []).seq.phase) = .ok .ordchk ∧
        drawReady (libSide [true] []) = (true, libSide [] []) ∧ drawReady (libSide [false] []) = (false, libSide [] [])) ∧
      ((st 0x12).host.rst = false ∧ (¬ ∃ m, sent (st 0x12) m) ∧ (st 0x12).seq.phase ≠ 0x00 ∧
        decode (.uop 0x12) = .ok .strip) ∧
      ((stateAt 0x00 (host [[0x01, 0, 0, 0, 0, 0, 0]] []) []).host.reqs = ⟨[0x01, 0, 0, 0, 0, 0, 0], none⟩ :: [] ∧
        decode (.req [0x01, 0, 0, 0, 0, 0, 0]) = .ok (.recover 0 0 [] [] [])) ∧
      ((st 0x00).seq.phase = 0x00 ∧ (st 0x00).host.reqs = []) :=
  ⟨⟨⟨rfl, rfl⟩, rfl, rfl, rfl, rfl⟩, ⟨rfl, not_sent _ _ _, by decide, rfl⟩, ⟨rfl, rfl⟩, rfl, rfl⟩

theorem wit_stepStops :
    (((∃ m, sent (st 0x15) m) → (drawReady (st 0x15).lib).1 = false) ∧ 0x15 ≤ (st 0x15).seq.phase.toNat) ∧
      ((¬ ∃ m, sent (stateAt 0x00 (host [[0x00]] []) []) m) ∧ (0x00 : Byte) ≠ 0x01) ∧
      decode (.req [0x01, 0, 0, 0, 0, 0, 1]) = .error .badLength ∧
      (sent (asked 0x09 0xB000 (.pinf .inf) []) (.pinf .inf) ∧ (drawReady (asked 0x09 0xB000 (.pinf .inf) []).lib).1 = true ∧
        ∀ i, decode (.lcd 0xB000) ≠ .ok i) :=
  ⟨⟨fun h => absurd h (not_sent _ _ _), by decide⟩, ⟨not_sent _ _ _, by decide⟩, rfl, ⟨rfl, rfl⟩, rfl,
    fun i h => by cases h⟩

theorem wit_resetInput : ({ st 0x08 with host := { host [] [] with rst := true } } : State).host.rst = true := rfl

/-! ### Witnesses: the host interface -/

theorem wit_recoverAccepts : (st 0x00).seq.phase = 0x00 ∧ (List.replicate 65535 (0 : Byte)).length < 65536 ∧
    (List.replicate 255 (0x30 : Byte)).length < 256 := by
  refine ⟨rfl, ?_, ?_⟩ <;> rw [List.length_replicate] <;> decide

theorem wit_requestsWait : (st 0x01).seq.phase ≠ 0x00 ∧ (st 0x14).seq.phase ≠ 0x00 := by decide

theorem wit_responseTaken : (st 0x13).seq.rlenb = some 2 ∧ readCells (st 0x13).seq.mem.result 0 2 = some [0x46, 0x39] ∧
    drawTake (host [] [true]) = (true, host [] []) ∧ drawTake (host [] [false]) = (false, host [] []) := by decide

/-- With no scripted answer left the host's answer is the free value. -/
theorem wit_responseTaken_unscripted : ∃ b h, drawTake (host [] []) = (b, h) ∧ h.takeIx = 1 := ⟨_, _, rfl, rfl⟩

theorem wit_responseChannel : Inv (st 0x13) ∧ Inv (st 0x14) ∧ Inv (st 0x12) ∧
    response (st 0x13) = some [0x00, 0x00, 0x02, 0x46, 0x39] ∧ response (st 0x14) = some [0x04, 0x02, 0x00] ∧
    response (st 0x12) = none :=
  ⟨inv_stateAt _ (by decide) _ _, inv_stateAt _ (by decide) _ _, inv_stateAt _ (by decide) _ _, by decide, by decide,
    by decide⟩

/-- ORDMUL with its call in flight. -/
def inOrdmul (ch : Chan) (ready : List Bool) : State :=
  { asked 0x08 0x7261 (.pmul 0xA0 181 (.aff 157 102)) [] with chan := ch, lib := libSide ready [] }

theorem inv_inOrdmul {ch : Chan} (h : inFlight (.lcPmul .pchk .bn .pr) ch = true) (ready : List Bool) :
    Inv (inOrdmul ch ready) := by
  obtain ⟨h1, h2, h3, h4, h5, h6, -, h8, h9⟩ := inv_stateAt 0x08 (by decide) (host [] []) []
  exact ⟨h1, h2, by constructor <;> rfl, by constructor <;> rfl,
    ⟨h5.1, h5.2, h5.3, h5.4, h5.5, h5.6, h5.7, h5.8, h5.9, h5.10⟩, ⟨h6.1, h6.2, h6.3, h6.4⟩,
    ⟨fun e => by (cases e), fun _ => ⟨.lcPmul .pchk .bn .pr, rfl, rfl, h⟩⟩, h8, h9⟩

/-- ORDMUL, its call answered with a point whose X-coordinate is the largest below p. -/
def atOrdmul : State := inOrdmul (.returned (.ok (.point (.aff 198 0)))) []

/-! ### Witnesses: the micro-ops -/

theorem wit_returned (c : PhaseCode) (r : LRet) : returned (back c r) r := ⟨rfl, rfl⟩

theorem wit_vridRule : (0 : Byte).toNat = 0 ∧ (27 : Byte).toNat = 27 ∧ (1 : Byte).toNat = 1 ∧ (28 : Byte).toNat = 28 ∧
    (2 : Byte).toNat ∉ [0, 1, 27, 28] ∧ (26 : Byte).toNat ∉ [0, 1, 27, 28] ∧ (29 : Byte).toNat ∉ [0, 1, 27, 28] ∧
    (255 : Byte).toNat ∉ [0, 1, 27, 28] ∧ (st 0x01).seq.recid = some 5 := by decide

/-- Parameters at the edge of what fits, and just past it: L = LMAX and LMAX + 1, L = 0, p = 256^L, n = 2^(8·LMAX + 1). -/
theorem wit_curveRule : (st 0x02).seq.callpend = false ∧ (st 0x02).seq.curveid = some 0xA0 ∧
    (1 ≤ (2 : Byte).toNat ∧ (2 : Byte).toNat ≤ (st 0x02).lib.params.lmax ∧ 65535 < 256 ^ (2 : Byte).toNat ∧
      2 ^ 17 - 1 < 2 ^ (8 * (st 0x02).lib.params.lmax + 1)) ∧
    (0 < 1 ∧ (st 0x02).lib.params.lmax < 3 ∧ 256 ^ 2 ≤ 65536 ∧ 2 ^ (8 * (st 0x02).lib.params.lmax + 1) ≤ 2 ^ 17) := by
  decide

theorem wit_parseRules : (st 0x03).seq.callpend = false ∧ (st 0x03).seq.rlen = some 2 ∧
    readCells (st 0x03).seq.mem.rhex 0 2 = some [0x39, 0x64] ∧ (st 0x04).seq.slen = some 2 ∧
    readCells (st 0x04).seq.mem.shex 0 2 = some [0x38, 0x39] ∧ readCells [] 0 (0 : Byte).toNat = some [] := by decide

theorem wit_truncRule : (st 0x05).seq.dlen = some 1 ∧ (st 0x05).seq.cpL = some 1 := by decide

theorem wit_setxRule : (st 0x06).seq.b.br = some 157 := by decide

theorem wit_decompRule : (st 0x07).seq.callpend = false ∧ (st 0x07).seq.curveid = some 0xA0 ∧
    (st 0x07).seq.b.bx = some 157 ∧ (st 0x07).seq.v = some 0 ∧
    ({ st 0x07 with seq := { seqAt 0x07 with v := some 1 } } : State).seq.v = some 1 := by decide

theorem wit_ordmulRule : (st 0x08).seq.curveid = some 0xA0 ∧ (st 0x08).seq.b.bn = some 181 ∧
    (st 0x08).seq.p.pr = some (.aff 157 102) := by decide

theorem wit_ordchkRule : (st 0x09).seq.callpend = false ∧ (st 0x09).seq.p.pchk = some .inf := by decide

/-- DEFF = min(DLEN, LMAX) here, and the empty digest. -/
theorem wit_eloadRule : (st 0x0A).seq.deff = some 1 ∧ (st 0x0A).seq.dlen = some 1 ∧
    (1 : BitVec 8).toNat ≤ (1 : BitVec 16).toNat ∧ (1 : BitVec 8).toNat ≤ (st 0x0A).lib.params.lmax ∧
    readCells (st 0x0A).seq.mem.digest 0 1 = some [0x5A] ∧
    readCells (st 0x0A).seq.mem.digest 0 (0 : BitVec 8).toNat = some [] := by decide

theorem wit_invertRule : (st 0x0B).seq.b.br = some 157 ∧ (st 0x0B).seq.b.bn = some 181 := by decide

theorem wit_multiplyRules : ((st 0x0C).seq.b.bs = some 137 ∧ (st 0x0C).seq.p.pr = some (.aff 157 102)) ∧
    ((st 0x0E).seq.b.bne = some (-90) ∧ (st 0x0E).seq.p.pg = some (.aff 1 2)) ∧
    ((st 0x10).seq.b.bri = some 98 ∧ (st 0x10).seq.p.pu = some (.aff 84 101)) := by decide

theorem wit_negAddRules : (st 0x0D).seq.b.be = some 90 ∧ (st 0x0F).seq.p.ps = some (.aff 74 72) ∧
    (st 0x0F).seq.p.pt = some (.aff 0 198) ∧ (st 0x0F).seq.curveid = some 0xA0 := by decide

theorem wit_encRule : (st 0x11).seq.p.pq = some (.aff 70 57) ∧ (st 0x11).seq.cpL = some 1 ∧
    (1 : Byte).toNat ≤ (st 0x11).lib.params.lmax ∧ ([0x04, 0x46, 0x39] : List Byte).length = 2 * (1 : Byte).toNat + 1 ∧
    ([] : List Byte).length ≠ 2 * (1 : Byte).toNat + 1 := by decide

theorem wit_stripRule : (st 0x12).seq.cpL = some 1 ∧ (1 : Byte).toNat ≤ 127 ∧
    (1 : Byte).toNat ≤ (st 0x12).lib.params.lmax ∧ (st 0x12).seq.enclen = some 3 ∧
    2 * (1 : Byte).toNat + 1 ≤ (3 : BitVec 9).toNat ∧
    readCells (st 0x12).seq.mem.encbuf 1 (2 * (1 : Byte).toNat) = some [0x46, 0x39] := by decide

theorem wit_microOpWaits : hasCall .curve = true ∧ hasCall .enc = true ∧
    sent (asked 0x02 0x1000 (.curve 0xA0) []) (.curve 0xA0) := ⟨rfl, rfl, rfl, rfl⟩

/-- A call on which LIB draws twice that it does not answer yet, and then that it does. -/
theorem wit_libWithholds :
    let m : LMsg := .pmul 0xA0 181 (.aff 157 102)
    let s := inOrdmul (.sent m) [false, false, true]
    Inv s ∧ s.host.rst = false ∧ sent s m ∧ s.lib.ready = List.replicate 2 false ++ [true] :=
  ⟨inv_inOrdmul rfl _, rfl, ⟨rfl, rfl⟩, rfl⟩

/-- LIB not answering, a step waits; answering, a step runs the call in LCD. -/
theorem test_step_lib : let m : LMsg := .pmul 0xA0 0 (.aff 157 102)
    (step (inOrdmul (.sent m) [false]) = .next (inOrdmul (.sent m) [])) ∧
      (next (step { inOrdmul (.sent m) [true] with lib := libSide [true] [false] })).map (fun t => t.chan)
        = some (.returned (.ok (.point .inf))) := ⟨rfl, by decide⟩

/-- At reset every operand of every micro-op is invalid. -/
theorem wit_invalidReadFaults : State.reset.seq.callpend = false ∧
    ∀ i ∈ [Instr.vrid, .curve, .parser, .parses, .trunc, .setx, .decomp, .ordmul, .ordchk, .eload, .inv, .muls, .neg, .mulg,
      .add, .mulq, .enc, .strip, .done], ∃ r ∈ operands i, valid State.reset.seq r = false := by decide

theorem wit_invalidReadAtCommit :
    let s : State := { back 0x11 (.ok (.bytes [0x04, 0x46, 0x39])) with
      seq := { (back 0x11 .resfail).seq with cpL := none } }
    returned s (.ok (.bytes [0x04, 0x46, 0x39])) ∧ s.seq.cpL = none := ⟨⟨rfl, rfl⟩, rfl⟩

theorem wit_microOpFrame : (st 0x05).lib.params.lmax ≤ 127 ∧ (st 0x12).lib.params.lmax ≤ 127 ∧ isMicroOp .trunc = true ∧ encode .trunc = some (.uop 0x05) ∧
    (∃ t, exec .trunc (st 0x05) = .next t) ∧ isMicroOp .strip = true ∧ encode .strip = some (.uop 0x12) ∧
    ∃ t, exec .strip (st 0x12) = .next t := ⟨by decide, by decide, rfl, rfl, ⟨_, rfl⟩, rfl, rfl, ⟨_, rfl⟩⟩

/-! ### Witnesses: the library calls -/

/-- A state in which LIB is asked anything, with the draw the statements name. -/
theorem wit_answers (m : LMsg) : (asked 0x02 0 m [false]).chan = .sent m ∧ (asked 0x02 0 m [false]).lib.params = params ∧
    drawFail (asked 0x02 0 m [false]).lib = (false, libSide [true] []) := ⟨rfl, rfl, rfl⟩

theorem wit_resourceFailure : argsMatch (.lcCurve) (.curve 0) = true ∧ argsMatch (.lcPenc .pq) (.penc 0 .inf) = true ∧
    drawFail (asked 0x02 0 (.curve 0) [true]).lib = (true, libSide [true] []) :=
  ⟨rfl, rfl, rfl⟩

theorem wit_curveLookup : params.table = [ta] ++ t5 :: [] ∧ t5.id = 0x05 ∧ (∀ d ∈ [ta], d.id ≠ 0x05) ∧
    ∀ d ∈ params.table, d.id ≠ 0x77 := by decide

theorem wit_hexParse : ([0x39, 0x64] : List Byte) ≠ [] ∧ ([0x39, 0x64] : List Byte).map digitOf = [9, 13].map some ∧
    (∃ x ∈ ([0x39, 0x67] : List Byte), digitOf x = none) ∧ positional 16 [9, 13] = 157 := by decide

/-- The least modulus, with and without an inverse. -/
theorem wit_modularInverse : (2 : Int) ≤ 2 ∧ Int.gcd (1 % 2) 2 = 1 ∧ Int.gcd (0 % 2) 2 ≠ 1 ∧
    Int.gcd (157 % 181) 181 = 1 ∧ Int.gcd (181 % 181) 181 ≠ 1 := by decide

theorem good_t5 : GoodCurve t5 := ⟨by norm_num [t5], by decide, by decide⟩

/-- The points of t5. -/
def t5Points : List Point := [.inf, .aff 0 1, .aff 0 4, .aff 1 2, .aff 1 3, .aff 3 2, .aff 3 3]

theorem mem_t5Points {q : Point} (h : onCurve t5 q) : q ∈ t5Points := by
  cases q with
  | inf => decide
  | aff x y =>
    obtain ⟨hx, hy, he⟩ := h
    have key : ∀ x < 5, ∀ y < 5, y * y % 5 = curveRhs t5 x → Point.aff x y ∈ t5Points := by decide
    exact key x hx y hy he

/-- Being on t5, as the kernel evaluates it. -/
def onT5 : Point → Bool
  | .inf => true
  | .aff x y => decide (x < 5 ∧ y < 5 ∧ y * y % 5 = curveRhs t5 x)

theorem onCurve_of_onT5 {q : Point} (h : onT5 q = true) : onCurve t5 q := by
  cases q with
  | inf => trivial
  | aff x y =>
    have key : x < 5 ∧ y < 5 ∧ y * y % 5 = curveRhs t5 x := of_decide_eq_true h
    exact key

theorem t5_closed : ∀ q ∈ t5Points, onT5 (negPoint t5 q) = true ∧ addPoint t5 q .inf = q ∧
    addPoint t5 q (negPoint t5 q) = .inf ∧ mulPoint t5 7 q = .inf := by decide

theorem t5_comm : ∀ q ∈ t5Points, ∀ r ∈ t5Points, onT5 (addPoint t5 q r) = true ∧ addPoint t5 q r = addPoint t5 r q := by
  decide

theorem t5_assoc : ∀ q ∈ t5Points, ∀ r ∈ t5Points, ∀ u ∈ t5Points,
    addPoint t5 (addPoint t5 q r) u = addPoint t5 q (addPoint t5 r u) := by decide

theorem laws_t5 : GroupLaws t5 where
  addClosed q r hq hr := onCurve_of_onT5 (t5_comm q (mem_t5Points hq) r (mem_t5Points hr)).1
  negClosed q hq := onCurve_of_onT5 (t5_closed q (mem_t5Points hq)).1
  assoc q r u hq hr hu := t5_assoc q (mem_t5Points hq) r (mem_t5Points hr) u (mem_t5Points hu)
  comm q r hq hr := (t5_comm q (mem_t5Points hq) r (mem_t5Points hr)).2
  zero q hq := (t5_closed q (mem_t5Points hq)).2.1
  neg q hq := (t5_closed q (mem_t5Points hq)).2.2.1

theorem lawful_t5 : LawfulCurve t5 where
  good := good_t5
  laws := laws_t5
  base := onCurve_of_onT5 rfl
  baseNotInf := by decide
  order := by norm_num [t5]
  kills q hq := (t5_closed q (mem_t5Points hq)).2.2.2
  width := by decide

theorem find_t5 : findCurve params.table 0x05 = some t5 := rfl

/-- Every clause: the point with x = 0 and each parity, no point with x = 2, x = −1, x = p. -/
theorem wit_decompress : findCurve params.table 0x05 = some t5 ∧ GoodCurve t5 ∧
    (onCurve t5 (.aff (0 : Int).toNat 1) ∧ 1 % 2 = (1 : BitVec 1).toNat) ∧
    ((2 : Int) < t5.p ∧ ∀ y : Nat, onCurve t5 (.aff (2 : Int).toNat y) → y % 2 ≠ (0 : BitVec 1).toNat) ∧
    (-1 : Int) < 0 ∧ ((t5.p : Int) ≤ 5 ∧ params.decompOor = .domfail) := by
  refine ⟨rfl, good_t5, ⟨onCurve_of_onT5 rfl, rfl⟩, ⟨by decide, ?_⟩, by decide, by decide, rfl⟩
  intro y h
  have := mem_t5Points h
  simp [t5Points] at this

/-- The last clause of Decompress: x = p with DECOMP_OOR = reduce. -/
theorem wit_decompress_reduce : (t5.p : Int) ≤ 5 ∧ ({ params with decompOor := .reduce } : Params).decompOor = .reduce ∧
    answers { params with decompOor := .reduce } (.lcPdec .pr .bx 1) (.pdec 0x05 (5 % t5.p)) (.ok (.point (.aff 0 1))) :=
  ⟨by decide, rfl, answers_pdec _ _ _ _ _ _⟩

theorem wit_scalarMultiplication : findCurve params.table 0x05 = some t5 ∧ GroupLaws t5 ∧ onCurve t5 .inf ∧
    onCurve t5 (.aff 3 2) := ⟨rfl, laws_t5, trivial, onCurve_of_onT5 rfl⟩

theorem wit_pointAddition : findCurve params.table 0xA0 = some ta ∧ onCurve ta .inf ∧ onCurve ta (.aff 0 1) :=
  ⟨rfl, trivial, by decide, by decide, by decide⟩

/-- The largest coordinate that L bytes hold. -/
theorem wit_pointEncoding : findCurve params.table 0xA0 = some ta ∧ 255 < 256 ^ ta.l ∧ 0 < 256 ^ ta.l := by decide

theorem wit_openAnswers : (1 : Int) < 2 ∧ (-3 : Int) < 2 ∧ findCurve params.table 0x77 = none := by decide

theorem wit_curveGroupLaws : GoodCurve ta := ⟨by norm_num [ta], by decide, by decide⟩

theorem wit_selectorProperty : findCurve params.table 0x05 = some t5 ∧ GoodCurve t5 ∧
    libPdec params 0x05 0 1 = .ok (.point (.aff 0 1)) ∧ 1 ≠ 0 ∧ (1 : BitVec 1) ≠ 0 :=
  ⟨rfl, good_t5, by decide, by decide, by decide⟩

/-! ### Witnesses: invariants and whole calls -/

/-- A step from a state of the invariant: TRUNC, and the taking of a response. -/
theorem wit_stepKeepsInv : Inv (st 0x05) ∧ (∃ t, step (st 0x05) = .next t) ∧ Inv (stateAt 0x13 (host [] [true]) []) ∧
    ∃ t, step (stateAt 0x13 (host [] [true]) []) = .next t :=
  ⟨inv_stateAt _ (by decide) _ _, ⟨_, rfl⟩, inv_stateAt _ (by decide) _ _, ⟨_, rfl⟩⟩

theorem wit_memoryCanonical : (st 0x12).seq.mem.wf = true ∧ ∃ t, step (st 0x12) = .next t := ⟨by decide, ⟨_, rfl⟩⟩

theorem fits_small {v : Int} (h : v.natAbs < 2 ^ 8) : fits params.lmax v :=
  lt_of_lt_of_le h (Nat.pow_le_pow_right (by decide) (by decide))

theorem wit_stepKeepsMagnitudes : MagnitudesFit (st 0x05) ∧ ∃ t, step (st 0x05) = .next t := by
  refine ⟨⟨?_, trivial⟩, ⟨_, rfl⟩⟩
  intro r v h
  cases r <;> simp [st, stateAt, seqAt, at', written, BFile.get] at h <;> subst h <;> exact fits_small (by decide)

/-- The curve table of the tests is in range (46 R244): what the reset and the points' statements suppose of parameters. -/
theorem wit_tableFits : TableFits params := by
  intro c hc
  simp only [params, List.mem_cons, List.not_mem_nil, or_false] at hc
  rcases hc with rfl | rfl <;> exact ⟨by decide, by decide, by decide⟩

theorem pointsFit_atOrdmul : PointsFit atOrdmul := by
  refine ⟨wit_tableFits, ?_, ?_, ⟨ta, rfl, by decide, by decide⟩⟩
  · intro p l hp hl
    cases hp; cases hl
    exact ⟨ta, rfl, by decide⟩
  · intro r q h
    refine ⟨199, 1, rfl, rfl, ?_⟩
    cases r <;> cases h <;> exact ⟨⟨by decide, by decide⟩, by decide⟩

theorem wit_stepKeepsPoints : Inv atOrdmul ∧ PointsFit atOrdmul ∧
    ∃ t, step atOrdmul = .next t ∧ TableFits t.lib.params ∧ t.seq.p.pchk = some (.aff 198 0) :=
  ⟨inv_inOrdmul rfl _, pointsFit_atOrdmul, _, rfl, wit_tableFits, rfl⟩

theorem wit_stepNeverStops : Inv (stateAt 0x00 (host [[0x02]] []) []) ∧
    step (stateAt 0x00 (host [[0x02]] []) []) = .refused (.reservedCmd 0x02) := ⟨inv_stateAt _ (by decide) _ _, rfl⟩

theorem wit_idleHoldsNothing : Inv (st 0x00) ∧ (st 0x00).seq.phase = 0x00 := ⟨inv_stateAt _ (by decide) _ _, rfl⟩

theorem wit_phaseMoves : Inv (st 0x12) ∧ (st 0x12).host.rst = false ∧ ∃ t, step (st 0x12) = .next t :=
  ⟨inv_stateAt _ (by decide) _ _, rfl, ⟨_, rfl⟩⟩

theorem wit_failureRecords : Inv (st 0x01) ∧ (st 0x01).seq.phase ≠ 0x14 ∧
    ∃ t, step (st 0x01) = .next t ∧ t.seq.phase = 0x14 := ⟨inv_stateAt _ (by decide) _ _, by decide, ⟨_, rfl, rfl⟩⟩

theorem wit_callInputsStay : Inv (st 0x05) ∧ (st 0x05).host.rst = false ∧ (st 0x05).seq.phase ≠ 0x00 ∧
    ∃ t, step (st 0x05) = .next t ∧ t.seq.phase ≠ 0x00 :=
  ⟨inv_stateAt _ (by decide) _ _, rfl, by decide, ⟨_, rfl, by decide⟩⟩

theorem wit_callEnds :
    let s : State := { st 0x01 with lib := libSide (List.replicate 14 true) [] }
    Inv s ∧ s.host.rst = false ∧ s.seq.phase ≠ 0x00 ∧ 14 ≤ s.lib.ready.count true :=
  ⟨inv_draw (inv_stateAt _ (by decide) _ _) _ rfl, rfl, by decide, by decide⟩

/-- The request of 40 R151's example at IDLE, with DECOMP's call to answer RESFAIL. -/
theorem wit_callComputesRecover :
    let f : PhaseCode → Bool := fun c => c = Code.decomp
    let s := { stateAt 0x00 (host [reqBytes 0 0xA0 [0x5A] [0x39, 0x64] [0x38, 0x39]] []) [] with
      lib := libSide (List.replicate 14 true) (callCodes.map f ++ []) }
    Inv s ∧ s.host.rst = false ∧ s.seq.phase = 0x00 ∧
      s.host.reqs = ⟨reqBytes 0 0xA0 [0x5A] [0x39, 0x64] [0x38, 0x39], none⟩ :: [] ∧
      s.lib.fails = callCodes.map f ++ [] ∧ 14 ≤ s.lib.ready.count true :=
  ⟨inv_draw (inv_stateAt _ (by decide) _ _) _ rfl, rfl, rfl, rfl, rfl, by decide⟩

/-- One request on two machines that differ in HEXCASE, in what waits behind it, in the host's answers and the later draws;
on both, DECOMP's call answers RESFAIL. -/
theorem wit_callPurity :
    let f : PhaseCode → Bool := fun c => c = Code.decomp
    let req : List Byte := [0x01, 0x00, 0xA0, 0x02, 0x02, 0x00, 0x01, 0x5A, 0x39, 0x64, 0x38, 0x39]
    let s := { stateAt 0x00 (host [req] []) [] with lib := libSide (List.replicate 14 true) (callCodes.map f ++ []) }
    let u : State := { stateAt 0x00 (host [req, [0xFF]] [true]) [] with
      lib := { libSide (false :: List.replicate 14 true) (callCodes.map f ++ [true]) with
        params := { params with hexcase := .upper }, failIx := 7 } }
    Inv s ∧ Inv u ∧ s.host.rst = false ∧ u.host.rst = false ∧ s.seq.phase = 0x00 ∧ u.seq.phase = 0x00 ∧
      s.host.reqs.head? = some ⟨req, none⟩ ∧ u.host.reqs.head? = some ⟨req, none⟩ ∧
      decode (.req req) = .ok (.recover 0 0xA0 [0x5A] [0x39, 0x64] [0x38, 0x39]) ∧
      s.lib.params.table = u.lib.params.table ∧ s.lib.params.lmax = u.lib.params.lmax ∧
      s.lib.params.decompOor = u.lib.params.decompOor ∧ s.lib.fails = callCodes.map f ++ [] ∧
      u.lib.fails = callCodes.map f ++ [true] ∧ 14 ≤ s.lib.ready.count true ∧ 14 ≤ u.lib.ready.count true := by
  have h := inv_stateAt 0x00 (by decide) (host [] []) []
  exact ⟨inv_draw (inv_stateAt _ (by decide) _ _) _ rfl,
    ⟨h.phase, h.lmax, h.data, h.latch, h.buffers, h.sizes, ⟨h.call.1, h.call.2⟩, h.errors, h.canonical⟩,
    rfl, rfl, rfl, rfl, rfl, rfl, rfl, rfl, rfl, rfl, rfl, rfl, by decide, by decide⟩

theorem wit_hexView : (st 0x13).seq.rlenb = some 2 ∧ readCells (st 0x13).seq.mem.result 0 2 = some [0x46, 0x39] := by decide

theorem wit_digestTruncates : findCurve params.table 0xA0 = some ta := rfl

/-- A signature on t5: d = 3, k = 2, 2·G = (1, 3), e = 5, s = 4·(5 + 1·3) mod 7 = 4, 3·G = (3, 3). -/
theorem wit_signerRecovers :
    findCurve params.table 0x05 = some t5 ∧ LawfulCurve t5 ∧ 1 ≤ t5.l ∧ t5.l ≤ params.lmax ∧
      t5.n < 2 ^ (8 * params.lmax + 1) ∧ 3 < t5.n ∧ 2 < t5.n ∧ 2 * 4 % t5.n = 1 ∧ mulPoint t5 2 t5.g = .aff 1 3 ∧
      5 = positional 256 (([0x05, 0xFF] : List Byte).take t5.l |>.map BitVec.toNat) ∧ 4 = 4 * (5 + 1 * 3) % t5.n ∧
      libBnhex [0x31] = .ok (.int (1 : Nat)) ∧ libBnhex [0x34] = .ok (.int (4 : Nat)) ∧ canonicalId 28 = some 1 ∧
      (1 : BitVec 1).toNat = 3 % 2 ∧ mulPoint t5 3 t5.g = .aff 3 3 :=
  ⟨rfl, lawful_t5, by decide, by decide, by decide, by decide, by decide, by decide, by decide, by decide, by decide,
    by decide, by decide, by decide, by decide, by decide⟩

end Sys2Proof.Tests
end

section
/-! PROOFS. What each micro-op without a library call can do, said once, and the frame of the micro-ops (10_state R38
to R46): one lemma for each way a micro-op ends, and `MicroOpFrame` from them. -/

namespace Sys2Proof.Proofs

open Sys2Proof Sys2Proof.Machine Sys2Proof.Safety

/-! ### All that a micro-op without a call can do, and DECOMP's issue -/

/-- A computation that succeeds has succeeded at its first step and at the rest. -/
theorem bind_ok {α β : Type} {x : Except Fault α} {f : α → Except Fault β} {b : β} (h : x >>= f = .ok b) :
    ∃ a, x = .ok a ∧ f a = .ok b := by
  cases x with
  | error e => cases h
  | ok a => exact ⟨a, rfl, h⟩

theorem execVrid_next {s t : State} (h : execVrid s = .next t) :
    ∃ recid, s.seq.recid = some recid ∧
      ((∃ v, canonicalId recid = some v ∧ t = advance Code.vrid { s.seq with v := some v } s) ∨
        (canonicalId recid = none ∧ t = raise .invalidRecoveryId Code.vrid s)) := by
  obtain ⟨recid, hr, h⟩ := bind_ok (run_next h)
  cases hv : canonicalId recid with
  | none => rw [hv] at h; cases h; exact ⟨recid, must_ok hr, .inr ⟨hv, rfl⟩⟩
  | some v => rw [hv] at h; cases h; exact ⟨recid, must_ok hr, .inl ⟨v, hv, rfl⟩⟩

theorem execTrunc_next {s t : State} (h : execTrunc s = .next t) :
    ∃ d l, s.seq.dlen = some d ∧ s.seq.cpL = some l ∧
      t = advance Code.trunc { s.seq with deff := some (BitVec.ofNat 8 (min d.toNat l.toNat)) } s := by
  obtain ⟨d, hd, h⟩ := bind_ok (run_next h)
  obtain ⟨l, hl, h⟩ := bind_ok h
  cases h
  exact ⟨d, l, must_ok hd, must_ok hl, rfl⟩

theorem execSetx_next {s t : State} (h : execSetx s = .next t) :
    ∃ r, s.seq.b.br = some r ∧ t = advance Code.setx (s.seq.writeB .bx r) s := by
  obtain ⟨r, hr, h⟩ := bind_ok (run_next h)
  cases h
  exact ⟨r, must_ok hr, rfl⟩

theorem execStrip_next {s t : State} (h : execStrip s = .next t) :
    ∃ l bytes q, s.seq.cpL = some l ∧
      s.seq.memRead s.lib.params.lmax .encbuf 1 (2 * l.toNat) = .ok bytes ∧
      s.seq.memWrite s.lib.params.lmax .result 0 bytes = .ok q ∧
      t = advance Code.strip { q with rlenb := some (BitVec.ofNat 8 (2 * l.toNat)) } s := by
  obtain ⟨l, hl, h⟩ := bind_ok (run_next h)
  obtain ⟨bytes, hr, h⟩ := bind_ok h
  obtain ⟨q, hw, h⟩ := bind_ok h
  cases h
  exact ⟨l, bytes, q, must_ok hl, hr, hw, rfl⟩

theorem issueDecomp_ok {s t : State} (h : issueDecomp s = .ok t) :
    ∃ v m, s.seq.v = some v ∧ gather s (.lcPdec .pr .bx v) = .ok m ∧ t = sendCall (.lcPdec .pr .bx v) m s := by
  obtain ⟨v, hv, h⟩ := bind_ok h
  obtain ⟨m, hm, rfl⟩ := issue_ok h
  exact ⟨v, m, must_ok hv, hm, rfl⟩

/-! ### Buffers -/

/-- MemRead gives as many bytes as are asked for. -/
theorem memRead_length {q : Seq} {lmax i n : Nat} {b : BufSel} {bytes : List Byte}
    (h : q.memRead lmax b i n = .ok bytes) : bytes.length = n := by
  obtain ⟨len, -, -, hc⟩ := Seq.memRead_ok h
  exact ((readCells_eq_some _ _ _ _).1 hc).1

/-- MemWrite leaves every byte but those it stores as it was. -/
theorem byteAt_memWrite_of_outside {q q' : Seq} {lmax i : Nat} {b : BufSel} {bytes : List Byte}
    (hw : q.memWrite lmax b i bytes = .ok q') {b' : BufSel} {k : Nat}
    (ho : b' = b → ¬ (i ≤ k ∧ k < i + bytes.length)) : q'.byteAt b' k = q.byteAt b' k := by
  obtain ⟨-, rfl⟩ := Seq.memWrite_ok hw
  unfold Seq.byteAt
  by_cases hb : b' = b
  · subst hb
    rw [Memory.get_set_same, readCell_writeCells, if_neg (ho rfl)]
  · rw [Memory.get_set_ne _ _ hb]

/-! ### The writes of one micro-op -/

theorem kept_self (i : Instr) (s : State) : Kept i s s := by
  constructor <;> simp

theorem kept_writeB {i : Instr} {r : BReg} (hw : writerB r = i) (s : State) (v : Int) :
    Kept i s { s with seq := s.seq.writeB r v } :=
  { kept_self i s with
    bregs := fun _ hr => BFile.get_set_ne _ _ fun e => hr (e ▸ hw) }

theorem kept_writeP {i : Instr} {r : PReg} (hw : writerP r = i) (s : State) (q : Point) :
    Kept i s { s with seq := s.seq.writeP r q } :=
  { kept_self i s with
    pregs := fun _ hr => PFile.get_set_ne _ _ fun e => hr (e ▸ hw) }

theorem kept_writeV (s : State) (v : BitVec 1) : Kept .vrid s { s with seq := { s.seq with v := some v } } :=
  { kept_self .vrid s with v := fun hi => absurd rfl hi }

theorem kept_writeInff (s : State) (f : BitVec 1) :
    Kept .ordchk s { s with seq := { s.seq with inff := some f } } :=
  { kept_self .ordchk s with inff := fun hi => absurd rfl hi }

theorem kept_writeDeff (s : State) (n : BitVec 8) :
    Kept .trunc s { s with seq := { s.seq with deff := some n } } :=
  { kept_self .trunc s with deff := fun hi => absurd rfl hi }

theorem writeCurve_get_b {r : BReg} (hp : r ≠ .bp) (hn : r ≠ .bn) (q : Seq) (p n : Nat) (g : Point) (l : Nat) :
    (writeCurve q p n g l).b.get r = q.b.get r :=
  (BFile.get_set_ne (q.b.set .bp p) _ hn).trans (BFile.get_set_ne _ _ hp)

theorem writeCurve_get_p {r : PReg} (hr : r ≠ .pg) (q : Seq) (p n : Nat) (g : Point) (l : Nat) :
    (writeCurve q p n g l).p.get r = q.p.get r := PFile.get_set_ne _ _ hr

/-- CURVE is the writer of both B[7] and B[6], of P[0] and of CP.L (41 R172). -/
theorem kept_writeCurve (s : State) (p n : Nat) (g : Point) (l : Nat) :
    Kept .curve s { s with seq := writeCurve s.seq p n g l } := by
  constructor
  case bregs => exact fun r hr => writeCurve_get_b (r := r) (fun e => hr (e ▸ rfl)) (fun e => hr (e ▸ rfl)) ..
  case pregs => exact fun r hr => writeCurve_get_p (r := r) (fun e => hr (e ▸ rfl)) ..
  case bytes => exact fun _ _ _ => rfl
  all_goals simp [writeCurve]

/-- ENC stores no more bytes than ENCLEN says: 2·L + 1 needs no more than its 9 bits (45 R230). -/
theorem kept_writeEncoding {s : State} {lmax : Nat} {bytes : List Byte} {l : BitVec 8} {q : Seq}
    (hl : bytes.length = 2 * l.toNat + 1) (hw : s.seq.memWrite lmax .encbuf 0 bytes = .ok q) :
    Kept .enc s { s with seq := { q with enclen := some (BitVec.ofNat 9 (2 * l.toNat + 1)) } } := by
  have hlen : (BitVec.ofNat 9 (2 * l.toNat + 1)).toNat = bytes.length := by
    rw [hl, BitVec.toNat_ofNat, Nat.mod_eq_of_lt (by omega)]
  have hbytes : ∀ b k, (b = .encbuf → ¬ k < bytes.length) → q.byteAt b k = s.seq.byteAt b k :=
    fun b k ho => byteAt_memWrite_of_outside hw fun hb => by have := ho hb; omega
  obtain ⟨-, rfl⟩ := Seq.memWrite_ok hw
  exact { kept_self .enc s with
    enclen := fun hi => absurd rfl hi
    bytes := fun b k hs => hbytes b k fun hb hk => hs (.inl ⟨rfl, hb, _, rfl, hlen ▸ hk⟩) }

/-- STRIP stores no more bytes than RLENB says: with LMAX <= 127 the capacity of RESULT keeps 2·L within its 8 bits
(45 R231). -/
theorem kept_writeResult {s : State} {lmax : Nat} {bytes : List Byte} {l : BitVec 8} {q : Seq} (hm : lmax ≤ 127)
    (hl : bytes.length = 2 * l.toNat) (hw : s.seq.memWrite lmax .result 0 bytes = .ok q) :
    Kept .strip s { s with seq := { q with rlenb := some (BitVec.ofNat 8 (2 * l.toNat)) } } := by
  have hbytes : ∀ b k, (b = .result → ¬ k < bytes.length) → q.byteAt b k = s.seq.byteAt b k :=
    fun b k ho => byteAt_memWrite_of_outside hw fun hb => by have := ho hb; omega
  obtain ⟨hcap, rfl⟩ := Seq.memWrite_ok hw
  have hlen : (BitVec.ofNat 8 (2 * l.toNat)).toNat = bytes.length := by
    simp only [capacity] at hcap
    rw [BitVec.toNat_ofNat, hl, Nat.mod_eq_of_lt (by omega)]
  exact { kept_self .strip s with
    rlenb := fun hi => absurd rfl hi
    bytes := fun b k hs => hbytes b k fun hb hk => hs (.inr ⟨rfl, hb, _, rfl, hlen ▸ hk⟩) }

/-! ### The ends of one micro-op -/

theorem kept_advance {i : Instr} {s : State} {q : Seq} {c : PhaseCode} (hcp : q.callpend = s.seq.callpend)
    (k : Kept i s { s with seq := q }) : Kept i s (advance c q s) :=
  { k with call := fun hi => ⟨(k.call hi).1, hcp, rfl⟩ }

theorem kept_complete {i : Instr} {s : State} {q : Seq} {c : PhaseCode} (hi : hasCall i = true)
    (k : Kept i s { s with seq := q }) : Kept i s (complete c q s) :=
  { k with call := fun hn => absurd (hi.symm.trans hn) (by decide) }

theorem kept_sendCall {i : Instr} (hi : hasCall i = true) (d : Instr) (m : LMsg) (s : State) :
    Kept i s (sendCall d m s) :=
  { kept_self i s with call := fun hn => absurd (hi.symm.trans hn) (by decide) }

/-- The micro-op `i` of code `c` has taken `s` to `t` by the failure exit or within its frame. -/
def Framed (i : Instr) (c : PhaseCode) (s t : State) : Prop := (∃ k, t = failed k c s) ∨ Kept i s t

theorem framed_raise (i : Instr) (k : ErrKind) (c : PhaseCode) (s : State) : Framed i c s (raise k c s) :=
  .inl ⟨k.code, rfl⟩

/-- A micro-op with a call keeps its frame if its issue only sends and its commit keeps the frame. -/
theorem framed_callStep {i : Instr} {c : PhaseCode} {s t : State} {iss : Except Fault State}
    {commit : LRet → Except Fault State} (hi : hasCall i = true) (h : callStep iss commit s = .next t)
    (hissue : ∀ {u}, iss = .ok u → ∃ d m, gather s d = .ok m ∧ u = sendCall d m s)
    (hcommit : ∀ {r}, commit r = .ok t → Framed i c s t) : Framed i c s t := by
  rcases callStep_next h with ⟨-, hs⟩ | ⟨-, -, rfl⟩ | ⟨r, -, -, hr⟩
  · obtain ⟨d, m, -, rfl⟩ := hissue hs
    exact .inr (kept_sendCall hi d m s)
  · exact .inr (kept_self i t)
  · exact hcommit hr

/-- An issue of the call `d` sends `d`. -/
theorem issue_sends {d : Instr} {s u : State} (h : issue d s = .ok u) :
    ∃ d m, gather s d = .ok m ∧ u = sendCall d m s := ⟨d, issue_ok h⟩

theorem issueDecomp_sends {s u : State} (h : issueDecomp s = .ok u) :
    ∃ d m, gather s d = .ok m ∧ u = sendCall d m s :=
  let ⟨v, m, _, hm, hu⟩ := issueDecomp_ok h
  ⟨.lcPdec .pr .bx v, m, hm, hu⟩

theorem framed_commitInt {i : Instr} {c : PhaseCode} {dst : BReg} {k : ErrKind} {s t : State} {r : LRet}
    (hw : writerB dst = i) (hi : hasCall i = true) (h : commitInt c dst k s r = .ok t) : Framed i c s t := by
  rcases commitInt_ok h with ⟨v, -, rfl⟩ | ⟨-, rfl⟩ | rfl
  · exact .inr (kept_complete hi (kept_writeB hw s v))
  · exact framed_raise ..
  · exact framed_raise ..

theorem framed_commitPoint {i : Instr} {c : PhaseCode} {dst : PReg} {k : ErrKind} {s t : State} {r : LRet}
    (hw : writerP dst = i) (hi : hasCall i = true) (h : commitPoint c dst k s r = .ok t) : Framed i c s t := by
  rcases commitPoint_ok h with ⟨q, -, rfl⟩ | ⟨-, rfl⟩ | rfl
  · exact .inr (kept_complete hi (kept_writeP hw s q))
  · exact framed_raise ..
  · exact framed_raise ..

theorem framed_commitCurve {s t : State} {r : LRet} (h : commitCurve s r = .ok t) : Framed .curve Code.curve s t := by
  rcases commitCurve_ok h with ⟨p, n, g, l, -, -, rfl⟩ | rfl
  · exact .inr (kept_complete rfl (kept_writeCurve s p n g l))
  · exact framed_raise ..

theorem framed_commitOrdchk {s t : State} {r : LRet} (h : commitOrdchk s r = .ok t) :
    Framed .ordchk Code.ordchk s t := by
  rcases commitOrdchk_ok h with ⟨f, -, -, rfl⟩ | rfl | rfl
  · exact .inr (kept_complete rfl (kept_writeInff s f))
  · exact framed_raise ..
  · exact framed_raise ..

theorem framed_commitEnc {s t : State} {r : LRet} (h : commitEnc s r = .ok t) : Framed .enc Code.enc s t := by
  rcases commitEnc_ok h with ⟨bytes, l, q, -, -, hl, hw, rfl⟩ | rfl
  · exact .inr (kept_complete rfl (kept_writeEncoding hl hw))
  · exact framed_raise ..

/-! ### The micro-ops without a call -/

theorem framed_execVrid {s t : State} (h : execVrid s = .next t) : Framed .vrid Code.vrid s t := by
  obtain ⟨recid, -, ⟨v, -, rfl⟩ | ⟨-, rfl⟩⟩ := execVrid_next h
  · exact .inr (kept_advance rfl (kept_writeV s v))
  · exact framed_raise ..

theorem framed_execTrunc {s t : State} (h : execTrunc s = .next t) : Framed .trunc Code.trunc s t := by
  obtain ⟨d, l, -, -, rfl⟩ := execTrunc_next h
  exact .inr (kept_advance rfl (kept_writeDeff s _))

theorem framed_execSetx {s t : State} (h : execSetx s = .next t) : Framed .setx Code.setx s t := by
  obtain ⟨r, -, rfl⟩ := execSetx_next h
  exact .inr (kept_advance rfl (kept_writeB (r := .bx) rfl s r))

theorem framed_execStrip {s t : State} (hm : s.lib.params.lmax ≤ 127) (h : execStrip s = .next t) :
    Framed .strip Code.strip s t := by
  obtain ⟨l, bytes, q, -, hr, hw, rfl⟩ := execStrip_next h
  have hcp : q.callpend = s.seq.callpend := by rw [(Seq.memWrite_ok hw).2]
  exact .inr (kept_advance hcp (kept_writeResult hm (memRead_length hr) hw))

/-! ### The frame -/

/-- Settles O31: a micro-op sends, waits, fails, or writes what it is the one writer of. -/
theorem microOpFrame : Obligations.MicroOpFrame := by
  unfold Obligations.MicroOpFrame
  intro i c s t hmax hi hc h
  change Framed i c s t
  cases i with
  | vrid => cases hc; exact framed_execVrid h
  | curve => cases hc; exact framed_callStep rfl h issue_sends framed_commitCurve
  | parser => cases hc; exact framed_callStep rfl h issue_sends (framed_commitInt rfl rfl)
  | parses => cases hc; exact framed_callStep rfl h issue_sends (framed_commitInt rfl rfl)
  | trunc => cases hc; exact framed_execTrunc h
  | setx => cases hc; exact framed_execSetx h
  | decomp => cases hc; exact framed_callStep rfl h issueDecomp_sends (framed_commitPoint rfl rfl)
  | ordmul => cases hc; exact framed_callStep rfl h issue_sends (framed_commitPoint rfl rfl)
  | ordchk => cases hc; exact framed_callStep rfl h issue_sends framed_commitOrdchk
  | eload => cases hc; exact framed_callStep rfl h issue_sends (framed_commitInt rfl rfl)
  | inv => cases hc; exact framed_callStep rfl h issue_sends (framed_commitInt rfl rfl)
  | muls => cases hc; exact framed_callStep rfl h issue_sends (framed_commitPoint rfl rfl)
  | neg => cases hc; exact framed_callStep rfl h issue_sends (framed_commitInt rfl rfl)
  | mulg => cases hc; exact framed_callStep rfl h issue_sends (framed_commitPoint rfl rfl)
  | add => cases hc; exact framed_callStep rfl h issue_sends (framed_commitPoint rfl rfl)
  | mulq => cases hc; exact framed_callStep rfl h issue_sends (framed_commitPoint rfl rfl)
  | enc => cases hc; exact framed_callStep rfl h issue_sends framed_commitEnc
  | strip => cases hc; exact framed_execStrip hmax h
  | _ => cases hi

end Sys2Proof.Proofs
end

section
/-! PROOFS. No write overflows a P register (00_scope R17, 10_state R43): each shared ending of a step keeps the points
held and in flight in range, then each instruction, and `StepKeepsPoints` from them. -/

namespace Sys2Proof.Proofs

open Sys2Proof Sys2Proof.Machine Sys2Proof.Safety

/-! ### What the points' invariant reads -/

/-- The points' invariant reads B[7], CP.L, the P registers, CURVEID, the parameters and what is in flight. -/
theorem pointsFit_of_unchanged {s t : State} (h : PointsFit s) (hparams : t.lib.params = s.lib.params)
    (hbp : t.seq.b.bp = s.seq.b.bp) (hcpL : t.seq.cpL = s.seq.cpL) (hp : t.seq.p = s.seq.p)
    (hid : t.seq.curveid = s.seq.curveid) (hchan : chanPoints t) : PointsFit t := by
  have hc : curveOf t = curveOf s := by simp [curveOf, hparams, hid]
  constructor
  · rw [hparams]; exact h.table
  · rw [hbp, hcpL, hc, hparams]; exact h.cp
  · rw [hbp, hcpL, hp, hparams]; exact h.regs
  · exact hchan

theorem chanPoints_of_idle {t : State} (h : t.chan = .idle) : chanPoints t := by
  simp [chanPoints, h]

theorem chanPoints_of_unchanged {s t : State} (h : chanPoints s) (hparams : t.lib.params = s.lib.params)
    (hid : t.seq.curveid = s.seq.curveid) (hchan : t.chan = s.chan) : chanPoints t := by
  simpa [chanPoints, curveOf, hparams, hid, hchan] using h

/-- With no value in B[7] and in the P registers and nothing in flight, only the table is left to fit. -/
theorem pointsFit_of_dropped {t : State} (ht : TableFits t.lib.params) (hbp : t.seq.b.bp = none)
    (hp : t.seq.p = PFile.reset) (hchan : t.chan = .idle) : PointsFit t := by
  constructor
  · exact ht
  · simp [hbp]
  · simp [hp]
  · exact chanPoints_of_idle hchan

theorem curveOf_mem {s : State} {c : Curve} (h : curveOf s = some c) : c ∈ s.lib.params.table := by
  obtain ⟨id, -, hc⟩ := Option.bind_eq_some_iff.1 h
  exact findCurve_mem hc

/-- The curve of the call is the one LIB has for the identifier it is sent. -/
theorem curveOf_eq {s : State} {id : Byte} (hid : s.seq.curveid = some id) :
    curveOf s = findCurve s.lib.params.table id := by
  simp [curveOf, hid]

/-- A point held is in range for the call's curve. -/
theorem below_of_readP {s : State} (h : PointsFit s) {r : PReg} {q : Point} (hr : s.seq.readP r = .ok q) :
    ∃ c, curveOf s = some c ∧ below c.p q := by
  obtain ⟨p, l, hp, hl, hq, -, -⟩ := h.regs r q (must_ok hr)
  obtain ⟨c, hc, hpc, -, -, -⟩ := h.cp p l hp hl
  exact ⟨c, hc, Int.ofNat.inj hpc ▸ hq⟩

/-! ### What the machine's invariant says of a return -/

theorem written_of_lt {w : Nat} {c : PhaseCode} (hw : w < c.toNat) (hc : c.toNat ≤ 0x13) : written w c = true := by
  simp [written, hw, hc]

theorem written_of_le {w : Nat} {c : PhaseCode} (hw : c.toNat ≤ w) : written w c = false := by
  simp [written, Nat.not_lt.2 hw]

/-- The calls that answer a point come after CURVE (30_encoding R120). -/
theorem callOf_point {v : BitVec 1} {c : PhaseCode} {d : Instr} {q : Point} (h : callOf v c = some d)
    (hv : valueMatch d (.point q) = true) : 0x02 < c.toNat ∧ c.toNat ≤ 0x13 := by
  unfold callOf at h
  split at h <;> cases h <;> simp_all [valueMatch]

/-- The call that answers curve parameters is CURVE's (30_encoding R120). -/
theorem callOf_curve {v : BitVec 1} {c : PhaseCode} {d : Instr} {p n l : Nat} {g : Point} (h : callOf v c = some d)
    (hv : valueMatch d (.curve p n g l) = true) : c.toNat = 0x02 := by
  unfold callOf at h
  split at h <;> cases h <;> simp_all [valueMatch]

/-- The value of a return is of the type of the call of the micro-op in PHASE. -/
theorem valueMatch_of_return {s : State} (hi : Inv s) {v : LVal} (hr : returned s (.ok v)) :
    ∃ d, callOf (s.seq.v.getD 0) s.seq.phase = some d ∧ valueMatch d v = true := by
  obtain ⟨hcp, hch⟩ := hr
  obtain ⟨d, hd, -, hf⟩ := hi.call.on hcp
  rw [hch] at hf
  exact ⟨d, hd, hf⟩

/-- Where a point has been returned, CP is valid. -/
theorem cp_of_pointReturn {s : State} (hi : Inv s) {q : Point} (hr : returned s (.ok (.point q))) :
    ∃ p l, s.seq.b.bp = some p ∧ s.seq.cpL = some l := by
  obtain ⟨d, hd, hv⟩ := valueMatch_of_return hi hr
  obtain ⟨hlo, hhi⟩ := callOf_point hd hv
  obtain ⟨p, hp⟩ := Option.isSome_iff_exists.1 (hi.data.bp.trans (written_of_lt hlo hhi))
  obtain ⟨l, hl⟩ := Option.isSome_iff_exists.1 (hi.data.cpL.trans (written_of_lt hlo hhi))
  exact ⟨p, l, hp, hl⟩

/-- Up to CURVE's commit no P register holds a value. -/
theorem get_p_eq_none {q : Seq} (h : DataLive q) (hp : q.phase.toNat ≤ 0x02) (r : PReg) : q.p.get r = none := by
  have none_of {w : Nat} {x : Option Point} (hw : 2 ≤ w) (hx : x.isSome = written w q.phase) : x = none :=
    Option.not_isSome_iff_eq_none.1 (by simp [hx, written_of_le (hp.trans hw)])
  cases r with
  | pg => exact none_of (by decide) h.pg
  | pr => exact none_of (by decide) h.pr
  | pchk => exact none_of (by decide) h.pchk
  | ps => exact none_of (by decide) h.ps
  | pt => exact none_of (by decide) h.pt
  | pu => exact none_of (by decide) h.pu
  | pq => exact none_of (by decide) h.pq

/-! ### Issue -/

/-- The argument values of a call carry CURVEID and points in range. -/
theorem chanPoints_sendCall {s : State} (h : PointsFit s) {d : Instr} {m : LMsg} (hg : gather s d = .ok m) :
    chanPoints (sendCall d m s) := by
  cases d with
  | lcCurve =>
    obtain ⟨id, hid, hg⟩ := bind_ok hg
    cases hg
    exact must_ok hid
  | lcBnhex dst src =>
    obtain ⟨_, -, hg⟩ := bind_ok hg
    cases hg
    trivial
  | lcBnbin dst =>
    obtain ⟨_, -, hg⟩ := bind_ok hg
    cases hg
    trivial
  | lcBnneg dst a =>
    obtain ⟨_, -, hg⟩ := bind_ok hg
    cases hg
    trivial
  | lcBninv dst a m =>
    obtain ⟨_, -, hg⟩ := bind_ok hg
    obtain ⟨_, -, hg⟩ := bind_ok hg
    cases hg
    trivial
  | lcPdec dst x v =>
    obtain ⟨id, hid, hg⟩ := bind_ok hg
    obtain ⟨_, -, hg⟩ := bind_ok hg
    cases hg
    exact must_ok hid
  | lcPmul dst k q =>
    obtain ⟨id, hid, hg⟩ := bind_ok hg
    obtain ⟨_, -, hg⟩ := bind_ok hg
    obtain ⟨q, hq, hg⟩ := bind_ok hg
    cases hg
    exact ⟨must_ok hid, below_of_readP h hq⟩
  | lcPadd dst a b =>
    obtain ⟨id, hid, hg⟩ := bind_ok hg
    obtain ⟨a, ha, hg⟩ := bind_ok hg
    obtain ⟨b, hb, hg⟩ := bind_ok hg
    cases hg
    obtain ⟨c, hc, ha⟩ := below_of_readP h ha
    obtain ⟨c', hc', hb⟩ := below_of_readP h hb
    cases hc.symm.trans hc'
    exact ⟨must_ok hid, c, hc, ha, hb⟩
  | lcPinf a =>
    obtain ⟨_, -, hg⟩ := bind_ok hg
    cases hg
    trivial
  | lcPenc a =>
    obtain ⟨_, -, hg⟩ := bind_ok hg
    obtain ⟨_, -, hg⟩ := bind_ok hg
    cases hg
    trivial
  | _ => cases hg

theorem pointsFit_sendCall {s : State} (h : PointsFit s) {d : Instr} {m : LMsg} (hg : gather s d = .ok m) :
    PointsFit (sendCall d m s) :=
  pointsFit_of_unchanged h rfl rfl rfl rfl rfl (chanPoints_sendCall h hg)

/-! ### Commit -/

theorem pointsFit_raise {s : State} (h : PointsFit s) (k : ErrKind) (c : PhaseCode) : PointsFit (raise k c s) :=
  pointsFit_of_dropped h.table rfl rfl rfl

/-- A commit that writes none of the registers the points' invariant reads keeps it. -/
theorem pointsFit_complete {s : State} (h : PointsFit s) {c : PhaseCode} {q : Seq} (hbp : q.b.bp = s.seq.b.bp)
    (hcpL : q.cpL = s.seq.cpL) (hp : q.p = s.seq.p) (hid : q.curveid = s.seq.curveid) : PointsFit (complete c q s) :=
  pointsFit_of_unchanged h rfl hbp hcpL hp hid (chanPoints_of_idle rfl)

/-- So does the completion of a micro-op without a call. -/
theorem pointsFit_advance {s : State} (h : PointsFit s) {c : PhaseCode} {q : Seq} (hbp : q.b.bp = s.seq.b.bp)
    (hcpL : q.cpL = s.seq.cpL) (hp : q.p = s.seq.p) (hid : q.curveid = s.seq.curveid) : PointsFit (advance c q s) :=
  pointsFit_of_unchanged h rfl hbp hcpL hp hid (chanPoints_of_unchanged h.chan rfl hid rfl)

theorem writeB_bp {r : BReg} (hr : .bp ≠ r) (q : Seq) (v : Int) : (q.writeB r v).b.bp = q.b.bp :=
  BFile.get_set_ne q.b v hr

theorem pointsFit_commitInt {s t : State} (h : PointsFit s) {c : PhaseCode} {dst : BReg} {k : ErrKind} {r : LRet}
    (hdst : .bp ≠ dst) (hc : commitInt c dst k s r = .ok t) : PointsFit t := by
  rcases commitInt_ok hc with ⟨v, -, rfl⟩ | ⟨-, rfl⟩ | rfl
  · exact pointsFit_complete h (writeB_bp hdst s.seq v) rfl rfl rfl
  · exact pointsFit_raise h ..
  · exact pointsFit_raise h ..

/-- The point written is the one returned, in range for the call's curve, whose p and L are CP's. -/
theorem pointsFit_writeP {s : State} (hi : Inv s) (h : PointsFit s) {q : Point} (hr : returned s (.ok (.point q)))
    (c : PhaseCode) (dst : PReg) : PointsFit (complete c (s.seq.writeP dst q) s) := by
  obtain ⟨cv, hcv, hq⟩ : ∃ cv, curveOf s = some cv ∧ below cv.p q := by
    have hch := h.chan
    rwa [chanPoints, hr.2] at hch
  obtain ⟨p, l, hp, hl⟩ := cp_of_pointReturn hi hr
  obtain ⟨cv', hcv', hpc, hlc, hwidth, hmax⟩ := h.cp p l hp hl
  cases hcv.symm.trans hcv'
  constructor
  · exact h.table
  · exact h.cp
  · intro r q' hq'
    change (s.seq.p.set dst q).get r = some q' at hq'
    by_cases hrd : r = dst
    · subst hrd
      rw [PFile.get_set_same] at hq'
      cases hq'
      exact ⟨cv.p, l, hpc ▸ hp, hl, hq, hlc ▸ hwidth, hlc ▸ hmax⟩
    · rw [PFile.get_set_ne _ _ hrd] at hq'
      exact h.regs r q' hq'
  · exact chanPoints_of_idle rfl

theorem pointsFit_commitPoint {s t : State} (hi : Inv s) (h : PointsFit s) {c : PhaseCode} {dst : PReg} {k : ErrKind}
    {r : LRet} (hr : returned s r) (hc : commitPoint c dst k s r = .ok t) : PointsFit t := by
  rcases commitPoint_ok hc with ⟨q, rfl, rfl⟩ | ⟨-, rfl⟩ | rfl
  · exact pointsFit_writeP hi h hr c dst
  · exact pointsFit_raise h ..
  · exact pointsFit_raise h ..

theorem curveFits_bounds {lmax p n l : Nat} (h : curveFits lmax p n l = true) :
    1 ≤ l ∧ l ≤ lmax ∧ p < 2 ^ (8 * l) := by
  simp only [curveFits, Bool.and_eq_true, decide_eq_true_eq] at h
  obtain ⟨⟨h1, hl⟩, hp, -⟩ := h
  exact ⟨h1, hl, by rwa [pow_mul]⟩

/-- CURVE writes CP and G of the table's entry for CURVEID; no other P register holds a value yet. -/
theorem pointsFit_writeCurve {s : State} (hi : Inv s) (h : PointsFit s) {p n l : Nat} {g : Point}
    (hr : returned s (.ok (.curve p n g l))) (hf : curveFits s.lib.params.lmax p n l = true) :
    PointsFit (complete Code.curve (writeCurve s.seq p n g l) s) := by
  obtain ⟨cv, hcv, rfl, rfl, rfl⟩ : ∃ cv, curveOf s = some cv ∧ p = cv.p ∧ g = cv.g ∧ l = cv.l := by
    have hch := h.chan
    rwa [chanPoints, hr.2] at hch
  obtain ⟨-, hmax, hwidth⟩ := curveFits_bounds hf
  have hl : (BitVec.ofNat 8 cv.l).toNat = cv.l := by
    have := hi.lmax.2
    rw [BitVec.toNat_ofNat, Nat.mod_eq_of_lt (by omega)]
  obtain ⟨d, hd, hv⟩ := valueMatch_of_return hi hr
  have hphase : s.seq.phase.toNat = 0x02 := callOf_curve hd hv
  constructor
  · exact h.table
  · intro p' l' hp' hl'
    cases hp'
    cases hl'
    exact ⟨cv, hcv, rfl, hl, hwidth, hmax⟩
  · intro r q hq
    by_cases hpg : r = .pg
    · subst hpg
      cases hq
      exact ⟨cv.p, _, rfl, rfl, (h.table cv (curveOf_mem hcv)).2, hl.symm ▸ hwidth, hl.symm ▸ hmax⟩
    · have hq : (writeCurve s.seq cv.p n cv.g cv.l).p.get r = some q := hq
      rw [writeCurve_get_p hpg, get_p_eq_none hi.data (by omega)] at hq
      cases hq
  · exact chanPoints_of_idle rfl

theorem pointsFit_commitCurve {s t : State} (hi : Inv s) (h : PointsFit s) {r : LRet} (hr : returned s r)
    (hc : commitCurve s r = .ok t) : PointsFit t := by
  rcases commitCurve_ok hc with ⟨p, n, g, l, rfl, hf, rfl⟩ | rfl
  · exact pointsFit_writeCurve hi h hr hf
  · exact pointsFit_raise h ..

theorem pointsFit_commitOrdchk {s t : State} (h : PointsFit s) {r : LRet} (hc : commitOrdchk s r = .ok t) :
    PointsFit t := by
  rcases commitOrdchk_ok hc with ⟨f, -, -, rfl⟩ | rfl | rfl
  · exact pointsFit_complete h rfl rfl rfl rfl
  · exact pointsFit_raise h ..
  · exact pointsFit_raise h ..

theorem pointsFit_commitEnc {s t : State} (h : PointsFit s) {r : LRet} (hc : commitEnc s r = .ok t) : PointsFit t := by
  rcases commitEnc_ok hc with ⟨bytes, l, q, -, -, -, hw, rfl⟩ | rfl
  · obtain ⟨-, rfl⟩ := Seq.memWrite_ok hw
    exact pointsFit_complete h rfl rfl rfl rfl
  · exact pointsFit_raise h ..

/-- A micro-op with a call keeps the points in range if its issue only sends and its commit keeps them. -/
theorem pointsFit_callStep {s t : State} {iss : Except Fault State} {commit : LRet → Except Fault State}
    (h : PointsFit s) (he : callStep iss commit s = .next t)
    (hissue : ∀ {u}, iss = .ok u → ∃ d m, gather s d = .ok m ∧ u = sendCall d m s)
    (hcommit : ∀ {r}, returned s r → commit r = .ok t → PointsFit t) : PointsFit t := by
  rcases callStep_next he with ⟨-, hs⟩ | ⟨-, -, rfl⟩ | ⟨r, hcp, hch, hc⟩
  · obtain ⟨d, m, hg, rfl⟩ := hissue hs
    exact pointsFit_sendCall h hg
  · exact h
  · exact hcommit ⟨hcp, hch⟩ hc

/-! ### The micro-ops without a call -/

theorem pointsFit_execVrid {s t : State} (h : PointsFit s) (he : execVrid s = .next t) : PointsFit t := by
  obtain ⟨recid, -, ⟨v, -, rfl⟩ | ⟨-, rfl⟩⟩ := execVrid_next he
  · exact pointsFit_advance h rfl rfl rfl rfl
  · exact pointsFit_raise h ..

theorem pointsFit_execTrunc {s t : State} (h : PointsFit s) (he : execTrunc s = .next t) : PointsFit t := by
  obtain ⟨d, l, -, -, rfl⟩ := execTrunc_next he
  exact pointsFit_advance h rfl rfl rfl rfl

theorem pointsFit_execSetx {s t : State} (h : PointsFit s) (he : execSetx s = .next t) : PointsFit t := by
  obtain ⟨r, -, rfl⟩ := execSetx_next he
  exact pointsFit_advance h rfl rfl rfl rfl

theorem pointsFit_execStrip {s t : State} (h : PointsFit s) (he : execStrip s = .next t) : PointsFit t := by
  obtain ⟨l, bytes, q, -, -, hw, rfl⟩ := execStrip_next he
  obtain ⟨-, rfl⟩ := Seq.memWrite_ok hw
  exact pointsFit_advance h rfl rfl rfl rfl

/-! ### The host interface -/

theorem pointsFit_execRecover {s t : State} (h : PointsFit s) {recid curveid : Byte} {digest rhex shex : List Byte}
    (he : execRecover recid curveid digest rhex shex s = .next t) : PointsFit t := by
  unfold execRecover at he
  split at he
  · obtain ⟨-, -, rfl⟩ := accept_ok (run_next he)
    exact pointsFit_of_dropped h.table rfl rfl rfl
  · cases he
    exact pointsFit_of_unchanged h rfl rfl rfl rfl rfl (chanPoints_of_unchanged h.chan rfl rfl rfl)

theorem pointsFit_execRecover2 {s t : State} (h : PointsFit s) {curveid : Byte} {digest rhex shex : List Byte}
    (he : execRecover2 curveid digest rhex shex s = .next t) : PointsFit t := by
  cases he
  exact pointsFit_of_unchanged h rfl rfl rfl rfl rfl (chanPoints_of_unchanged h.chan rfl rfl rfl)

/-- A response that is taken empties the registers, and the table it leaves is premised to fit; one that is held changes
none of them. -/
theorem pointsFit_offer {s : State} (h : PointsFit s) {rsp : List Byte} (ht : TableFits (offer rsp s).lib.params) :
    PointsFit (offer rsp s) := by
  rcases offer_cases rsp s with ⟨-, ho⟩ | ⟨-, ho⟩
  · rw [ho] at ht ⊢
    exact pointsFit_of_dropped ht rfl rfl rfl
  · rw [ho]
    exact pointsFit_of_unchanged h rfl rfl rfl rfl rfl (chanPoints_of_unchanged h.chan rfl rfl rfl)

theorem pointsFit_execDone {s t : State} (h : PointsFit s) (ht : TableFits t.lib.params)
    (he : execDone s = .next t) : PointsFit t := by
  obtain ⟨rsp, -, ho⟩ := bind_ok (run_next he)
  cases ho
  exact pointsFit_offer h ht

theorem pointsFit_execFail {s t : State} (h : PointsFit s) (ht : TableFits t.lib.params)
    (he : execFail s = .next t) : PointsFit t := by
  cases he
  exact pointsFit_offer h ht

/-! ### The library calls -/

/-- The return `r` would be in range: curve parameters of the call's curve, or a point with coordinates below its p. -/
def ReturnFits (s : State) (r : LRet) : Prop := chanPoints { s with chan := .returned r }

/-- LIB keeps the points in range if the answers to the argument values in flight are. -/
theorem pointsFit_serve {s t : State} (h : PointsFit s) {f : LMsg → Option LRet} (he : serve f s = .next t)
    (hf : ∀ {m r}, s.chan = .sent m → f m = some r → ReturnFits s r) : PointsFit t := by
  obtain ⟨m, r, hch, hr, rfl⟩ := serve_next he
  refine pointsFit_of_unchanged h (drawFail_params s.lib) rfl rfl rfl rfl ?_
  have hparams : (answer r s).lib.params = s.lib.params := drawFail_params s.lib
  cases hd : (drawFail s.lib).1 with
  | true => simp [chanPoints, hd]
  | false =>
    exact chanPoints_of_unchanged (hf hch hr) hparams rfl (by simp [hd])

theorem returnFits_libCurve {s : State} {id : Byte} (hid : s.seq.curveid = some id) :
    ReturnFits s (libCurve s.lib.params id) := by
  unfold libCurve
  cases hc : findCurve s.lib.params.table id with
  | none => trivial
  | some c => exact ⟨c, (curveOf_eq hid).trans hc, rfl, rfl, rfl⟩

theorem libPdec_answer (P : Params) (id : Byte) (x : Int) (v : BitVec 1) :
    libPdec P id x v = .domfail ∨ ∃ q, libPdec P id x v = .ok (.point q) := by
  unfold libPdec
  cases findCurve P.table id with
  | none => exact .inl rfl
  | some c =>
    cases hx : decompressX P c x with
    | none => simp [hx]
    | some y => cases hd : decompress c y v <;> simp [hx, hd]

theorem returnFits_libPdec {s : State} (h : PointsFit s) {id : Byte} (hid : s.seq.curveid = some id) (x : Int)
    (v : BitVec 1) : ReturnFits s (libPdec s.lib.params id x v) := by
  rcases libPdec_answer s.lib.params id x v with hr | ⟨q, hr⟩
  · rw [hr]
    trivial
  · obtain ⟨c, hc, hq⟩ := libPdec_below h.table hr
    rw [hr]
    exact ⟨c, (curveOf_eq hid).trans hc, hq⟩

theorem returnFits_libPmul {s : State} (h : PointsFit s) {id : Byte} (hid : s.seq.curveid = some id) {c : Curve}
    (hc : curveOf s = some c) (k : Int) {q : Point} (hq : below c.p q) :
    ReturnFits s (libPmul s.lib.params id k q) := by
  have hf : findCurve s.lib.params.table id = some c := (curveOf_eq hid).symm.trans hc
  have hr : libPmul s.lib.params id k q = .ok (.point (mulPoint c k q)) := by simp [libPmul, hf]
  rw [hr]
  exact ⟨c, hc, libPmul_below h.table hf hq hr⟩

theorem returnFits_libPadd {s : State} (h : PointsFit s) {id : Byte} (hid : s.seq.curveid = some id) {c : Curve}
    (hc : curveOf s = some c) {a b : Point} (ha : below c.p a) (hb : below c.p b) :
    ReturnFits s (libPadd s.lib.params id a b) := by
  have hf : findCurve s.lib.params.table id = some c := (curveOf_eq hid).symm.trans hc
  have hr : libPadd s.lib.params id a b = .ok (.point (addPoint c a b)) := by simp [libPadd, hf]
  rw [hr]
  exact ⟨c, hc, libPadd_below h.table hf ha hb hr⟩

/-! The other calls answer no point and no curve parameters. -/

theorem returnFits_libBnhex (s : State) (x : List Byte) : ReturnFits s (libBnhex x) := by
  unfold libBnhex
  split <;> trivial

theorem returnFits_libBninv (s : State) (v m : Int) : ReturnFits s (libBninv v m) := by
  unfold libBninv
  split
  · split <;> trivial
  · split <;> trivial

theorem returnFits_libPenc (s : State) (P : Params) (id : Byte) (a : Point) : ReturnFits s (libPenc P id a) := by
  unfold libPenc
  split
  · trivial
  · trivial
  · split <;> trivial

theorem pointsFit_execLcCurve {s t : State} (h : PointsFit s) (he : execLcCurve s = .next t) : PointsFit t := by
  refine pointsFit_serve h he fun {m r} hch hf => ?_
  have hm := h.chan
  rw [chanPoints, hch] at hm
  cases m with
  | curve id => cases hf; exact returnFits_libCurve hm
  | _ => cases hf

theorem pointsFit_execLcBnhex {s t : State} (h : PointsFit s) (he : execLcBnhex s = .next t) : PointsFit t := by
  refine pointsFit_serve h he fun {m r} _ hf => ?_
  cases m with
  | bnhex x => cases hf; exact returnFits_libBnhex s x
  | _ => cases hf

theorem pointsFit_execLcBnbin {s t : State} (h : PointsFit s) (he : execLcBnbin s = .next t) : PointsFit t := by
  refine pointsFit_serve h he fun {m r} _ hf => ?_
  cases m with
  | bnbin d => cases hf; trivial
  | _ => cases hf

theorem pointsFit_execLcBnneg {s t : State} (h : PointsFit s) (he : execLcBnneg s = .next t) : PointsFit t := by
  refine pointsFit_serve h he fun {m r} _ hf => ?_
  cases m with
  | bnneg v => cases hf; trivial
  | _ => cases hf

theorem pointsFit_execLcBninv {s t : State} (h : PointsFit s) (he : execLcBninv s = .next t) : PointsFit t := by
  refine pointsFit_serve h he fun {m r} _ hf => ?_
  cases m with
  | bninv v m => cases hf; exact returnFits_libBninv s v m
  | _ => cases hf

theorem pointsFit_execLcPdec {s t : State} (h : PointsFit s) {v : BitVec 1} (he : execLcPdec v s = .next t) :
    PointsFit t := by
  refine pointsFit_serve h he fun {m r} hch hf => ?_
  have hm := h.chan
  rw [chanPoints, hch] at hm
  cases m with
  | pdec id x => cases hf; exact returnFits_libPdec h hm x v
  | _ => cases hf

theorem pointsFit_execLcPmul {s t : State} (h : PointsFit s) (he : execLcPmul s = .next t) : PointsFit t := by
  refine pointsFit_serve h he fun {m r} hch hf => ?_
  have hm := h.chan
  rw [chanPoints, hch] at hm
  cases m with
  | pmul id k q =>
    cases hf
    obtain ⟨hid, c, hc, hq⟩ := hm
    exact returnFits_libPmul h hid hc k hq
  | _ => cases hf

theorem pointsFit_execLcPadd {s t : State} (h : PointsFit s) (he : execLcPadd s = .next t) : PointsFit t := by
  refine pointsFit_serve h he fun {m r} hch hf => ?_
  have hm := h.chan
  rw [chanPoints, hch] at hm
  cases m with
  | padd id a b =>
    cases hf
    obtain ⟨hid, c, hc, ha, hb⟩ := hm
    exact returnFits_libPadd h hid hc ha hb
  | _ => cases hf

theorem pointsFit_execLcPinf {s t : State} (h : PointsFit s) (he : execLcPinf s = .next t) : PointsFit t := by
  refine pointsFit_serve h he fun {m r} _ hf => ?_
  cases m with
  | pinf a => cases hf; trivial
  | _ => cases hf

theorem pointsFit_execLcPenc {s t : State} (h : PointsFit s) (he : execLcPenc s = .next t) : PointsFit t := by
  refine pointsFit_serve h he fun {m r} _ hf => ?_
  cases m with
  | penc id a => cases hf; exact returnFits_libPenc s s.lib.params id a
  | _ => cases hf

/-! ### Every instruction, the fetch, the step -/

/-- Every instruction keeps the points in range, run from any state of the invariant. -/
theorem pointsFit_exec {i : Instr} {s t : State} (hi : Inv s) (h : PointsFit s) (ht : TableFits t.lib.params)
    (he : exec i s = .next t) : PointsFit t := by
  cases i with
  | recover => exact pointsFit_execRecover h he
  | recover2 => exact pointsFit_execRecover2 h he
  | vrid => exact pointsFit_execVrid h he
  | curve => exact pointsFit_callStep h he issue_sends (pointsFit_commitCurve hi h)
  | parser => exact pointsFit_callStep h he issue_sends fun _ => pointsFit_commitInt h (by decide)
  | parses => exact pointsFit_callStep h he issue_sends fun _ => pointsFit_commitInt h (by decide)
  | trunc => exact pointsFit_execTrunc h he
  | setx => exact pointsFit_execSetx h he
  | decomp => exact pointsFit_callStep h he issueDecomp_sends (pointsFit_commitPoint hi h)
  | ordmul => exact pointsFit_callStep h he issue_sends (pointsFit_commitPoint hi h)
  | ordchk => exact pointsFit_callStep h he issue_sends fun _ => pointsFit_commitOrdchk h
  | eload => exact pointsFit_callStep h he issue_sends fun _ => pointsFit_commitInt h (by decide)
  | inv => exact pointsFit_callStep h he issue_sends fun _ => pointsFit_commitInt h (by decide)
  | muls => exact pointsFit_callStep h he issue_sends (pointsFit_commitPoint hi h)
  | neg => exact pointsFit_callStep h he issue_sends fun _ => pointsFit_commitInt h (by decide)
  | mulg => exact pointsFit_callStep h he issue_sends (pointsFit_commitPoint hi h)
  | add => exact pointsFit_callStep h he issue_sends (pointsFit_commitPoint hi h)
  | mulq => exact pointsFit_callStep h he issue_sends (pointsFit_commitPoint hi h)
  | enc => exact pointsFit_callStep h he issue_sends fun _ => pointsFit_commitEnc h
  | strip => exact pointsFit_execStrip h he
  | idle => cases he; exact h
  | done => exact pointsFit_execDone h ht he
  | fail => exact pointsFit_execFail h ht he
  | lcCurve => exact pointsFit_execLcCurve h he
  | lcBnhex => exact pointsFit_execLcBnhex h he
  | lcBnbin => exact pointsFit_execLcBnbin h he
  | lcBnneg => exact pointsFit_execLcBnneg h he
  | lcBninv => exact pointsFit_execLcBninv h he
  | lcPdec => exact pointsFit_execLcPdec h he
  | lcPmul => exact pointsFit_execLcPmul h he
  | lcPadd => exact pointsFit_execLcPadd h he
  | lcPinf => exact pointsFit_execLcPinf h he
  | lcPenc => exact pointsFit_execLcPenc h he

/-- A fetch changes LIB's draws or the host's channel at most, and neither invariant reads them. -/
theorem fetch_keeps_inv_pointsFit {s : State} {f : Instr × State} (hi : Inv s) (h : PointsFit s)
    (hf : fetch s = .next f) : Inv f.2 ∧ PointsFit f.2 := by
  have drawn : Inv { s with lib := (drawReady s.lib).2 } ∧ PointsFit { s with lib := (drawReady s.lib).2 } :=
    ⟨inv_draw hi _ (by simp),
      pointsFit_of_unchanged h (drawReady_params s.lib) rfl rfl rfl rfl
        (chanPoints_of_unchanged h.chan (drawReady_params s.lib) rfl rfl)⟩
  rcases fetch_next hf with
    ⟨-, -, -, hs⟩ | ⟨-, -, -, hs⟩ | ⟨-, -, -, hs⟩ | ⟨-, -, r, rest, -, -, hs⟩ | ⟨-, -, -, hs⟩
  · rw [hs]; exact drawn
  · rw [hs]; exact drawn
  · rw [hs]; exact ⟨hi, h⟩
  · rw [hs]
    exact ⟨inv_host hi _,
      pointsFit_of_unchanged h rfl rfl rfl rfl rfl (chanPoints_of_unchanged h.chan rfl rfl rfl)⟩
  · rw [hs]; exact ⟨hi, h⟩

/-- Settles O49: a step is a reset, which empties the registers, or a fetch and an instruction, which keep the points in
range. -/
theorem stepKeepsPoints : Obligations.StepKeepsPoints := by
  unfold Obligations.StepKeepsPoints
  intro s t hi h ht hstep
  rcases step_next hstep with ⟨-, rfl⟩ | ⟨-, f, hf, he⟩
  · exact pointsFit_of_dropped ht rfl rfl rfl
  · obtain ⟨hi', h'⟩ := fetch_keeps_inv_pointsFit hi h hf
    exact pointsFit_exec hi' h' ht he

end Sys2Proof.Proofs
end

section
/-! PROOFS. Facts the proofs about steps share: the decoder of PHASE, the one writer of each register, reads of valid
registers, the argument values of each library call, and how a micro-op with a call answers. -/

namespace Sys2Proof.Proofs

open Sys2Proof Sys2Proof.Machine Sys2Proof.Safety

/-! ### PHASE codes (30_encoding R120, R121) -/

theorem decodePhase_of_encode {i : Instr} {c : PhaseCode} (h : encode i = some (.uop c)) : decodePhase c = .ok i := by
  cases i <;> cases h <;> rfl

/-- No two instructions share a PHASE code. -/
theorem encode_uop_inj {i j : Instr} {c : PhaseCode} (hi : encode i = some (.uop c)) (hj : encode j = some (.uop c)) :
    i = j := Except.ok.inj ((decodePhase_of_encode hi).symm.trans (decodePhase_of_encode hj))

/-- The code of a micro-op is in 0x01 to 0x12. -/
theorem microOp_code {i : Instr} {c : PhaseCode} (hi : isMicroOp i = true) (h : encode i = some (.uop c)) :
    1 ≤ c.toNat ∧ c.toNat ≤ 0x12 := by
  cases i <;> cases hi <;> cases h <;> decide

theorem ne_idle {c : PhaseCode} (h : 1 ≤ c.toNat) : c ≠ 0x00 := by
  rintro rfl
  exact absurd h (by decide)

/-- PHASE is the code of the instruction it decodes to. -/
theorem phase_eq_code {s : State} {i : Instr} {c : PhaseCode} (hd : decodePhase s.seq.phase = .ok i)
    (hc : encode i = some (.uop c)) : s.seq.phase = c :=
  Encoded.uop.inj (Option.some.inj ((decodePhase_ok hd).symm.trans hc))

theorem ne_fail {c : PhaseCode} (h : c.toNat ≤ 0x13) : c ≠ 0x14 := by
  rintro rfl
  exact absurd h (by decide)

/-- `next` counts PHASE up by one. -/
theorem code_succ {c : PhaseCode} (hc : c.toNat ≤ 0x12) : (c + 1).toNat = c.toNat + 1 := by
  rw [BitVec.toNat_add, show (1 : PhaseCode).toNat = 1 from rfl]
  omega

/-- One micro-op later the same registers are written, but those of that micro-op too. -/
theorem written_succ {w : Nat} {c : PhaseCode} (hc : c.toNat ≤ 0x12) :
    written w (c + 1) = (written w c || decide (c.toNat = w)) := by
  have h12 : c.toNat + 1 ≤ 0x13 := by omega
  have h13 : c.toNat ≤ 0x13 := by omega
  have key : w < c.toNat + 1 ↔ w < c.toNat ∨ c.toNat = w := by omega
  rw [written, written, code_succ hc]
  simp [h12, h13, key]

/-! ### Writers (10_state R38 to R46) -/

/-- The one micro-op that writes a data register; the latch is no data register. -/
def writerOf : RegName → Option Instr
  | .v => some .vrid
  | .cpL => some .curve
  | .deff => some .trunc
  | .inff => some .ordchk
  | .enclen => some .enc
  | .rlenb => some .strip
  | .b r => some (writerB r)
  | .p r => some (writerP r)
  | .recid | .curveid | .dlen | .rlen | .slen => none

/-- The one data register that a micro-op other than CURVE writes. -/
def destination : Instr → RegName
  | .vrid => .v
  | .parser => .b .br
  | .parses => .b .bs
  | .trunc => .deff
  | .setx => .b .bx
  | .decomp => .p .pr
  | .ordmul => .p .pchk
  | .ordchk => .inff
  | .eload => .b .be
  | .inv => .b .bri
  | .muls => .p .ps
  | .neg => .b .bne
  | .mulg => .p .pt
  | .add => .p .pu
  | .mulq => .p .pq
  | .enc => .enclen
  | .strip => .rlenb
  | _ => .cpL

/-- Every micro-op but CURVE writes one data register. -/
theorem eq_destination {r : RegName} {i : Instr} (hr : writerOf r = some i) (hi : i ≠ .curve) : r = destination i := by
  cases r with
  | b r =>
    cases hr
    cases r with
    | bn => exact absurd rfl hi
    | bp => exact absurd rfl hi
    | _ => rfl
  | p r =>
    cases hr
    cases r with
    | pg => exact absurd rfl hi
    | _ => rfl
  | cpL => cases hr; exact absurd rfl hi
  | v => cases hr; rfl
  | deff => cases hr; rfl
  | inff => cases hr; rfl
  | enclen => cases hr; rfl
  | rlenb => cases hr; rfl
  | _ => cases hr

/-- The valid bits of the data registers, register by register. -/
theorem dataLive_iff (q : Seq) : DataLive q ↔
    ∀ r i c, writerOf r = some i → encode i = some (.uop c) → valid q r = written c.toNat q.phase := by
  constructor
  · intro h r i c hr hc
    cases r with
    | b r => cases hr; cases r <;> cases hc <;> simp [valid, BFile.get, Code.parser, Code.parses, Code.setx, Code.eload,
        Code.neg, Code.inv, Code.curve, h.br, h.bs, h.bx, h.be, h.bne, h.bri, h.bn, h.bp]
    | p r => cases hr; cases r <;> cases hc <;> simp [valid, PFile.get, Code.curve, Code.decomp, Code.ordmul, Code.muls,
        Code.mulg, Code.add, Code.mulq, h.pg, h.pr, h.pchk, h.ps, h.pt, h.pu, h.pq]
    | v => cases hr; cases hc; exact h.v
    | cpL => cases hr; cases hc; exact h.cpL
    | deff => cases hr; cases hc; exact h.deff
    | inff => cases hr; cases hc; exact h.inff
    | enclen => cases hr; cases hc; exact h.enclen
    | rlenb => cases hr; cases hc; exact h.rlenb
    | _ => cases hr
  · intro h
    exact {
      v := h .v _ _ rfl rfl
      cpL := h .cpL _ _ rfl rfl
      bn := h (.b .bn) _ _ rfl rfl
      bp := h (.b .bp) _ _ rfl rfl
      pg := h (.p .pg) _ _ rfl rfl
      br := h (.b .br) _ _ rfl rfl
      bs := h (.b .bs) _ _ rfl rfl
      deff := h .deff _ _ rfl rfl
      bx := h (.b .bx) _ _ rfl rfl
      pr := h (.p .pr) _ _ rfl rfl
      pchk := h (.p .pchk) _ _ rfl rfl
      inff := h .inff _ _ rfl rfl
      be := h (.b .be) _ _ rfl rfl
      bri := h (.b .bri) _ _ rfl rfl
      ps := h (.p .ps) _ _ rfl rfl
      bne := h (.b .bne) _ _ rfl rfl
      pt := h (.p .pt) _ _ rfl rfl
      pu := h (.p .pu) _ _ rfl rfl
      pq := h (.p .pq) _ _ rfl rfl
      enclen := h .enclen _ _ rfl rfl
      rlenb := h .rlenb _ _ rfl rfl }

/-- A micro-op leaves the valid bit of every register it is not the writer of. -/
theorem valid_of_kept {i j : Instr} {s t : State} (h : Kept i s t) {r : RegName} (hr : writerOf r = some j)
    (hj : j ≠ i) : valid t.seq r = valid s.seq r := by
  cases r with
  | b r => cases hr; exact congrArg Option.isSome (h.bregs r hj)
  | p r => cases hr; exact congrArg Option.isSome (h.pregs r hj)
  | v => cases hr; exact congrArg Option.isSome (h.v hj.symm)
  | cpL => cases hr; exact congrArg Option.isSome (h.cpL hj.symm)
  | deff => cases hr; exact congrArg Option.isSome (h.deff hj.symm)
  | inff => cases hr; exact congrArg Option.isSome (h.inff hj.symm)
  | enclen => cases hr; exact congrArg Option.isSome (h.enclen hj.symm)
  | rlenb => cases hr; exact congrArg Option.isSome (h.rlenb hj.symm)
  | _ => cases hr

@[simp] theorem valid_complete (c : PhaseCode) (q : Seq) (s : State) (r : RegName) :
    valid (complete c q s).seq r = valid q r := by cases r <;> rfl

/-- A micro-op that keeps its frame, writes what it is the writer of and goes to the next code keeps the valid bits in
step with PHASE (10_state R30, R32). -/
theorem dataLive_complete {i : Instr} {c : PhaseCode} {s : State} {q : Seq} (hi : isMicroOp i = true)
    (hc : encode i = some (.uop c)) (hk : Kept i s { s with seq := q }) (hs : s.seq.phase = c)
    (hw : ∀ r, writerOf r = some i → valid q r = true) (h : DataLive s.seq) : DataLive (complete c q s).seq := by
  obtain ⟨-, hmax⟩ := microOp_code hi hc
  rw [dataLive_iff] at h ⊢
  intro r j w hr hj
  have hphase : (complete c q s).seq.phase = c + 1 := rfl
  rw [hphase, written_succ hmax, valid_complete]
  by_cases hji : j = i
  · subst hji
    cases hj.symm.trans hc
    simp [hw r hr]
  · have hne : c.toNat ≠ w.toNat := fun e => hji (encode_uop_inj hj (BitVec.eq_of_toNat_eq e ▸ hc))
    have hkept : valid q r = valid s.seq r := valid_of_kept hk hr hji
    rw [hkept, h r j w hr hj, hs]
    simp [hne]

/-! ### Reads of valid registers -/

/-- A data register whose writer has completed in the call holds a value. -/
theorem exists_of_written {α : Type} {x : Option α} {w : Nat} {c : PhaseCode} (hx : x.isSome = written w c)
    (hw : w < c.toNat) (hc : c.toNat ≤ 0x13) : ∃ a, x = some a :=
  Option.isSome_iff_exists.1 (hx.trans (written_of_lt hw hc))

/-- A register of the request latch holds a value during a call. -/
theorem exists_of_latched {α : Type} {x : Option α} {c : PhaseCode} (hx : x.isSome = decide (c ≠ 0x00))
    (hc : 1 ≤ c.toNat) : ∃ a, x = some a :=
  Option.isSome_iff_exists.1 (hx.trans (decide_eq_true (ne_idle hc)))

theorem none_of_unwritten {α : Type} {x : Option α} {w : Nat} {c : PhaseCode} (hx : x.isSome = written w c)
    (hc : c.toNat ≤ w) : x = none :=
  Option.not_isSome_iff_eq_none.1 (by simp [hx, written_of_le hc])

theorem bind_of_ok {α β : Type} {x : Except Fault α} {a : α} (h : x = .ok a) (f : α → Except Fault β) :
    (x >>= f) = f a := by rw [h]; rfl

theorem must_of {α : Type} {r : RegName} {o : Option α} {a : α} (h : o = some a) : must r o = .ok a := by rw [h]; rfl

theorem readB_of {q : Seq} {r : BReg} {v : Int} (h : q.b.get r = some v) : q.readB r = .ok v := must_of h

theorem readP_of {q : Seq} {r : PReg} {v : Point} (h : q.p.get r = some v) : q.readP r = .ok v := must_of h

/-! ### The argument values of each library call (30_encoding R124, R125) -/

theorem gather_lcCurve {s : State} {id : Byte} (hid : s.seq.curveid = some id) : gather s .lcCurve = .ok (.curve id) :=
  bind_of_ok (must_of hid) _

theorem gather_lcBnhex {s : State} {dst : BReg} {src : HexBuf} {x : List Byte} (hx : readHex s src = .ok x) :
    gather s (.lcBnhex dst src) = .ok (.bnhex x) := bind_of_ok hx _

theorem gather_lcBnbin {s : State} {dst : BReg} {d : List Byte} (hd : readDigest s = .ok d) :
    gather s (.lcBnbin dst) = .ok (.bnbin d) := bind_of_ok hd _

theorem gather_lcBnneg {s : State} {dst a : BReg} {v : Int} (hv : s.seq.b.get a = some v) :
    gather s (.lcBnneg dst a) = .ok (.bnneg v) := bind_of_ok (readB_of hv) _

theorem gather_lcBninv {s : State} {dst a b : BReg} {v m : Int} (hv : s.seq.b.get a = some v)
    (hm : s.seq.b.get b = some m) : gather s (.lcBninv dst a b) = .ok (.bninv v m) :=
  (bind_of_ok (readB_of hv) _).trans (bind_of_ok (readB_of hm) _)

theorem gather_lcPdec {s : State} {dst : PReg} {a : BReg} {v : BitVec 1} {id : Byte} {x : Int}
    (hid : s.seq.curveid = some id) (hx : s.seq.b.get a = some x) : gather s (.lcPdec dst a v) = .ok (.pdec id x) :=
  (bind_of_ok (must_of hid) _).trans (bind_of_ok (readB_of hx) _)

theorem gather_lcPmul {s : State} {dst b : PReg} {a : BReg} {id : Byte} {k : Int} {q : Point}
    (hid : s.seq.curveid = some id) (hk : s.seq.b.get a = some k) (hq : s.seq.p.get b = some q) :
    gather s (.lcPmul dst a b) = .ok (.pmul id k q) :=
  (bind_of_ok (must_of hid) _).trans ((bind_of_ok (readB_of hk) _).trans (bind_of_ok (readP_of hq) _))

theorem gather_lcPadd {s : State} {dst a b : PReg} {id : Byte} {q r : Point} (hid : s.seq.curveid = some id)
    (hq : s.seq.p.get a = some q) (hr : s.seq.p.get b = some r) : gather s (.lcPadd dst a b) = .ok (.padd id q r) :=
  (bind_of_ok (must_of hid) _).trans ((bind_of_ok (readP_of hq) _).trans (bind_of_ok (readP_of hr) _))

theorem gather_lcPinf {s : State} {a : PReg} {q : Point} (hq : s.seq.p.get a = some q) :
    gather s (.lcPinf a) = .ok (.pinf q) := bind_of_ok (readP_of hq) _

theorem gather_lcPenc {s : State} {a : PReg} {id : Byte} {q : Point} (hid : s.seq.curveid = some id)
    (hq : s.seq.p.get a = some q) : gather s (.lcPenc a) = .ok (.penc id q) :=
  (bind_of_ok (must_of hid) _).trans (bind_of_ok (readP_of hq) _)

/-- The contents of a hexadecimal buffer are as long as its length register says, and read where they are held. -/
theorem readHex_of {s : State} {src : HexBuf} {n : Byte} {x : List Byte}
    (hn : s.seq.validLen s.lib.params.lmax (hexSel src) = .ok n.toNat)
    (hx : readCells (s.seq.mem.get (hexSel src)) 0 n.toNat = some x) : readHex s src = .ok x :=
  (bind_of_ok hn _).trans (Seq.memRead_of hn (Nat.le_of_eq (Nat.zero_add _)) hx)

theorem validLen_digest {q : Seq} {lmax : Nat} {d : BitVec 16} (hd : q.dlen = some d) :
    q.validLen lmax .digest = .ok (min d.toNat lmax) := bind_of_ok (must_of hd) _

theorem validLen_rhex {q : Seq} {lmax : Nat} {n : Byte} (hn : q.rlen = some n) :
    q.validLen lmax .rhex = .ok n.toNat := bind_of_ok (must_of hn) _

theorem validLen_shex {q : Seq} {lmax : Nat} {n : Byte} (hn : q.slen = some n) :
    q.validLen lmax .shex = .ok n.toNat := bind_of_ok (must_of hn) _

theorem validLen_encbuf {q : Seq} {lmax : Nat} {n : BitVec 9} (hn : q.enclen = some n) :
    q.validLen lmax .encbuf = .ok n.toNat := bind_of_ok (must_of hn) _

theorem validLen_result {q : Seq} {lmax : Nat} {n : Byte} (hn : q.rlenb = some n) :
    q.validLen lmax .result = .ok n.toNat := bind_of_ok (must_of hn) _

/-- The significant bytes of the digest, where they are held. -/
theorem readDigest_of {s : State} {e : BitVec 8} {d : BitVec 16} {x : List Byte} (he : s.seq.deff = some e)
    (hd : s.seq.dlen = some d) (hle : e.toNat ≤ min d.toNat s.lib.params.lmax)
    (hx : readCells s.seq.mem.digest 0 e.toNat = some x) : readDigest s = .ok x :=
  (bind_of_ok (must_of he) _).trans (Seq.memRead_of (validLen_digest hd) (by omega) hx)

/-! ### The descriptors SEQ issues (30_encoding R124) -/

theorem decodeLcd_descriptor {v : BitVec 1} {c : PhaseCode} {d : Instr} (h : callOf v c = some d) :
    decodeLcd (descriptor d) = .ok d := by
  have decomp : ∀ v : BitVec 1, decodeLcd (descriptor (.lcPdec .pr .bx v)) = .ok (.lcPdec .pr .bx v) := by decide
  unfold callOf at h
  split at h <;> cases h
  case h_4 => exact decomp v
  all_goals rfl

end Sys2Proof.Proofs
end

section
/-! PROOFS. The invariant of the machine (10_state R30 to R46): from every state of it a step goes on, in no model fault, to
a state of it. One lemma for each way a micro-op commits, one for each micro-op by its PHASE code, one for LIB's answers,
then the fetch and the step; `StepKeepsInv`, `StepNeverStops` and `ResetInv` from them. -/

namespace Sys2Proof.Proofs

open Sys2Proof Sys2Proof.Machine Sys2Proof.Safety

/-! ### A micro-op completes -/

theorem buffersHeld_of_unchanged {q q' : Seq} {lmax : Nat} (h : BuffersHeld q lmax) (hmem : q'.mem = q.mem)
    (hdlen : q'.dlen = q.dlen) (hrlen : q'.rlen = q.rlen) (hslen : q'.slen = q.slen) (henclen : q'.enclen = q.enclen)
    (hrlenb : q'.rlenb = q.rlenb) : BuffersHeld q' lmax := by
  obtain ⟨h1, h2, h3, h4, h5, h6, h7, h8, h9, h10⟩ := h
  constructor <;> simp only [hmem, hdlen, hrlen, hslen, henclen, hrlenb] <;> assumption

theorem sizesOk_of_unchanged {q q' : Seq} {lmax : Nat} (h : SizesOk q lmax) (hdlen : q'.dlen = q.dlen)
    (hcpL : q'.cpL = q.cpL) (hdeff : q'.deff = q.deff) (henclen : q'.enclen = q.enclen) (hrlenb : q'.rlenb = q.rlenb) :
    SizesOk q' lmax := by
  obtain ⟨h1, h2, h3, h4⟩ := h
  constructor <;> simp only [hdlen, hcpL, hdeff, henclen, hrlenb] <;> assumption

/-- A micro-op that keeps its frame and writes what it is the writer of keeps the invariant, given lengths and buffers that
agree after it. -/
theorem inv_complete {s : State} (h : Inv s) {i : Instr} {c : PhaseCode} {q : Seq} (hi : isMicroOp i = true)
    (hc : encode i = some (.uop c)) (hp : s.seq.phase = c) (hk : Kept i s { s with seq := q })
    (hw : ∀ r, writerOf r = some i → valid q r = true) (hbuf : BuffersHeld q s.lib.params.lmax)
    (hsz : SizesOk q s.lib.params.lmax) (hwf : q.mem.wf = true) : Inv (complete c q s) := by
  obtain ⟨hmin, hmax⟩ := microOp_code hi hc
  have hsucc := code_succ hmax
  have hc0 : c ≠ 0x00 := ne_idle hmin
  have hn0 : c + 1 ≠ 0x00 := ne_idle (by omega)
  have hcF : c ≠ 0x14 := ne_fail (by omega)
  have hnF : c + 1 ≠ 0x14 := ne_fail (by omega)
  obtain ⟨hrecid, hcurveid, hdlen, hrlen, hslen⟩ := hk.latch
  constructor
  case phase => simp only [complete_seq, Seq.next_phase]; omega
  case lmax => exact h.lmax
  case data => exact dataLive_complete hi hc hk hp hw h.data
  case latch =>
    have busy {α : Type} {x y : Option α} (hx : x.isSome = decide (s.seq.phase ≠ 0x00)) (hy : y = x) :
        y.isSome = decide (c + 1 ≠ 0x00) := by
      rw [hy, hx, hp, decide_eq_true hc0, decide_eq_true hn0]
    exact ⟨busy h.latch.recid hrecid, busy h.latch.curveid hcurveid, busy h.latch.dlen hdlen, busy h.latch.rlen hrlen,
      busy h.latch.slen hslen⟩
  case buffers => exact buffersHeld_of_unchanged hbuf rfl rfl rfl rfl rfl rfl
  case sizes => exact sizesOk_of_unchanged hsz rfl rfl rfl rfl rfl
  case call => exact ⟨fun _ => rfl, fun hcp => by cases hcp⟩
  case errors =>
    obtain ⟨hkind, hphase⟩ := hk.errors
    have he := h.errors
    simp only [errorsOk, hp, if_neg hcF] at he
    rw [errorsOk, if_neg (show (complete c q s).seq.phase ≠ 0x14 from hnF)]
    exact (congrArg₂ (fun a b => decide (a = 0 ∧ b = 0)) hkind hphase).trans he
  case canonical => exact hwf

/-- Where no call is in flight, completing and committing are one. -/
theorem advance_eq_complete {s : State} {q : Seq} (c : PhaseCode) (hq : q.callpend = false) (hs : s.chan = .idle) :
    advance c q s = complete c q s := by
  simp only [advance, complete, Seq.next, ← hq, ← hs]

theorem inv_advance {s : State} {q : Seq} {c : PhaseCode} (hq : q.callpend = false) (hs : s.chan = .idle)
    (h : Inv (complete c q s)) : Inv (advance c q s) := by rwa [advance_eq_complete c hq hs]

/-- A micro-op that writes no buffer and no length register keeps the invariant. -/
theorem inv_complete_register {s : State} (h : Inv s) {i : Instr} {c : PhaseCode} {q : Seq} (hi : isMicroOp i = true)
    (hc : encode i = some (.uop c)) (hp : s.seq.phase = c) (hk : Kept i s { s with seq := q })
    (hw : valid q (destination i) = true) (hmem : q.mem = s.seq.mem)
    (hlen : i ≠ .curve ∧ i ≠ .trunc ∧ i ≠ .enc ∧ i ≠ .strip) : Inv (complete c q s) := by
  obtain ⟨hcurve, htrunc, henc, hstrip⟩ := hlen
  obtain ⟨-, -, hdlen, hrlen, hslen⟩ := hk.latch
  exact inv_complete h hi hc hp hk (fun r hr => eq_destination hr hcurve ▸ hw)
    (buffersHeld_of_unchanged h.buffers hmem hdlen hrlen hslen (hk.enclen henc) (hk.rlenb hstrip))
    (sizesOk_of_unchanged h.sizes hdlen (hk.cpL hcurve) (hk.deff htrunc) (hk.enclen henc) (hk.rlenb hstrip))
    ((congrArg Memory.wf hmem).trans h.canonical)

/-! ### The commits -/

/-- A call that can return an integer returns no value of another type. -/
theorem int_of_valueMatch {d : Instr} {v : LVal} (hd : valueMatch d (.int 0) = true) (hv : valueMatch d v = true) :
    ∃ n, v = .int n := by
  cases v with
  | int n => exact ⟨n, rfl⟩
  | _ => cases d <;> cases hd <;> cases hv

/-- So for a point. -/
theorem point_of_valueMatch {d : Instr} {v : LVal} (hd : valueMatch d (.point .inf) = true)
    (hv : valueMatch d v = true) : ∃ q, v = .point q := by
  cases v with
  | point q => exact ⟨q, rfl⟩
  | _ => cases d <;> cases hd <;> cases hv

section Commits

variable {s : State} {i : Instr} {c : PhaseCode} {r : LRet} {d : Instr} {k : ErrKind}

/-- The failure exit of a micro-op, with a kind it can raise, keeps the invariant. -/
theorem inv_fails (h : Inv s) (hi : isMicroOp i = true) (hc : encode i = some (.uop c)) (hp : s.seq.phase = c)
    (hm : mayRaise c k.code = true) : Inv (raise k c s) :=
  inv_raise h (hp ▸ ne_idle (microOp_code hi hc).1) hm

theorem isMicroOp_of_hasCall (hi : hasCall i = true) : isMicroOp i = true := by
  cases i <;> cases hi <;> rfl

/-- The commit of an integer call goes on and keeps the invariant: the integer, or a kind the micro-op can raise. -/
theorem inv_commitInt (h : Inv s) (hi : hasCall i = true) (hc : encode i = some (.uop c)) (hp : s.seq.phase = c)
    {dst : BReg} (hdst : destination i = .b dst) (hw : writerB dst = i) (hcurve : i ≠ .curve) (hd : valueMatch d (.int 0) = true)
    (hk : mayRaise c k.code = true) (hk4 : mayRaise c 4 = true) (hr : inFlight d (.returned r) = true) :
    ∃ t, commitInt c dst k s r = .ok t ∧ Inv t := by
  have hm := isMicroOp_of_hasCall hi
  cases r with
  | ok v =>
    obtain ⟨n, rfl⟩ := int_of_valueMatch hd hr
    have hlen : i ≠ .curve ∧ i ≠ .trunc ∧ i ≠ .enc ∧ i ≠ .strip := by
      refine ⟨hcurve, ?_, ?_, ?_⟩ <;> rintro rfl <;> cases hdst
    exact ⟨_, rfl, inv_complete_register h hm hc hp (kept_writeB hw s n) (by simp [hdst, valid]) rfl hlen⟩
  | domfail => exact ⟨_, rfl, inv_fails h hm hc hp hk⟩
  | resfail => exact ⟨_, rfl, inv_fails h hm hc hp hk4⟩
  | reserved => exact ⟨_, rfl, inv_fails h hm hc hp hk4⟩

/-- So does the commit of a point call. -/
theorem inv_commitPoint (h : Inv s) (hi : hasCall i = true) (hc : encode i = some (.uop c)) (hp : s.seq.phase = c)
    {dst : PReg} (hdst : destination i = .p dst) (hw : writerP dst = i) (hcurve : i ≠ .curve) (hd : valueMatch d (.point .inf) = true)
    (hk : mayRaise c k.code = true) (hk4 : mayRaise c 4 = true) (hr : inFlight d (.returned r) = true) :
    ∃ t, commitPoint c dst k s r = .ok t ∧ Inv t := by
  have hm := isMicroOp_of_hasCall hi
  cases r with
  | ok v =>
    obtain ⟨q, rfl⟩ := point_of_valueMatch hd hr
    have hlen : i ≠ .curve ∧ i ≠ .trunc ∧ i ≠ .enc ∧ i ≠ .strip := by
      refine ⟨hcurve, ?_, ?_, ?_⟩ <;> rintro rfl <;> cases hdst
    exact ⟨_, rfl, inv_complete_register h hm hc hp (kept_writeP hw s q) (by simp [hdst, valid]) rfl hlen⟩
  | domfail => exact ⟨_, rfl, inv_fails h hm hc hp hk⟩
  | resfail => exact ⟨_, rfl, inv_fails h hm hc hp hk4⟩
  | reserved => exact ⟨_, rfl, inv_fails h hm hc hp hk4⟩

theorem writeCurve_mem (q : Seq) (p n : Nat) (g : Point) (l : Nat) : (writeCurve q p n g l).mem = q.mem := rfl

theorem writeCurve_cpL (q : Seq) (p n : Nat) (g : Point) (l : Nat) :
    (writeCurve q p n g l).cpL = some (BitVec.ofNat 8 l) := rfl

theorem valid_writeCurve {q : Seq} {p n l : Nat} {g : Point} {r : RegName} (hr : writerOf r = some .curve) :
    valid (writeCurve q p n g l) r = true := by
  cases r with
  | b r => cases r <;> cases hr <;> rfl
  | p r => cases r <;> cases hr; rfl
  | cpL => rfl
  | _ => cases hr

/-- CURVE writes CP (41 R172): before it no length that depends on CP.L is valid. -/
theorem inv_writeCurve (h : Inv s) (hp : s.seq.phase = Code.curve) {p n l : Nat} (g : Point)
    (hf : curveFits s.lib.params.lmax p n l = true) : Inv (complete Code.curve (writeCurve s.seq p n g l) s) := by
  obtain ⟨hmin, hmax, -⟩ := curveFits_bounds hf
  have hl : (BitVec.ofNat 8 l).toNat = l := by
    have := h.lmax.2
    rw [BitVec.toNat_ofNat, Nat.mod_eq_of_lt (by omega)]
  have unwritten {α : Type} {x : Option α} {w : Nat} (hx : x.isSome = written w s.seq.phase) (hw : 2 ≤ w) :
      x = none := none_of_unwritten hx (hp ▸ hw)
  have hk := kept_writeCurve s p n g l
  obtain ⟨-, -, hdlen, hrlen, hslen⟩ := hk.latch
  have henclen := hk.enclen (by decide)
  have hrlenb := hk.rlenb (by decide)
  have hsz : SizesOk (writeCurve s.seq p n g l) s.lib.params.lmax := by
    constructor
    case l =>
      intro l' hl'
      rw [writeCurve_cpL] at hl'
      cases hl'
      rw [hl]
      exact ⟨hmin, hmax⟩
    case deff => rw [(hk.deff (by decide)).trans (unwritten h.data.deff (by decide))]; exact fun e he => nomatch he
    case enclen => rw [henclen.trans (unwritten h.data.enclen (by decide))]; exact fun e he => nomatch he
    case rlenb => rw [hrlenb.trans (unwritten h.data.rlenb (by decide))]; exact fun e he => nomatch he
  have hmem := writeCurve_mem s.seq p n g l
  exact inv_complete h (i := .curve) rfl rfl hp hk (fun r hr => valid_writeCurve hr)
    (buffersHeld_of_unchanged h.buffers hmem hdlen hrlen hslen henclen hrlenb) hsz ((congrArg Memory.wf hmem).trans h.canonical)

/-- CURVE's commit (41 R172). -/
theorem inv_commitCurve (h : Inv s) (hp : s.seq.phase = Code.curve) (hr : inFlight .lcCurve (.returned r) = true) :
    ∃ t, commitCurve s r = .ok t ∧ Inv t := by
  have fails : Inv (raise .arithmeticFailure Code.curve s) := inv_fails h (i := .curve) rfl rfl hp rfl
  cases r with
  | ok v =>
    cases v with
    | curve p n g l =>
      simp only [commitCurve]
      split
      · rename_i hf
        exact ⟨_, rfl, inv_writeCurve h hp g hf⟩
      · exact ⟨_, rfl, fails⟩
    | _ => cases hr
  | domfail => exact ⟨_, rfl, fails⟩
  | resfail => exact ⟨_, rfl, fails⟩
  | reserved => exact ⟨_, rfl, fails⟩

/-- ORDCHK's commit (43 R201). -/
theorem inv_commitOrdchk {a : PReg} (h : Inv s) (hp : s.seq.phase = Code.ordchk)
    (hr : inFlight (.lcPinf a) (.returned r) = true) : ∃ t, commitOrdchk s r = .ok t ∧ Inv t := by
  have fails : Inv (raise .arithmeticFailure Code.ordchk s) := inv_fails h (i := .ordchk) rfl rfl hp rfl
  cases r with
  | ok v =>
    cases v with
    | bit f =>
      simp only [commitOrdchk]
      split
      · exact ⟨_, rfl, inv_fails h (i := .ordchk) (k := .invalidPoint) rfl rfl hp rfl⟩
      · exact ⟨_, rfl, inv_complete_register h (i := .ordchk) rfl rfl hp (kept_writeInff s f) rfl rfl (by decide)⟩
    | _ => cases hr
  | domfail => exact ⟨_, rfl, fails⟩
  | resfail => exact ⟨_, rfl, fails⟩
  | reserved => exact ⟨_, rfl, fails⟩

/-- The encoding of 2·L + 1 bytes is stored and ENCLEN counts it (45 R230). -/
theorem inv_writeEncoding (h : Inv s) (hp : s.seq.phase = Code.enc) {l : BitVec 8} {bytes : List Byte} {q : Seq}
    (hl : s.seq.cpL = some l) (hx : bytes.length = 2 * l.toNat + 1)
    (hw : s.seq.memWrite s.lib.params.lmax .encbuf 0 bytes = .ok q) :
    Inv (complete Code.enc { q with enclen := some (BitVec.ofNat 9 (2 * l.toNat + 1)) } s) := by
  have hn : (BitVec.ofNat 9 (2 * l.toNat + 1)).toNat = 2 * l.toNat + 1 := by
    rw [BitVec.toNat_ofNat, Nat.mod_eq_of_lt (by omega)]
  have hwf := Seq.memWrite_wf h.canonical hw
  have hk := kept_writeEncoding hx hw
  obtain ⟨-, rfl⟩ := Seq.memWrite_ok hw
  refine inv_complete h (i := .enc) rfl rfl hp hk (fun r hr => ?_) ?_ ?_ hwf
  · rw [eq_destination hr (by decide)]
    rfl
  · obtain ⟨h1, h2, h3, -, h5, h6, h7, h8, -, h10⟩ := h.buffers
    refine ⟨h1, h2, h3, fun n hn' => ?_, h5, h6, h7, h8, (fun hn' => by cases hn'), h10⟩
    cases hn'
    rw [hn, ← hx]
    exact Option.isSome_iff_exists.2 ⟨bytes, readCells_writeCells _ 0 bytes⟩
  · obtain ⟨h1, h2, -, h4⟩ := h.sizes
    refine ⟨h1, h2, fun n hn' => ?_, h4⟩
    cases hn'
    exact ⟨l, hl, hn⟩

/-- The result of 2·L bytes is stored and RLENB counts it (45 R231). -/
theorem inv_writeResult (h : Inv s) (hp : s.seq.phase = Code.strip) {l : BitVec 8} {bytes : List Byte} {q : Seq}
    (hl : s.seq.cpL = some l) (hx : bytes.length = 2 * l.toNat)
    (hw : s.seq.memWrite s.lib.params.lmax .result 0 bytes = .ok q) :
    Inv (complete Code.strip { q with rlenb := some (BitVec.ofNat 8 (2 * l.toNat)) } s) := by
  have hn : (BitVec.ofNat 8 (2 * l.toNat)).toNat = 2 * l.toNat := by
    have h1 := (h.sizes.l l hl).2
    have h2 := h.lmax.2
    rw [BitVec.toNat_ofNat, Nat.mod_eq_of_lt (by omega)]
  have hwf := Seq.memWrite_wf h.canonical hw
  have hk := kept_writeResult h.lmax.2 hx hw
  obtain ⟨-, rfl⟩ := Seq.memWrite_ok hw
  refine inv_complete h (i := .strip) rfl rfl hp hk (fun r hr => ?_) ?_ ?_ hwf
  · rw [eq_destination hr (by decide)]
    rfl
  · obtain ⟨h1, h2, h3, h4, -, h6, h7, h8, h9, -⟩ := h.buffers
    refine ⟨h1, h2, h3, h4, fun n hn' => ?_, h6, h7, h8, h9, (fun hn' => by cases hn')⟩
    cases hn'
    rw [hn, ← hx]
    exact Option.isSome_iff_exists.2 ⟨bytes, readCells_writeCells _ 0 bytes⟩
  · obtain ⟨h1, h2, h3, -⟩ := h.sizes
    refine ⟨h1, h2, h3, fun n hn' => ?_⟩
    cases hn'
    exact ⟨l, hl, hn⟩

/-- ENC's commit (45 R230): with L <= LMAX the encoding is within ENCBUF's capacity. -/
theorem inv_commitEnc {a : PReg} (h : Inv s) (hp : s.seq.phase = Code.enc)
    (hr : inFlight (.lcPenc a) (.returned r) = true) : ∃ t, commitEnc s r = .ok t ∧ Inv t := by
  have fails : Inv (raise .arithmeticFailure Code.enc s) := inv_fails h (i := .enc) rfl rfl hp rfl
  cases r with
  | ok v =>
    cases v with
    | bytes x =>
      obtain ⟨l, hl⟩ := exists_of_written h.data.cpL (by rw [hp]; decide) (by rw [hp]; decide)
      simp only [commitEnc, commitEncoding, bind_of_ok (must_of hl)]
      split
      · rename_i hx
        have hcap : 0 + x.length ≤ capacity s.lib.params.lmax .encbuf := by
          have := (h.sizes.l l hl).2
          simp only [capacity]
          omega
        have hw := Seq.memWrite_of_le (q := s.seq) hcap
        exact ⟨_, bind_of_ok hw _, inv_writeEncoding h hp hl hx hw⟩
      · exact ⟨_, rfl, fails⟩
    | _ => cases hr
  | domfail => exact ⟨_, rfl, fails⟩
  | resfail => exact ⟨_, rfl, fails⟩
  | reserved => exact ⟨_, rfl, fails⟩

end Commits

/-! ### Issue -/

/-- The argument values of the call PHASE names are there (10_state R33, 20_memory R82). -/
theorem gather_of_callOf {s : State} (h : Inv s) {d : Instr}
    (hd : callOf (s.seq.v.getD 0) s.seq.phase = some d) : ∃ m, gather s d = .ok m := by
  unfold callOf at hd
  split at hd <;> rename_i hph
  all_goals cases hd
  all_goals obtain ⟨id, hid⟩ := exists_of_latched h.latch.curveid (by omega)
  case h_1 => exact ⟨_, gather_lcCurve hid⟩
  case h_2 =>
    obtain ⟨n, hn⟩ := exists_of_latched h.latch.rlen (by omega)
    obtain ⟨x, hx⟩ := Option.isSome_iff_exists.1 (h.buffers.rhex n hn)
    exact ⟨_, gather_lcBnhex (readHex_of (validLen_rhex hn) hx)⟩
  case h_3 =>
    obtain ⟨n, hn⟩ := exists_of_latched h.latch.slen (by omega)
    obtain ⟨x, hx⟩ := Option.isSome_iff_exists.1 (h.buffers.shex n hn)
    exact ⟨_, gather_lcBnhex (readHex_of (validLen_shex hn) hx)⟩
  case h_4 =>
    obtain ⟨x, hx⟩ := exists_of_written h.data.bx (by omega) (by omega)
    exact ⟨_, gather_lcPdec hid hx⟩
  case h_5 =>
    obtain ⟨n, hn⟩ := exists_of_written h.data.bn (by omega) (by omega)
    obtain ⟨q, hq⟩ := exists_of_written h.data.pr (by omega) (by omega)
    exact ⟨_, gather_lcPmul hid hn hq⟩
  case h_6 =>
    obtain ⟨q, hq⟩ := exists_of_written h.data.pchk (by omega) (by omega)
    exact ⟨_, gather_lcPinf hq⟩
  case h_7 =>
    obtain ⟨e, he⟩ := exists_of_written h.data.deff (by omega) (by omega)
    obtain ⟨n, l, hn, hl, hmin⟩ := h.sizes.deff e he
    have hle : e.toNat ≤ min n.toNat s.lib.params.lmax := by have := (h.sizes.l l hl).2; omega
    obtain ⟨x, hx⟩ := Option.isSome_iff_exists.1
      (readCells_part (m := e.toNat) (h.buffers.digest n hn) (Nat.le_refl 0) (by omega))
    exact ⟨_, gather_lcBnbin (readDigest_of he hn hle hx)⟩
  case h_8 =>
    obtain ⟨r, hr⟩ := exists_of_written h.data.br (by omega) (by omega)
    obtain ⟨n, hn⟩ := exists_of_written h.data.bn (by omega) (by omega)
    exact ⟨_, gather_lcBninv hr hn⟩
  case h_9 =>
    obtain ⟨k, hk⟩ := exists_of_written h.data.bs (by omega) (by omega)
    obtain ⟨q, hq⟩ := exists_of_written h.data.pr (by omega) (by omega)
    exact ⟨_, gather_lcPmul hid hk hq⟩
  case h_10 =>
    obtain ⟨e, he⟩ := exists_of_written h.data.be (by omega) (by omega)
    exact ⟨_, gather_lcBnneg he⟩
  case h_11 =>
    obtain ⟨k, hk⟩ := exists_of_written h.data.bne (by omega) (by omega)
    obtain ⟨q, hq⟩ := exists_of_written h.data.pg (by omega) (by omega)
    exact ⟨_, gather_lcPmul hid hk hq⟩
  case h_12 =>
    obtain ⟨a, ha⟩ := exists_of_written h.data.ps (by omega) (by omega)
    obtain ⟨b, hb⟩ := exists_of_written h.data.pt (by omega) (by omega)
    exact ⟨_, gather_lcPadd hid ha hb⟩
  case h_13 =>
    obtain ⟨k, hk⟩ := exists_of_written h.data.bri (by omega) (by omega)
    obtain ⟨q, hq⟩ := exists_of_written h.data.pu (by omega) (by omega)
    exact ⟨_, gather_lcPmul hid hk hq⟩
  case h_14 =>
    obtain ⟨q, hq⟩ := exists_of_written h.data.pq (by omega) (by omega)
    exact ⟨_, gather_lcPenc hid hq⟩

theorem inv_issue {s : State} (h : Inv s) {d : Instr} (hd : callOf (s.seq.v.getD 0) s.seq.phase = some d) :
    ∃ t, issue d s = .ok t ∧ Inv t := by
  obtain ⟨m, hm⟩ := gather_of_callOf h hd
  exact ⟨_, issue_of hm, inv_send h hd (gather_args hm)⟩

theorem inv_issueDecomp {s : State} (h : Inv s) (hp : s.seq.phase = Code.decomp) :
    ∃ t, issueDecomp s = .ok t ∧ Inv t := by
  obtain ⟨v, hv⟩ := exists_of_written h.data.v (by rw [hp]; decide) (by rw [hp]; decide)
  have hi : issueDecomp s = issue (.lcPdec .pr .bx v) s := bind_of_ok (must_of hv) _
  rw [hi]
  exact inv_issue h (by rw [hv, hp]; rfl)

/-! ### A micro-op with a call -/

/-- A micro-op with a call goes on and keeps the invariant if its issue does, and its commit on a return of the call. -/
theorem inv_callStep {s : State} (h : Inv s) {d : Instr} {iss : Except Fault State}
    {commit : LRet → Except Fault State} (hd : callOf (s.seq.v.getD 0) s.seq.phase = some d)
    (hissue : ∃ t, iss = .ok t ∧ Inv t)
    (hcommit : ∀ {r}, inFlight d (.returned r) = true → ∃ t, commit r = .ok t ∧ Inv t) :
    ∃ t, callStep iss commit s = .next t ∧ Inv t := by
  cases hcp : s.seq.callpend with
  | false =>
    obtain ⟨t, ht, hi⟩ := hissue
    exact ⟨t, by rw [callStep_issue hcp, ht, run_ok], hi⟩
  | true =>
    obtain ⟨e, he, -, hf⟩ := h.call.on hcp
    cases hd.symm.trans he
    cases hch : s.chan with
    | idle => rw [hch] at hf; cases hf
    | sent m => exact ⟨s, callStep_wait hcp hch, h⟩
    | returned r =>
      rw [hch] at hf
      obtain ⟨t, ht, hi⟩ := hcommit hf
      exact ⟨t, by rw [callStep_commit hcp hch, ht, run_ok], hi⟩

/-- A micro-op with an integer call. -/
theorem inv_intOp {s : State} (h : Inv s) {i d : Instr} {c : PhaseCode} {dst : BReg} {k : ErrKind}
    (hp : s.seq.phase = c) (hi : hasCall i = true) (hc : encode i = some (.uop c)) (hcall : ∀ v, callOf v c = some d)
    (hdst : destination i = .b dst) (hw : writerB dst = i) (hcurve : i ≠ .curve) (hd : valueMatch d (.int 0) = true)
    (hk : mayRaise c k.code = true) (hk4 : mayRaise c 4 = true) :
    ∃ t, callStep (issue d s) (commitInt c dst k s) s = .next t ∧ Inv t :=
  have hcall := hp ▸ hcall _
  inv_callStep h hcall (inv_issue h hcall) fun hr => inv_commitInt h hi hc hp hdst hw hcurve hd hk hk4 hr

/-- A micro-op with a point call. -/
theorem inv_pointOp {s : State} (h : Inv s) {i d : Instr} {c : PhaseCode} {dst : PReg} {k : ErrKind}
    (hp : s.seq.phase = c) (hi : hasCall i = true) (hc : encode i = some (.uop c)) (hcall : ∀ v, callOf v c = some d)
    (hdst : destination i = .p dst) (hw : writerP dst = i) (hcurve : i ≠ .curve) (hd : valueMatch d (.point .inf) = true)
    (hk : mayRaise c k.code = true) (hk4 : mayRaise c 4 = true) :
    ∃ t, callStep (issue d s) (commitPoint c dst k s) s = .next t ∧ Inv t :=
  have hcall := hp ▸ hcall _
  inv_callStep h hcall (inv_issue h hcall) fun hr => inv_commitPoint h hi hc hp hdst hw hcurve hd hk hk4 hr

/-! ### The micro-ops without a call -/

/-- Where PHASE names no call none is in flight (10_state R37). -/
theorem idle_of_callOf_none {s : State} (h : Inv s) (hn : ∀ v, callOf v s.seq.phase = none) :
    s.seq.callpend = false ∧ s.chan = .idle := by
  have hcp : s.seq.callpend = false := by
    by_contra hcp
    obtain ⟨d, hd, -, -⟩ := h.call.on (by simpa using hcp)
    cases (hn _).symm.trans hd
  exact ⟨hcp, h.call.off hcp⟩

theorem inv_execVrid {s : State} (h : Inv s) (hp : s.seq.phase = Code.vrid) : ∃ t, execVrid s = .next t ∧ Inv t := by
  obtain ⟨hcp, hch⟩ := idle_of_callOf_none h fun v => by rw [hp]; rfl
  obtain ⟨recid, hr⟩ := exists_of_latched h.latch.recid (by rw [hp]; decide)
  rw [execVrid, bind_of_ok (must_of hr)]
  cases hv : canonicalId recid with
  | none => exact ⟨_, rfl, inv_fails h (i := .vrid) (k := .invalidRecoveryId) rfl rfl hp rfl⟩
  | some v =>
    refine ⟨_, rfl, inv_advance hcp hch ?_⟩
    exact inv_complete_register h (i := .vrid) rfl rfl hp (kept_writeV s v) rfl rfl (by decide)

theorem inv_execSetx {s : State} (h : Inv s) (hp : s.seq.phase = Code.setx) : ∃ t, execSetx s = .next t ∧ Inv t := by
  obtain ⟨hcp, hch⟩ := idle_of_callOf_none h fun v => by rw [hp]; rfl
  obtain ⟨r, hr⟩ := exists_of_written h.data.br (by rw [hp]; decide) (by rw [hp]; decide)
  rw [execSetx, bind_of_ok (readB_of (r := .br) hr)]
  refine ⟨_, rfl, inv_advance hcp hch ?_⟩
  exact inv_complete_register h (i := .setx) rfl rfl hp (kept_writeB (r := .bx) rfl s r) rfl rfl (by decide)

/-- TRUNC (41 R175): DEFF counts min(DLEN, L), which its 8 bits hold. -/
theorem inv_execTrunc {s : State} (h : Inv s) (hp : s.seq.phase = Code.trunc) :
    ∃ t, execTrunc s = .next t ∧ Inv t := by
  obtain ⟨hcp, hch⟩ := idle_of_callOf_none h fun v => by rw [hp]; rfl
  obtain ⟨d, hd⟩ := exists_of_latched h.latch.dlen (by rw [hp]; decide)
  obtain ⟨l, hl⟩ := exists_of_written h.data.cpL (by rw [hp]; decide) (by rw [hp]; decide)
  rw [execTrunc, bind_of_ok (must_of hd), bind_of_ok (must_of hl)]
  refine ⟨_, rfl, inv_advance hcp hch ?_⟩
  refine inv_complete h (i := .trunc) rfl rfl hp (kept_writeDeff s _) (fun r hr => ?_)
    (buffersHeld_of_unchanged h.buffers rfl rfl rfl rfl rfl rfl) ?_ h.canonical
  · rw [eq_destination hr (by decide)]
    rfl
  · obtain ⟨h1, -, h3, h4⟩ := h.sizes
    refine ⟨h1, fun e he => ?_, h3, h4⟩
    cases he
    refine ⟨d, l, hd, hl, ?_⟩
    rw [BitVec.toNat_ofNat, Nat.mod_eq_of_lt (by omega)]

/-- STRIP (45 R231): the 2·L bytes are within ENCBUF's valid length and RESULT's capacity, and RLENB counts them. -/
theorem inv_execStrip {s : State} (h : Inv s) (hp : s.seq.phase = Code.strip) :
    ∃ t, execStrip s = .next t ∧ Inv t := by
  obtain ⟨hcp, hch⟩ := idle_of_callOf_none h fun v => by rw [hp]; rfl
  obtain ⟨l, hl⟩ := exists_of_written h.data.cpL (by rw [hp]; decide) (by rw [hp]; decide)
  obtain ⟨n, hn⟩ := exists_of_written h.data.enclen (by rw [hp]; decide) (by rw [hp]; decide)
  obtain ⟨l', hl', hlen⟩ := h.sizes.enclen n hn
  cases hl.symm.trans hl'
  have hlmax : l.toNat ≤ s.lib.params.lmax := (h.sizes.l l hl).2
  have hmax : s.lib.params.lmax ≤ 127 := h.lmax.2
  obtain ⟨x, hx⟩ := Option.isSome_iff_exists.1
    (readCells_part (j := 1) (m := 2 * l.toNat) (h.buffers.encbuf n hn) (by omega) (by omega))
  have hread := Seq.memRead_of (q := s.seq) (lmax := s.lib.params.lmax) (b := .encbuf) (validLen_encbuf hn)
    (i := 1) (n := 2 * l.toNat) (by omega) hx
  have hxl : x.length = 2 * l.toNat := memRead_length hread
  have hwrite := Seq.memWrite_of_le (q := s.seq) (lmax := s.lib.params.lmax) (b := .result) (i := 0) (bytes := x)
    (by simp only [capacity]; omega)
  rw [execStrip, bind_of_ok (must_of hl), bind_of_ok hread, bind_of_ok hwrite]
  exact ⟨_, rfl, inv_advance hcp hch (inv_writeResult h hp hl hxl hwrite)⟩

/-! ### The resting codes -/

/-- A response that is taken brings ECREC to rest; one that is held changes nothing it holds (40 R154, R156). -/
theorem inv_offer {s : State} (h : Inv s) (rsp : List Byte) : Inv (offer rsp s) := by
  rcases offer_cases rsp s with ⟨-, ho⟩ | ⟨-, ho⟩
  · rw [ho]
    exact inv_rested s h.lmax _ rfl _ _ (betweenCalls_lmax s.lib)
  · rw [ho]
    exact inv_host h _

/-- At DONE the response of the success can be read (40 R154). -/
theorem successRsp_of_done {s : State} (h : Inv s) (hp : s.seq.phase = Code.done) :
    ∃ n payload, s.seq.rlenb = some n ∧ successRsp s = .ok ([0x00, 0x00, n] ++ payload) := by
  obtain ⟨n, hn⟩ := exists_of_written h.data.rlenb (by rw [hp]; decide) (by rw [hp]; decide)
  obtain ⟨x, hx⟩ := Option.isSome_iff_exists.1 (h.buffers.result n hn)
  have hread := Seq.memRead_of (q := s.seq) (lmax := s.lib.params.lmax) (b := .result) (validLen_result hn)
    (i := 0) (n := n.toNat) (by omega) hx
  exact ⟨n, x, hn, by rw [successRsp, bind_of_ok (must_of hn), bind_of_ok hread]⟩

theorem inv_execDone {s : State} (h : Inv s) (hp : s.seq.phase = Code.done) : ∃ t, execDone s = .next t ∧ Inv t := by
  obtain ⟨n, x, -, hx⟩ := successRsp_of_done h hp
  rw [execDone, bind_of_ok hx]
  exact ⟨_, rfl, inv_offer h _⟩

/-! ### What PHASE names -/

/-- The micro-op or resting code in PHASE goes on, in no model fault, and keeps the invariant. -/
theorem inv_exec_phase {s : State} (h : Inv s) {i : Instr} (hd : decodePhase s.seq.phase = .ok i) :
    ∃ t, exec i s = .next t ∧ Inv t := by
  have hp {c : PhaseCode} (hc : encode i = some (.uop c)) : s.seq.phase = c := phase_eq_code hd hc
  cases i with
  | vrid => exact inv_execVrid h (hp rfl)
  | curve =>
    have hcall : callOf (s.seq.v.getD 0) s.seq.phase = some .lcCurve := by rw [hp rfl]; rfl
    exact inv_callStep h hcall (inv_issue h hcall) (inv_commitCurve h (hp rfl))
  | parser =>
    exact inv_intOp h (hp rfl) (i := .parser) rfl rfl (fun _ => rfl) rfl rfl (by decide) rfl rfl rfl
  | parses =>
    exact inv_intOp h (hp rfl) (i := .parses) rfl rfl (fun _ => rfl) rfl rfl (by decide) rfl rfl rfl
  | trunc => exact inv_execTrunc h (hp rfl)
  | setx => exact inv_execSetx h (hp rfl)
  | decomp =>
    obtain ⟨v, hv⟩ := exists_of_written h.data.v (by rw [hp rfl]; decide) (by rw [hp rfl]; decide)
    have hcall : callOf (s.seq.v.getD 0) s.seq.phase = some (.lcPdec .pr .bx v) := by rw [hp rfl, hv]; rfl
    exact inv_callStep h hcall (inv_issueDecomp h (hp rfl))
      (inv_commitPoint h (i := .decomp) rfl rfl (hp rfl) rfl rfl (by decide) rfl rfl rfl)
  | ordmul =>
    exact inv_pointOp h (hp rfl) (i := .ordmul) rfl rfl (fun _ => rfl) rfl rfl (by decide) rfl rfl rfl
  | ordchk =>
    have hcall : callOf (s.seq.v.getD 0) s.seq.phase = some (.lcPinf .pchk) := by rw [hp rfl]; rfl
    exact inv_callStep h hcall (inv_issue h hcall) (inv_commitOrdchk h (hp rfl))
  | eload =>
    exact inv_intOp h (hp rfl) (i := .eload) rfl rfl (fun _ => rfl) rfl rfl (by decide) rfl rfl rfl
  | inv =>
    exact inv_intOp h (hp rfl) (i := .inv) rfl rfl (fun _ => rfl) rfl rfl (by decide) rfl rfl rfl
  | muls =>
    exact inv_pointOp h (hp rfl) (i := .muls) rfl rfl (fun _ => rfl) rfl rfl (by decide) rfl rfl rfl
  | neg =>
    exact inv_intOp h (hp rfl) (i := .neg) rfl rfl (fun _ => rfl) rfl rfl (by decide) rfl rfl rfl
  | mulg =>
    exact inv_pointOp h (hp rfl) (i := .mulg) rfl rfl (fun _ => rfl) rfl rfl (by decide) rfl rfl rfl
  | add =>
    exact inv_pointOp h (hp rfl) (i := .add) rfl rfl (fun _ => rfl) rfl rfl (by decide) rfl rfl rfl
  | mulq =>
    exact inv_pointOp h (hp rfl) (i := .mulq) rfl rfl (fun _ => rfl) rfl rfl (by decide) rfl rfl rfl
  | enc =>
    have hcall : callOf (s.seq.v.getD 0) s.seq.phase = some (.lcPenc .pq) := by rw [hp rfl]; rfl
    exact inv_callStep h hcall (inv_issue h hcall) (inv_commitEnc h (hp rfl))
  | strip => exact inv_execStrip h (hp rfl)
  | idle => exact ⟨s, rfl, h⟩
  | done => exact inv_execDone h (hp rfl)
  | fail => exact ⟨_, rfl, inv_offer h _⟩
  | _ => cases decodePhase_ok hd

/-! ### LIB's answers -/

/-- LIB answers the argument values of a call with a return of its type (30_encoding R126). -/
theorem serve_lib {s : State} {d : Instr} {m : LMsg} (hch : s.chan = .sent m) (hm : argsMatch d m = true) :
    ∃ r, exec d s = .next (answer r s) ∧ inFlight d (.returned r) = true := by
  cases d with
  | lcCurve =>
    cases m with
    | curve id =>
      refine ⟨_, serve_of hch rfl, ?_⟩
      unfold libCurve
      split <;> rfl
    | _ => cases hm
  | lcBnhex dst src =>
    cases m with
    | bnhex x =>
      refine ⟨_, serve_of hch rfl, ?_⟩
      unfold libBnhex
      split <;> rfl
    | _ => cases hm
  | lcBnbin dst =>
    cases m with
    | bnbin x => exact ⟨_, serve_of hch rfl, rfl⟩
    | _ => cases hm
  | lcBnneg dst a =>
    cases m with
    | bnneg v => exact ⟨_, serve_of hch rfl, rfl⟩
    | _ => cases hm
  | lcBninv dst a b =>
    cases m with
    | bninv v n =>
      refine ⟨_, serve_of hch rfl, ?_⟩
      unfold libBninv
      split <;> split <;> rfl
    | _ => cases hm
  | lcPdec dst a v =>
    cases m with
    | pdec id x =>
      refine ⟨_, serve_of hch rfl, ?_⟩
      rcases libPdec_answer s.lib.params id x v with hr | ⟨q, hr⟩ <;> rw [hr] <;> rfl
    | _ => cases hm
  | lcPmul dst a b =>
    cases m with
    | pmul id k q =>
      refine ⟨_, serve_of hch rfl, ?_⟩
      unfold libPmul
      split <;> rfl
    | _ => cases hm
  | lcPadd dst a b =>
    cases m with
    | padd id q r =>
      refine ⟨_, serve_of hch rfl, ?_⟩
      unfold libPadd
      split <;> rfl
    | _ => cases hm
  | lcPinf a =>
    cases m with
    | pinf q => exact ⟨_, serve_of hch rfl, rfl⟩
    | _ => cases hm
  | lcPenc a =>
    cases m with
    | penc id q =>
      refine ⟨_, serve_of hch rfl, ?_⟩
      unfold libPenc
      split
      · rfl
      · rfl
      · split <;> rfl
    | _ => cases hm
  | _ => cases hm

/-- In a state of the invariant with a call sent, LCD holds the descriptor of the call of the micro-op in PHASE, and what is
sent are argument values of it. -/
theorem call_of_callSent {s : State} (h : Inv s) (hs : callSent s = true) :
    ∃ d m, callOf (s.seq.v.getD 0) s.seq.phase = some d ∧ decodeLcd s.seq.lcd = .ok d ∧ sent s m ∧
      argsMatch d m = true := by
  obtain ⟨m, hm⟩ := (callSent_iff s).1 hs
  obtain ⟨d, hd, hlcd, hf⟩ := h.call.on hm.1
  rw [hm.2] at hf
  exact ⟨d, m, hd, by rw [hlcd]; exact decodeLcd_descriptor hd, hm, hf⟩

/-- LIB's answer to the call LCD names keeps the invariant. -/
theorem inv_exec_lcd {s : State} (h : Inv s) (hs : callSent s = true) {d : Instr}
    (hd : decodeLcd s.seq.lcd = .ok d) : ∃ t, exec d s = .next t ∧ Inv t := by
  obtain ⟨e, m, -, he, hm, ha⟩ := call_of_callSent h hs
  cases he.symm.trans hd
  obtain ⟨r, hx, hr⟩ := serve_lib hm.2 ha
  have hf : inFlight d (.returned (if (drawFail s.lib).1 then .resfail else r)) = true := by
    split
    · rfl
    · exact hr
  exact ⟨_, hx, inv_lib h _ (drawFail_params s.lib) hm.2 hm.1 hd hf⟩

/-! ### The request -/

/-- A record that decodes is a RECOVER whose strings fit their length fields (30_encoding R111). -/
theorem decodeReq_ok {bytes : List Byte} {i : Instr} (h : decodeReq bytes = .ok i) :
    ∃ recid curveid digest rhex shex, i = .recover recid curveid digest rhex shex ∧ digest.length < 65536 ∧
      rhex.length < 256 ∧ shex.length < 256 := by
  unfold decodeReq at h
  split at h
  case h_1 cmd recid curveid rlen slen hi lo body =>
    split at h
    · split at h
      · rename_i hlen
        cases h
        refine ⟨recid, curveid, _, _, _, rfl, ?_, ?_, ?_⟩
        · simp only [List.length_take, be16]
          omega
        · simp only [List.length_take, List.length_drop]
          omega
        · simp only [List.length_drop]
          omega
      · cases h
    · cases h
  case h_2 =>
    split at h <;> cases h
  case h_3 => cases h

/-- The acceptance of a request at IDLE goes on and keeps the invariant (40 R151). -/
theorem inv_exec_request {s : State} (h : Inv s) (hp : s.seq.phase = 0x00) {bytes : List Byte} {i : Instr}
    (hd : decodeReq bytes = .ok i) : ∃ t, exec i s = .next t ∧ Inv t := by
  obtain ⟨recid, curveid, digest, rhex, shex, rfl, hdl, hrl, hsl⟩ := decodeReq_ok hd
  obtain ⟨t, ht⟩ := accept_succeeds (recid := recid) (curveid := curveid) (digest := digest) (s := s)
    (show rhex.length ≤ Config.hexcap from Nat.le_of_lt_succ hrl)
    (show shex.length ≤ Config.hexcap from Nat.le_of_lt_succ hsl)
  refine ⟨t, ?_, inv_accept h hdl hrl hsl ht⟩
  have hx : exec (.recover recid curveid digest rhex shex) s = run (accept recid curveid digest rhex shex s) :=
    if_pos hp
  rw [hx, ht, run_ok]

/-! ### The fetch and the step -/

/-- Every fetch from a state of the invariant gives an instruction that goes on and keeps the invariant. -/
theorem inv_fetch {s : State} (h : Inv s) {f : Instr × State} (hf : fetch s = .next f) :
    ∃ t, exec f.1 f.2 = .next t ∧ Inv t := by
  have drawn : Inv { s with lib := (drawReady s.lib).2 } := inv_draw h _ (by simp)
  obtain ⟨i, u⟩ := f
  rcases fetch_next hf with
    ⟨hs, -, hd, hu⟩ | ⟨-, -, hd, hu⟩ | ⟨-, -, -, hu⟩ | ⟨-, hp, r, rest, -, hd, hu⟩ | ⟨-, -, hd, hu⟩
  · cases hu
    exact inv_exec_lcd drawn hs hd
  · cases hu
    exact inv_exec_phase drawn hd
  · cases hu
    exact ⟨s, rfl, h⟩
  · cases hu
    exact inv_exec_request (inv_host h { s.host with reqs := rest, follow := r.follow }) hp hd
  · cases hu
    exact inv_exec_phase h hd

/-- Settles O46: a step is the reset, or an instruction that keeps the invariant. -/
theorem stepKeepsInv : Obligations.StepKeepsInv := by
  unfold Obligations.StepKeepsInv
  intro s t h hstep
  rcases step_next hstep with ⟨-, rfl⟩ | ⟨-, f, hf, hx⟩
  · exact inv_rested s h.lmax Seq.reset rfl _ _ (betweenCalls_lmax s.lib)
  · obtain ⟨u, hu, hi⟩ := inv_fetch h hf
    cases hu.symm.trans hx
    exact hi

/-! ### No model fault -/

theorem fetchLcd_of {s : State} {i : Instr} (h : decodeLcd s.seq.lcd = .ok i) : fetchLcd s = .next (i, s) := by
  rw [fetchLcd, h]

theorem fetchPhase_of {s : State} {i : Instr} (h : decodePhase s.seq.phase = .ok i) : fetchPhase s = .next (i, s) := by
  rw [fetchPhase, h]

theorem fetchReq_not_fault (s : State) (f : Fault) : fetchReq s ≠ .fault f := by
  unfold fetchReq
  split
  · exact nofun
  · split <;> exact nofun

/-- A request is refused only where it decodes to nothing (30_encoding R112, 93 U8). -/
theorem fetchReq_refused {s : State} {r : Refusal} (h : fetchReq s = .refused r) :
    ∃ q rest, s.host.reqs = q :: rest ∧ ∀ i, decodeReq q.bytes ≠ .ok i := by
  unfold fetchReq at h
  split at h
  · cases h
  · rename_i q rest hq
    refine ⟨q, rest, hq, fun i hi => ?_⟩
    rw [hi] at h
    cases h

/-- PHASE is no reserved code (30_encoding R122). -/
theorem decodePhase_of_inv {s : State} (h : Inv s) : ∃ i, decodePhase s.seq.phase = .ok i := by
  have key : ∀ c : PhaseCode, c.toNat ≤ 0x14 → (decodePhase c).isOk = true := by decide
  have hok := key _ h.phase
  cases hd : decodePhase s.seq.phase with
  | ok i => exact ⟨i, rfl⟩
  | error e => rw [hd] at hok; cases hok

/-- From a state of the invariant a fetch gives an instruction, but for a request that does not decode. -/
theorem fetch_of_inv {s : State} (h : Inv s) :
    (∃ f, fetch s = .next f) ∨ s.seq.phase = 0x00 ∧ fetch s = fetchReq s := by
  obtain ⟨i, hi⟩ := decodePhase_of_inv h
  unfold fetch
  split
  · rename_i hs
    obtain ⟨d, -, -, hd, -⟩ := call_of_callSent h hs
    split
    · exact .inl ⟨_, fetchLcd_of (s := { s with lib := (drawReady s.lib).2 }) hd⟩
    · exact .inl ⟨_, fetchPhase_of (s := { s with lib := (drawReady s.lib).2 }) hi⟩
  · split
    · rename_i hp
      exact .inr ⟨hp, rfl⟩
    · exact .inl ⟨_, fetchPhase_of hi⟩

/-- When a step is refused: the fetch is, or the instruction. -/
theorem step_refused {s : State} {r : Refusal} (h : step s = .refused r) :
    fetch s = .refused r ∨ ∃ f, fetch s = .next f ∧ exec f.1 f.2 = .refused r := by
  unfold step at h
  split at h
  · cases h
  · cases hf : fetch s with
    | next f => rw [hf] at h; exact .inr ⟨f, rfl, h⟩
    | fault f => rw [hf] at h; cases h
    | refused r => rw [hf] at h; cases h; exact .inl rfl

/-- Settles O50: from a state of the invariant an instruction that is fetched goes on, and only a request can fail to be
fetched. -/
theorem stepNeverStops : Obligations.StepNeverStops := by
  unfold Obligations.StepNeverStops
  constructor
  · intro s f h hstep
    obtain ⟨-, hf | ⟨i, hf, hx⟩⟩ := step_fault hstep
    · rcases fetch_of_inv h with ⟨i, hi⟩ | ⟨-, hr⟩
      · cases hi.symm.trans hf
      · exact fetchReq_not_fault s f (hr.symm.trans hf)
    · obtain ⟨t, ht, -⟩ := inv_fetch h hf
      cases ht.symm.trans hx
  · intro s r h hstep
    rcases step_refused hstep with hf | ⟨i, hf, hx⟩
    · rcases fetch_of_inv h with ⟨i, hi⟩ | ⟨hp, hr⟩
      · cases hi.symm.trans hf
      · exact ⟨hp, fetchReq_refused (hr.symm.trans hf)⟩
    · obtain ⟨t, ht, -⟩ := inv_fetch h hf
      cases ht.symm.trans hx

end Sys2Proof.Proofs
end

section
/-! PROOFS. ECREC at reset and at rest (10_state R30, R49): what the invariant leaves of the registers where no call is in
progress; `ResetState`, `ResetInv`, `IdleHoldsNothing` and `IdleRests`. -/

namespace Sys2Proof.Proofs

open Sys2Proof Sys2Proof.Machine Sys2Proof.Safety

/-- Settles O9: after reset no register holds a value and no buffer a byte. -/
theorem resetState : Obligations.ResetState := by
  unfold Obligations.ResetState
  refine ⟨rfl, rfl, rfl, rfl, fun r => ?_, fun b k => ?_⟩
  · cases r with
    | b r => exact congrArg Option.isSome (BFile.get_reset r)
    | p r => exact congrArg Option.isSome (PFile.get_reset r)
    | _ => rfl
  · cases b <;> rfl

/-- Settles O12: IDLE's meaning is the state it is run in (10_state R36, 40 R158). -/
theorem idleRests : Obligations.IdleRests := fun _ => rfl

/-- Settles O45: at reset no register holds a value, no buffer a byte, and nothing is in flight. -/
theorem resetInv : Obligations.ResetInv := by
  unfold Obligations.ResetInv
  refine ⟨?_, ⟨fun r v hv => ?_, trivial⟩, fun P hP => pointsFit_of_dropped hP rfl rfl rfl⟩
  · exact inv_rested State.reset ⟨(by decide : 1 ≤ 32), (by decide : 32 ≤ 127)⟩ Seq.reset rfl _ State.reset.lib rfl
  · cases (BFile.get_reset r).symm.trans hv

theorem bfile_eq_reset {f : BFile} (h : ∀ r, f.get r = none) : f = BFile.reset := by
  obtain ⟨br, bs, bx, be, bne, bri, bn, bp⟩ := f
  rw [BFile.reset, BFile.mk.injEq]
  exact ⟨h .br, h .bs, h .bx, h .be, h .bne, h .bri, h .bn, h .bp⟩

theorem pfile_eq_reset {f : PFile} (h : ∀ r, f.get r = none) : f = PFile.reset := by
  obtain ⟨pg, pr, pchk, ps, pt, pu, pq⟩ := f
  rw [PFile.reset, PFile.mk.injEq]
  exact ⟨h .pg, h .pr, h .pchk, h .ps, h .pt, h .pu, h .pq⟩

theorem memory_eq_reset {m : Memory} (h : ∀ b, m.get b = []) : m = Memory.reset := by
  obtain ⟨digest, rhex, shex, encbuf, result⟩ := m
  rw [Memory.reset, Memory.mk.injEq]
  exact ⟨h .digest, h .rhex, h .shex, h .encbuf, h .result⟩

/-- A register whose valid bit is 0 holds no value (10_state R32). -/
theorem none_of_invalid {α : Type} {q : Seq} {r : RegName} {x : Option α} (h : valid q r = false)
    (hx : valid q r = x.isSome) : x = none :=
  Option.not_isSome_iff_eq_none.1 (by rw [← hx, h]; decide)

/-- SEQ with every valid bit 0, empty buffers and PHASE, CALLPEND and the error registers 0 is as at reset, LCD aside. -/
theorem seq_eq_rested {q : Seq} (hphase : q.phase = 0x00) (hcp : q.callpend = false) (hkind : q.errkind = 0)
    (herrphase : q.errphase = 0x00) (hvalid : ∀ r, valid q r = false) (hmem : q.mem = Memory.reset) : q = rested q := by
  have none_of {α : Type} (r : RegName) {x : Option α} (hx : valid q r = x.isSome) : x = none :=
    none_of_invalid (hvalid r) hx
  have hb := bfile_eq_reset fun r => none_of (.b r) rfl
  have hp := pfile_eq_reset fun r => none_of (.p r) rfl
  obtain ⟨phase, callpend, lcd, errkind, errphase, v, inff, deff, rlenb, enclen, cpL, b, p, recid, curveid, dlen, rlen,
    slen, mem⟩ := q
  rw [rested, Seq.reset, Seq.mk.injEq]
  exact ⟨hphase, hcp, rfl, hkind, herrphase, none_of .v rfl, none_of .inff rfl, none_of .deff rfl, none_of .rlenb rfl,
    none_of .enclen rfl, none_of .cpL rfl, hb, hp, none_of .recid rfl, none_of .curveid rfl, none_of .dlen rfl,
    none_of .rlen rfl, none_of .slen rfl, hmem⟩

/-- Between calls every valid bit is 0 (10_state R30). -/
theorem not_valid_of_idle {s : State} (h : Inv s) (hp : s.seq.phase = 0x00) (r : RegName) :
    valid s.seq r = false := by
  have data {i : Instr} {c : PhaseCode} (hr : writerOf r = some i) (hc : encode i = some (.uop c)) :
      valid s.seq r = false := by
    rw [(dataLive_iff _).1 h.data r i c hr hc, hp]
    exact written_of_le (Nat.zero_le _)
  have latch {α : Type} {x : Option α} (hx : x.isSome = decide (s.seq.phase ≠ 0x00)) : x.isSome = false := by
    rw [hx, hp]
    rfl
  cases r with
  | b r => cases r <;> exact data rfl rfl
  | p r => cases r <;> exact data rfl rfl
  | recid => exact latch h.latch.recid
  | curveid => exact latch h.latch.curveid
  | dlen => exact latch h.latch.dlen
  | rlen => exact latch h.latch.rlen
  | slen => exact latch h.latch.slen
  | _ => exact data rfl rfl

/-- Settles O51: with every valid bit 0 the buffers are empty, and PHASE = IDLE names no call and no error. -/
theorem idleHoldsNothing : Obligations.IdleHoldsNothing := by
  unfold Obligations.IdleHoldsNothing
  intro s h hp
  have none_of {α : Type} (r : RegName) {x : Option α} (hx : valid s.seq r = x.isSome) : x = none :=
    none_of_invalid (not_valid_of_idle h hp r) hx
  have hmem : s.seq.mem = Memory.reset := memory_eq_reset fun b => by
    cases b with
    | digest => exact h.buffers.noDigest (none_of .dlen rfl)
    | rhex => exact h.buffers.noRhex (none_of .rlen rfl)
    | shex => exact h.buffers.noShex (none_of .slen rfl)
    | encbuf => exact h.buffers.noEncbuf (none_of .enclen rfl)
    | result => exact h.buffers.noResult (none_of .rlenb rfl)
  have herr := h.errors
  rw [errorsOk, if_neg (by rw [hp]; decide), decide_eq_true_iff] at herr
  obtain ⟨hcp, hch⟩ := idle_of_callOf_none h fun v => by rw [hp]; rfl
  exact ⟨seq_eq_rested hp hcp herr.1 herr.2 (not_valid_of_idle h hp) hmem, hch⟩

end Sys2Proof.Proofs
end

section
/-! PROOFS. All that a step can be, from any state: the ways what PHASE names can end, LIB's answer, the acceptance of a
request, the reset. `PhaseMoves` and `CallInputsStay` from them. -/

namespace Sys2Proof.Proofs

open Sys2Proof Sys2Proof.Machine Sys2Proof.Safety

/-! ### The request latch -/

/-- The request latch and its buffers are as they were (10_state R45). -/
structure LatchKept (q q' : Seq) : Prop where
  recid : q'.recid = q.recid
  curveid : q'.curveid = q.curveid
  dlen : q'.dlen = q.dlen
  rlen : q'.rlen = q.rlen
  slen : q'.slen = q.slen
  digest : q'.mem.digest = q.mem.digest
  rhex : q'.mem.rhex = q.mem.rhex
  shex : q'.mem.shex = q.mem.shex

theorem latchKept_writeB (q : Seq) (r : BReg) (v : Int) : LatchKept q (q.writeB r v) := by
  constructor <;> rfl

theorem latchKept_writeP (q : Seq) (r : PReg) (v : Point) : LatchKept q (q.writeP r v) := by
  constructor <;> rfl

theorem latchKept_writeCurve (q : Seq) (p n : Nat) (g : Point) (l : Nat) : LatchKept q (writeCurve q p n g l) := by
  constructor <;> rfl

/-- ENCBUF and RESULT, which micro-ops store to, are no buffers of the latch. -/
theorem latchKept_memWrite {q q' : Seq} {lmax i : Nat} {b : BufSel} {bytes : List Byte}
    (hb : b = .encbuf ∨ b = .result) (hw : q.memWrite lmax b i bytes = .ok q') : LatchKept q q' := by
  obtain ⟨-, rfl⟩ := Seq.memWrite_ok hw
  rcases hb with rfl | rfl <;> constructor <;> rfl

/-! ### The ends of what PHASE names -/

theorem response_of_done {s : State} {rsp : List Byte} (hp : s.seq.phase = 0x13) (hr : successRsp s = .ok rsp) :
    response s = some rsp := by
  rw [response, if_pos hp, hr]

theorem response_of_fail {s : State} (hp : s.seq.phase = 0x14) : response s = some (failureRsp s) := by
  rw [response, if_neg (by rw [hp]; decide), if_pos hp]

/-- The ways in which what PHASE names can end. -/
inductive PhaseEnd (s : State) : State → Prop where
  /-- a micro-op waits for LIB, or ECREC rests at IDLE -/
  | stays (hw : s.seq.phase = 0x00 ∨ s.seq.callpend = true ∧ ∀ r, s.chan ≠ .returned r) : PhaseEnd s s
  /-- a micro-op issues its call -/
  | sends (d : Instr) (m : LMsg) (hmin : 1 ≤ s.seq.phase.toNat) (hcp : s.seq.callpend = false)
    (hg : gather s d = .ok m) : PhaseEnd s (sendCall d m s)
  /-- a micro-op but STRIP fails -/
  | fails (k : ErrKind) (hmin : 1 ≤ s.seq.phase.toNat) (hmax : s.seq.phase.toNat ≤ 0x11) :
    PhaseEnd s (raise k s.seq.phase s)
  /-- a micro-op commits its call's return -/
  | completes (q : Seq) (hmin : 1 ≤ s.seq.phase.toNat) (hmax : s.seq.phase.toNat ≤ 0x12) (hq : LatchKept s.seq q) :
    PhaseEnd s (complete s.seq.phase q s)
  /-- a micro-op without a call completes -/
  | advances (q : Seq) (hmin : 1 ≤ s.seq.phase.toNat) (hmax : s.seq.phase.toNat ≤ 0x12) (hq : LatchKept s.seq q) :
    PhaseEnd s (advance s.seq.phase q s)
  /-- DONE or FAIL offers the response -/
  | offers (rsp : List Byte) (hp : s.seq.phase = 0x13 ∨ s.seq.phase = 0x14) (hr : response s = some rsp) :
    PhaseEnd s (offer rsp s)

section Ends

variable {s t : State} {r : LRet}

/-- A micro-op with a call ends as its commit does, or sends or waits. -/
theorem phaseEnd_callStep {iss : Except Fault State} {commit : LRet → Except Fault State}
    (hmin : 1 ≤ s.seq.phase.toNat) (h : callStep iss commit s = .next t)
    (hissue : ∀ {u}, iss = .ok u → ∃ d m, gather s d = .ok m ∧ u = sendCall d m s)
    (hcommit : ∀ {r}, commit r = .ok t → PhaseEnd s t) : PhaseEnd s t := by
  rcases callStep_next h with ⟨hcp, hs⟩ | ⟨hcp, hch, rfl⟩ | ⟨r, -, -, hr⟩
  · obtain ⟨d, m, hg, rfl⟩ := hissue hs
    exact .sends d m hmin hcp hg
  · exact .stays (.inr ⟨hcp, hch⟩)
  · exact hcommit hr

theorem phaseEnd_commitInt {dst : BReg} {k : ErrKind} (hmin : 1 ≤ s.seq.phase.toNat)
    (hmax : s.seq.phase.toNat ≤ 0x11) (h : commitInt s.seq.phase dst k s r = .ok t) : PhaseEnd s t := by
  rcases commitInt_ok h with ⟨v, -, rfl⟩ | ⟨-, rfl⟩ | rfl
  · exact .completes _ hmin (by omega) (latchKept_writeB ..)
  · exact .fails k hmin hmax
  · exact .fails _ hmin hmax

theorem phaseEnd_commitPoint {dst : PReg} {k : ErrKind} (hmin : 1 ≤ s.seq.phase.toNat)
    (hmax : s.seq.phase.toNat ≤ 0x11) (h : commitPoint s.seq.phase dst k s r = .ok t) : PhaseEnd s t := by
  rcases commitPoint_ok h with ⟨q, -, rfl⟩ | ⟨-, rfl⟩ | rfl
  · exact .completes _ hmin (by omega) (latchKept_writeP ..)
  · exact .fails k hmin hmax
  · exact .fails _ hmin hmax

theorem phaseEnd_commitCurve (hp : s.seq.phase = Code.curve) (h : commitCurve s r = .ok t) : PhaseEnd s t := by
  have hmin : 1 ≤ s.seq.phase.toNat ∧ s.seq.phase.toNat ≤ 0x11 := by rw [hp]; decide
  rcases commitCurve_ok h with ⟨p, n, g, l, -, -, rfl⟩ | rfl <;> rw [← hp]
  · exact .completes _ hmin.1 (by omega) (latchKept_writeCurve ..)
  · exact .fails _ hmin.1 hmin.2

theorem phaseEnd_commitOrdchk (hp : s.seq.phase = Code.ordchk) (h : commitOrdchk s r = .ok t) : PhaseEnd s t := by
  have hmin : 1 ≤ s.seq.phase.toNat ∧ s.seq.phase.toNat ≤ 0x11 := by rw [hp]; decide
  rcases commitOrdchk_ok h with ⟨f, -, -, rfl⟩ | rfl | rfl <;> rw [← hp]
  · exact .completes _ hmin.1 (by omega) (by constructor <;> rfl)
  · exact .fails _ hmin.1 hmin.2
  · exact .fails _ hmin.1 hmin.2

theorem phaseEnd_commitEnc (hp : s.seq.phase = Code.enc) (h : commitEnc s r = .ok t) : PhaseEnd s t := by
  have hmin : 1 ≤ s.seq.phase.toNat ∧ s.seq.phase.toNat ≤ 0x11 := by rw [hp]; decide
  rcases commitEnc_ok h with ⟨bytes, l, q, -, -, -, hw, rfl⟩ | rfl <;> rw [← hp]
  · obtain ⟨h1, h2, h3, h4, h5, h6, h7, h8⟩ := latchKept_memWrite (.inl rfl) hw
    exact .completes _ hmin.1 (by omega) ⟨h1, h2, h3, h4, h5, h6, h7, h8⟩
  · exact .fails _ hmin.1 hmin.2

theorem phaseEnd_execVrid (hp : s.seq.phase = Code.vrid) (h : execVrid s = .next t) : PhaseEnd s t := by
  have hmin : 1 ≤ s.seq.phase.toNat ∧ s.seq.phase.toNat ≤ 0x11 := by rw [hp]; decide
  obtain ⟨recid, -, ⟨v, -, rfl⟩ | ⟨-, rfl⟩⟩ := execVrid_next h <;> rw [← hp]
  · exact .advances _ hmin.1 (by omega) (by constructor <;> rfl)
  · exact .fails _ hmin.1 hmin.2

theorem phaseEnd_execTrunc (hp : s.seq.phase = Code.trunc) (h : execTrunc s = .next t) : PhaseEnd s t := by
  obtain ⟨d, l, -, -, rfl⟩ := execTrunc_next h
  rw [← hp]
  exact .advances _ (by rw [hp]; decide) (by rw [hp]; decide) (by constructor <;> rfl)

theorem phaseEnd_execSetx (hp : s.seq.phase = Code.setx) (h : execSetx s = .next t) : PhaseEnd s t := by
  obtain ⟨r, -, rfl⟩ := execSetx_next h
  rw [← hp]
  exact .advances _ (by rw [hp]; decide) (by rw [hp]; decide) (latchKept_writeB ..)

theorem phaseEnd_execStrip (hp : s.seq.phase = Code.strip) (h : execStrip s = .next t) : PhaseEnd s t := by
  obtain ⟨l, bytes, q, -, -, hw, rfl⟩ := execStrip_next h
  obtain ⟨h1, h2, h3, h4, h5, h6, h7, h8⟩ := latchKept_memWrite (.inr rfl) hw
  rw [← hp]
  exact .advances _ (by rw [hp]; decide) (by rw [hp]; decide) ⟨h1, h2, h3, h4, h5, h6, h7, h8⟩

theorem phaseEnd_execDone (hp : s.seq.phase = Code.done) (h : execDone s = .next t) : PhaseEnd s t := by
  obtain ⟨rsp, hr, ht⟩ := bind_ok (run_next h)
  cases ht
  exact .offers rsp (.inl hp) (response_of_done hp hr)

theorem phaseEnd_execFail (hp : s.seq.phase = Code.fail) (h : execFail s = .next t) : PhaseEnd s t := by
  cases h
  exact .offers _ (.inr hp) (response_of_fail hp)

/-- All that what PHASE names can do. -/
theorem phaseEnd_exec {i : Instr} (hd : decodePhase s.seq.phase = .ok i) (h : exec i s = .next t) : PhaseEnd s t := by
  have hp {c : PhaseCode} (hc : encode i = some (.uop c)) : s.seq.phase = c := phase_eq_code hd hc
  have ints {d : Instr} {c : PhaseCode} {dst : BReg} {k : ErrKind} (hc : encode i = some (.uop c))
      (hb : 1 ≤ c.toNat ∧ c.toNat ≤ 0x11) (h : callStep (issue d s) (commitInt c dst k s) s = .next t) :
      PhaseEnd s t := by
    rw [← hp hc] at h hb
    exact phaseEnd_callStep hb.1 h issue_sends (phaseEnd_commitInt hb.1 hb.2)
  have points {d : Instr} {c : PhaseCode} {dst : PReg} {k : ErrKind} (hc : encode i = some (.uop c))
      (hb : 1 ≤ c.toNat ∧ c.toNat ≤ 0x11) (h : callStep (issue d s) (commitPoint c dst k s) s = .next t) :
      PhaseEnd s t := by
    rw [← hp hc] at h hb
    exact phaseEnd_callStep hb.1 h issue_sends (phaseEnd_commitPoint hb.1 hb.2)
  cases i with
  | vrid => exact phaseEnd_execVrid (hp rfl) h
  | curve =>
    exact phaseEnd_callStep (by rw [hp rfl]; decide) h issue_sends (phaseEnd_commitCurve (hp rfl))
  | parser => exact ints rfl (by decide) h
  | parses => exact ints rfl (by decide) h
  | trunc => exact phaseEnd_execTrunc (hp rfl) h
  | setx => exact phaseEnd_execSetx (hp rfl) h
  | decomp =>
    have hb : 1 ≤ s.seq.phase.toNat ∧ s.seq.phase.toNat ≤ 0x11 := by rw [hp rfl]; decide
    have h : callStep (issueDecomp s) (commitPoint Code.decomp .pr .invalidPoint s) s = .next t := h
    rw [← hp rfl] at h
    exact phaseEnd_callStep hb.1 h issueDecomp_sends (phaseEnd_commitPoint hb.1 hb.2)
  | ordmul => exact points rfl (by decide) h
  | ordchk =>
    exact phaseEnd_callStep (by rw [hp rfl]; decide) h issue_sends (phaseEnd_commitOrdchk (hp rfl))
  | eload => exact ints rfl (by decide) h
  | inv => exact ints rfl (by decide) h
  | muls => exact points rfl (by decide) h
  | neg => exact ints rfl (by decide) h
  | mulg => exact points rfl (by decide) h
  | add => exact points rfl (by decide) h
  | mulq => exact points rfl (by decide) h
  | enc => exact phaseEnd_callStep (by rw [hp rfl]; decide) h issue_sends (phaseEnd_commitEnc (hp rfl))
  | strip => exact phaseEnd_execStrip (hp rfl) h
  | idle => cases h; exact .stays (.inl (hp rfl))
  | done => exact phaseEnd_execDone (hp rfl) h
  | fail => exact phaseEnd_execFail (hp rfl) h
  | _ => cases decodePhase_ok hd

end Ends

/-! ### LIB's answers -/

/-- What a descriptor decodes to is a library call (30_encoding R124). -/
theorem format_of_decodeLcd {w : LcdWord} {i : Instr} (h : decodeLcd w = .ok i) : i.format = .lcd := by
  have key {op dst a b : BitVec 4} (h : lcdOperands op dst a b = some i) : i.format = .lcd := by
    unfold lcdOperands at h
    split at h
    all_goals simp only [Option.bind_eq_bind, Option.bind_eq_some_iff, Option.some.injEq, reduceCtorEq] at h
    case h_1 => obtain ⟨-, -, -, -, -, -, rfl⟩ := h; rfl
    case h_2 => obtain ⟨d, -, x, -, -, -, rfl⟩ := h; rfl
    case h_3 => obtain ⟨d, -, -, -, -, -, rfl⟩ := h; rfl
    case h_4 => obtain ⟨d, -, v, -, -, -, rfl⟩ := h; rfl
    case h_5 => obtain ⟨d, -, v, -, m, -, rfl⟩ := h; rfl
    case h_6 => obtain ⟨d, -, x, -, v, -, rfl⟩ := h; rfl
    case h_7 => obtain ⟨d, -, k, -, q, -, rfl⟩ := h; rfl
    case h_8 => obtain ⟨d, -, p, -, q, -, rfl⟩ := h; rfl
    case h_9 => obtain ⟨-, -, q, -, -, -, rfl⟩ := h; rfl
    case h_10 => obtain ⟨-, -, q, -, -, -, rfl⟩ := h; rfl
  unfold decodeLcd at h
  split at h
  · rename_i j hj
    cases h
    exact key hj
  · split at h <;> cases h

/-- All that a library call can do: answer the argument values in flight. -/
theorem answer_of_exec {i : Instr} {s t : State} (hi : i.format = .lcd) (h : exec i s = .next t) :
    ∃ r, t = answer r s := by
  have key {f : LMsg → Option LRet} (h : serve f s = .next t) : ∃ r, t = answer r s := by
    obtain ⟨m, r, -, -, ht⟩ := serve_next h
    exact ⟨r, ht⟩
  cases i <;> cases hi <;> exact key h

/-! ### The step -/

/-- SEQ's and LIB's state when LIB has been asked whether it answers. -/
def drawnReady (s : State) : State := { s with lib := (drawReady s.lib).2 }

/-- All that a step can be, from any state. -/
inductive StepEnd (s : State) : State → Prop where
  /-- the reset input -/
  | resets (hrst : s.host.rst = true) : StepEnd s (resetNow s)
  /-- LIB answers the call sent -/
  | answers (hs : callSent s = true) (r : LRet) : StepEnd s (answer r (drawnReady s))
  /-- LIB does not answer yet, and what PHASE names runs -/
  | asks (hs : callSent s = true) (i : Instr) {t : State} (hd : decodePhase s.seq.phase = .ok i)
    (hx : exec i (drawnReady s) = .next t) (ht : PhaseEnd (drawnReady s) t) : StepEnd s t
  /-- no request at IDLE -/
  | rests (hp : s.seq.phase = 0x00) (hr : s.host.reqs = []) : StepEnd s s
  /-- a request at IDLE is accepted -/
  | accepts (hs : callSent s = false) (hp : s.seq.phase = 0x00) (q : Request) (rest : List Request)
    (hr : s.host.reqs = q :: rest) {t : State} (hphase : t.seq.phase = 0x01)
    (hhost : t.host = { s.host with reqs := rest, follow := q.follow }) (hlib : t.lib = s.lib) : StepEnd s t
  /-- no call sent: what PHASE names runs -/
  | runs (hs : callSent s = false) (hp : s.seq.phase ≠ 0x00) (i : Instr) {t : State}
    (hd : decodePhase s.seq.phase = .ok i) (hx : exec i s = .next t) (ht : PhaseEnd s t) : StepEnd s t

theorem stepEnd_of_next {s t : State} (h : step s = .next t) : StepEnd s t := by
  rcases step_next h with ⟨hrst, rfl⟩ | ⟨-, ⟨i, u⟩, hf, hx⟩
  · exact .resets hrst
  rcases fetch_next hf with
    ⟨hs, -, hd, hu⟩ | ⟨hs, -, hd, hu⟩ | ⟨-, hp, hr, hu⟩ | ⟨hs, hp, q, rest, hr, hd, hu⟩ | ⟨hs, hp, hd, hu⟩
  · cases hu
    obtain ⟨r, rfl⟩ := answer_of_exec (format_of_decodeLcd hd) hx
    exact .answers hs r
  · cases hu
    exact .asks hs i hd hx (phaseEnd_exec (s := drawnReady s) hd hx)
  · cases hu
    cases hx
    exact .rests hp hr
  · cases hu
    obtain ⟨recid, curveid, digest, rhex, shex, rfl, -, -, -⟩ := decodeReq_ok hd
    have hx : execRecover recid curveid digest rhex shex
      { s with host := { s.host with reqs := rest, follow := q.follow } } = .next t := hx
    rw [execRecover, if_pos hp] at hx
    obtain ⟨-, -, rfl⟩ := accept_ok (run_next hx)
    exact .accepts hs hp q rest hr rfl rfl rfl
  · cases hu
    exact .runs hs hp i hd hx (phaseEnd_exec hd hx)

/-! ### Waiting -/

/-- A micro-op whose call is sent and not answered waits (30_encoding R125). -/
theorem exec_waits {i : Instr} {s : State} {m : LMsg} (hi : hasCall i = true) (hs : sent s m) :
    exec i s = .next s := by
  cases i <;> cases hi <;> exact callStep_wait hs.1 hs.2

/-- The micro-ops whose PHASE code names a call have one. -/
theorem hasCall_of_callOf {v : BitVec 1} {c : PhaseCode} {d i : Instr} (hd : callOf v c = some d)
    (hc : encode i = some (.uop c)) : hasCall i = true := by
  cases hi : hasCall i with
  | true => rfl
  | false => cases i <;> cases hi <;> cases hc <;> cases hd

/-- In a state of the invariant the micro-op in PHASE waits while its call is sent. -/
theorem exec_of_callSent {s : State} (h : Inv s) (hs : callSent s = true) {i : Instr}
    (hd : decodePhase s.seq.phase = .ok i) : hasCall i = true ∧ exec i s = .next s := by
  obtain ⟨d, m, hcall, -, hm, -⟩ := call_of_callSent h hs
  have hi := hasCall_of_callOf hcall (decodePhase_ok hd)
  exact ⟨hi, exec_waits hi hm⟩

/-- At IDLE no call is sent. -/
theorem phase_of_callSent {s : State} (h : Inv s) (hs : callSent s = true) : s.seq.phase ≠ 0x00 := by
  obtain ⟨d, m, hcall, -, -, -⟩ := call_of_callSent h hs
  intro hp
  rw [hp] at hcall
  cases hcall

theorem inv_drawnReady {s : State} (h : Inv s) : Inv (drawnReady s) := inv_draw h _ (by simp)

/-! ### PHASE -/

/-- A taken response leaves the host's channel with what the record to follow adds; a held one leaves it. -/
theorem offer_host (rsp : List Byte) (s : State) :
    (offer rsp s).seq = s.seq.rest ∧ (offer rsp s).host.rsps = s.host.rsps ++ [rsp] ∧
        (offer rsp s).host.reqs = s.host.reqs ++ s.host.follow.toList.map Request.single ∧
        (offer rsp s).host.follow = none ∨
      (offer rsp s).seq = s.seq ∧ (offer rsp s).lib = s.lib ∧ (offer rsp s).host.reqs = s.host.reqs ∧
        (offer rsp s).host.follow = s.host.follow := by
  obtain ⟨hreqs, hfollow, hrsps, -⟩ := drawTake_rest s.host
  rcases offer_cases rsp s with ⟨-, ho⟩ | ⟨-, ho⟩ <;> rw [ho]
  · exact .inl ⟨rfl, congrArg (· ++ [rsp]) hrsps, congrArg₂ (· ++ ·) hreqs (by rw [hfollow]), rfl⟩
  · exact .inr ⟨rfl, rfl, hreqs, hfollow⟩

theorem isMicroOp_of_phase {i : Instr} {c : PhaseCode} (hd : decodePhase c = .ok i) (hmin : 1 ≤ c.toNat)
    (hmax : c.toNat ≤ 0x12) : isMicroOp i = true := by
  have hc := decodePhase_ok hd
  cases hi : isMicroOp i with
  | true => rfl
  | false =>
    cases i <;> cases hi <;> cases hc
    · exact absurd hmin (by decide)
    · exact absurd hmax (by decide)
    · exact absurd hmax (by decide)

/-- Settles O52: the ends of a step, of which only the acceptance of a request, a completion, a failure exit and a taken
response move PHASE. -/
theorem phaseMoves : Obligations.PhaseMoves := by
  unfold Obligations.PhaseMoves
  intro s t h hrst hstep
  have completed {i : Instr} (hd : decodePhase s.seq.phase = .ok i) (hx : exec i s = .next t)
      (hmin : 1 ≤ s.seq.phase.toNat) (hmax : s.seq.phase.toNat ≤ 0x12) (ht : t.seq.phase = s.seq.phase + 1) :
      1 ≤ s.seq.phase.toNat ∧ s.seq.phase.toNat ≤ 0x12 ∧ t.seq.phase.toNat = s.seq.phase.toNat + 1 ∧
        ∃ i, decode (.uop s.seq.phase) = .ok i ∧ isMicroOp i = true ∧ exec i s = .next t :=
    ⟨hmin, hmax, ht ▸ code_succ hmax, i, hd, isMicroOp_of_phase hd hmin hmax, hx⟩
  cases stepEnd_of_next hstep with
  | resets hr => cases hr.symm.trans hrst
  | answers hs r => exact .inl rfl
  | asks hs i hd hx ht =>
    obtain ⟨-, hw⟩ := exec_of_callSent (inv_drawnReady h) hs hd
    cases hw.symm.trans hx
    exact .inl rfl
  | rests hp hr => exact .inl rfl
  | accepts hs hp q rest hr hphase hhost hlib =>
    exact .inr (.inl ⟨hp, hphase, q, rest, hr, congrArg HostSide.reqs hhost⟩)
  | runs hs hp i hd hx ht =>
    cases ht with
    | stays => exact .inl rfl
    | sends d m => exact .inl rfl
    | fails k hmin hmax => exact .inr (.inr (.inr (.inl ⟨hmin, hmax, rfl, k.code, rfl⟩)))
    | completes q hmin hmax => exact .inr (.inr (.inl (completed hd hx hmin hmax rfl)))
    | advances q hmin hmax => exact .inr (.inr (.inl (completed hd hx hmin hmax rfl)))
    | offers rsp hp hr =>
      rcases offer_host rsp s with ⟨hseq, hrsps, -, -⟩ | ⟨hseq, -, -, -⟩
      · exact .inr (.inr (.inr (.inr ⟨hp, by rw [hseq, Seq.rest_phase], rsp, hr, hrsps⟩)))
      · exact .inl (by rw [hseq])

/-! ### What a call's steps leave alone -/

/-- What the ends of what PHASE names leave of the parameters. -/
theorem PhaseEnd.options {s t : State} (h : PhaseEnd s t) : t.lib.params.lmax = s.lib.params.lmax ∧
    t.lib.params.hexcase = s.lib.params.hexcase ∧ t.lib.params.decompOor = s.lib.params.decompOor := by
  cases h with
  | offers rsp hp hr =>
    rcases offer_cases rsp s with ⟨-, ho⟩ | ⟨-, ho⟩
    · obtain ⟨table, ht⟩ := betweenCalls_params s.lib
      rw [ho]
      simp [ht]
    · rw [ho]
      exact ⟨rfl, rfl, rfl⟩
  | _ => exact ⟨rfl, rfl, rfl⟩

/-- No step changes LMAX, HEXCASE or DECOMP_OOR (10_state R48; log 2). -/
theorem step_options {s t : State} (h : step s = .next t) : t.lib.params.lmax = s.lib.params.lmax ∧
    t.lib.params.hexcase = s.lib.params.hexcase ∧ t.lib.params.decompOor = s.lib.params.decompOor := by
  cases stepEnd_of_next h with
  | resets hr =>
    obtain ⟨table, ht⟩ := betweenCalls_params s.lib
    simp [ht]
  | answers hs r => simp [drawnReady]
  | asks hs i hd hx ht => simpa [drawnReady] using ht.options
  | rests hp hr => exact ⟨rfl, rfl, rfl⟩
  | accepts hs hp q rest hr hphase hhost hlib => rw [hlib]; exact ⟨rfl, rfl, rfl⟩
  | runs hs hp i hd hx ht => exact ht.options

/-- The request of the call in progress, the channel and the parameters stay, and so does a call in progress (10_state R45,
R48; 40 R150). -/
structure InputsStay (s t : State) : Prop where
  params : t.lib.params = s.lib.params
  reqs : t.host.reqs = s.host.reqs
  follow : t.host.follow = s.host.follow
  latch : LatchKept s.seq t.seq
  busy : s.seq.phase ≠ 0x00 → t.seq.phase ≠ 0x00

/-- The call is over, and the record that was to follow it is presented (40 R156, 30_encoding R132). -/
structure CallOver (s t : State) : Prop where
  phase : t.seq.phase = 0x00
  reqs : t.host.reqs = s.host.reqs ++ s.host.follow.toList.map Request.single
  follow : t.host.follow = none

theorem latchKept_refl (q : Seq) : LatchKept q q := by
  constructor <;> rfl

/-- What PHASE names leaves the inputs of the call alone, or ends the call. -/
theorem PhaseEnd.inputs {s t : State} (h : PhaseEnd s t) : InputsStay s t ∨ CallOver s t := by
  have busy (hmax : s.seq.phase.toNat ≤ 0x12) : s.seq.phase + 1 ≠ 0x00 :=
    ne_idle (by rw [code_succ hmax]; omega)
  cases h with
  | stays => exact .inl ⟨rfl, rfl, rfl, latchKept_refl _, id⟩
  | sends d m => exact .inl ⟨rfl, rfl, rfl, by constructor <;> rfl, id⟩
  | fails k => exact .inl ⟨rfl, rfl, rfl, by constructor <;> rfl, fun _ => by simp⟩
  | completes q hmin hmax hq =>
    obtain ⟨h1, h2, h3, h4, h5, h6, h7, h8⟩ := hq
    exact .inl ⟨rfl, rfl, rfl, ⟨h1, h2, h3, h4, h5, h6, h7, h8⟩, fun _ => busy hmax⟩
  | advances q hmin hmax hq =>
    obtain ⟨h1, h2, h3, h4, h5, h6, h7, h8⟩ := hq
    exact .inl ⟨rfl, rfl, rfl, ⟨h1, h2, h3, h4, h5, h6, h7, h8⟩, fun _ => busy hmax⟩
  | offers rsp hp hr =>
    rcases offer_host rsp s with ⟨hseq, -, hreqs, hfollow⟩ | ⟨hseq, hlib, hreqs, hfollow⟩
    · exact .inr ⟨by rw [hseq, Seq.rest_phase], hreqs, hfollow⟩
    · exact .inl ⟨by rw [hlib], hreqs, hfollow, hseq ▸ latchKept_refl _, by rw [hseq]; exact id⟩

/-- A step is the reset, or accepts a request, or leaves the inputs of the call alone, or ends the call. -/
theorem StepEnd.inputs {s t : State} (h : StepEnd s t) :
    s.host.rst = true ∧ t = resetNow s ∨ s.seq.phase = 0x00 ∧ t.seq.phase = 0x01 ∨ InputsStay s t ∨ CallOver s t := by
  cases h with
  | resets hr => exact .inl ⟨hr, rfl⟩
  | answers hs r => exact .inr (.inr (.inl ⟨by simp [drawnReady], rfl, rfl, latchKept_refl _, id⟩))
  | asks hs i hd hx ht =>
    rcases ht.inputs with ⟨hparams, hreqs, hfollow, hlatch, hbusy⟩ | ⟨hphase, hreqs, hfollow⟩
    · exact .inr (.inr (.inl ⟨hparams.trans (drawReady_params s.lib), hreqs, hfollow, hlatch, hbusy⟩))
    · exact .inr (.inr (.inr ⟨hphase, hreqs, hfollow⟩))
  | rests hp hr => exact .inr (.inr (.inl ⟨rfl, rfl, rfl, latchKept_refl _, id⟩))
  | accepts hs hp q rest hr hphase hhost hlib => exact .inr (.inl ⟨hp, hphase⟩)
  | runs hs hp i hd hx ht => exact .inr (.inr ht.inputs)

/-- At IDLE no record waits to follow, if none did (30_encoding R132). -/
theorem step_follow {s t : State} (h : step s = .next t) (hf : s.seq.phase = 0x00 → s.host.follow = none)
    (ht : t.seq.phase = 0x00) : t.host.follow = none := by
  rcases (stepEnd_of_next h).inputs with ⟨-, rfl⟩ | ⟨-, hp⟩ | hstay | hover
  · rfl
  · cases hp.symm.trans ht
  · rw [hstay.follow]
    exact hf (by_contra fun hp => hstay.busy hp ht)
  · exact hover.follow

/-- Between calls a step takes the oldest request or changes nothing. -/
theorem step_idle {s t : State} (h : Inv s) (hrst : s.host.rst = false) (hstep : step s = .next t)
    (hp : s.seq.phase = 0x00) : t.lib = s.lib ∧ ((s.host.reqs = [] ∧ t = s) ∨
      ∃ r rest, s.host.reqs = r :: rest ∧ t.seq.phase = 0x01 ∧
        t.host = { s.host with reqs := rest, follow := r.follow }) := by
  cases stepEnd_of_next hstep with
  | resets hr => cases hr.symm.trans hrst
  | answers hs r => exact absurd hp (phase_of_callSent h hs)
  | asks hs i hd hx ht => exact absurd hp (phase_of_callSent h hs)
  | rests hp hr => exact ⟨rfl, .inl ⟨hr, rfl⟩⟩
  | accepts hs hp q rest hr hphase hhost hlib => exact ⟨hlib, .inr ⟨q, rest, hr, hphase, hhost⟩⟩
  | runs hs hp' i hd hx ht => exact absurd hp hp'

/-- Settles O54: a step is the reset, the acceptance of a request, the end of the call, or leaves the inputs alone. -/
theorem callInputsStay : Obligations.CallInputsStay := by
  unfold Obligations.CallInputsStay
  intro s t hstep
  refine ⟨step_options hstep, step_follow hstep, fun h hrst => ⟨step_idle h hrst hstep, fun hs ht => ?_, fun hs ht => ?_⟩⟩
  · rcases (stepEnd_of_next hstep).inputs with ⟨hr, -⟩ | ⟨hp, -⟩ | hstay | hover
    · cases hr.symm.trans hrst
    · exact absurd hp hs
    · exact absurd ht (hstay.busy hs)
    · exact hover.reqs
  · rcases (stepEnd_of_next hstep).inputs with ⟨hr, -⟩ | ⟨hp, -⟩ | hstay | hover
    · cases hr.symm.trans hrst
    · exact absurd hp hs
    · obtain ⟨hrecid, hcurveid, hdlen, hrlen, hslen, hdigest, hrhex, hshex⟩ := hstay.latch
      exact ⟨hstay.params, hstay.reqs, hstay.follow, hrecid, hcurveid, hdlen, hrlen, hslen, hdigest, hrhex, hshex⟩
    · exact absurd hover.phase ht

end Sys2Proof.Proofs
end

section
/-! PROOFS. No write overflows a B register (10_state R42): the bounds of the library's integers, then each ending of a step,
each instruction, and `StepKeepsMagnitudes` from them. -/

namespace Sys2Proof.Proofs

open Sys2Proof Sys2Proof.Machine Sys2Proof.Safety

/-! ### The library's integers (46 R245 to R248) -/

theorem hexDigit_lt {x : Byte} {d : Nat} (h : hexDigit x = some d) : d < 16 := by
  unfold hexDigit at h
  split at h
  · cases h; omega
  · split at h
    · cases h; omega
    · split at h
      · cases h; omega
      · cases h

/-- Digits read after a value shift it by their number. -/
theorem hexFrom_lt {h : List Byte} {acc v : Nat} (hv : hexFrom acc h = some v) : v < (acc + 1) * 16 ^ h.length := by
  induction h generalizing acc with
  | nil => cases hv; simp
  | cons x rest ih =>
    rw [hexFrom] at hv
    cases hd : hexDigit x with
    | none => rw [hd] at hv; cases hv
    | some d =>
      rw [hd] at hv
      have hlt := hexDigit_lt hd
      calc v < (16 * acc + d + 1) * 16 ^ rest.length := ih hv
        _ ≤ (acc + 1) * 16 * 16 ^ rest.length := Nat.mul_le_mul_right _ (by omega)
        _ = (acc + 1) * 16 ^ (x :: rest).length := by rw [List.length_cons, pow_succ]; ring

theorem hexValue_lt {h : List Byte} {v : Nat} (hv : hexValue h = some v) : v < 16 ^ h.length := by
  cases h with
  | nil => cases hv
  | cons x rest => simpa using hexFrom_lt (acc := 0) hv

theorem be_lt (bytes : List Byte) : be bytes < 256 ^ bytes.length := by
  have key (acc : Nat) : bytes.foldl (fun acc x => 256 * acc + x.toNat) acc < (acc + 1) * 256 ^ bytes.length := by
    induction bytes generalizing acc with
    | nil => simp
    | cons x rest ih =>
      have hx : x.toNat < 256 := x.isLt
      calc rest.foldl (fun acc x => 256 * acc + x.toNat) (256 * acc + x.toNat)
          < (256 * acc + x.toNat + 1) * 256 ^ rest.length := ih _
        _ ≤ (acc + 1) * 256 * 256 ^ rest.length := Nat.mul_le_mul_right _ (by omega)
        _ = (acc + 1) * 256 ^ (x :: rest).length := by rw [List.length_cons, pow_succ]; ring
  simpa [be] using key 0

theorem modInv_lt {m v w : Nat} (hm : 0 < m) (h : modInv m v = some w) : w < m := by
  unfold modInv at h
  simp only at h
  split at h
  · cases h; exact emod_toNat_lt hm _
  · cases h

theorem signed_natAbs (x : Bool × BitVec 1020) : (signed x).natAbs = x.2.toNat := by
  unfold signed
  split <;> simp

/-! ### What a B register holds (10_state R41) -/

section Fits

variable {lmax : Nat}

/-- BW is no less than 4·HEXCAP and 8·LMAX + 1 bits. -/
theorem fits_of_lt {k v : Nat} (hv : v < 2 ^ k) (hk : k ≤ 4 * Config.hexcap ∨ k ≤ 8 * lmax + 1) :
    fits lmax (v : Int) := by
  have hbw : k ≤ Config.bw lmax := by rw [Config.bw, le_max_iff]; exact hk
  exact lt_of_lt_of_le hv (Nat.pow_le_pow_right (by decide) hbw)

theorem fits_neg {v : Int} (h : fits lmax v) : fits lmax (-v) := by rwa [fits, Int.natAbs_neg]

theorem fits_of_natAbs_le {v w : Int} (h : fits lmax w) (hle : v.natAbs ≤ w.natAbs) : fits lmax v :=
  lt_of_le_of_lt hle h

theorem fits_signed (x : Bool × BitVec 1020) : fits lmax (signed x) := by
  have hw : 1020 = 4 * Config.hexcap := rfl
  have lt_pow {w : Nat} (y : BitVec w) : y.toNat < 2 ^ w := y.isLt
  have hx : x.2.toNat < 2 ^ (4 * Config.hexcap) := by rw [← hw]; exact lt_pow x.2
  rw [fits, signed_natAbs]
  exact fits_of_lt hx (.inl (Nat.le_refl _))

/-- A hexadecimal string of HEXCAP digits at most is an integer of 4·HEXCAP bits. -/
theorem chanFits_libBnhex {h : List Byte} (hl : h.length ≤ Config.hexcap) :
    chanFits lmax (.returned (libBnhex h)) := by
  unfold libBnhex
  cases hv : hexValue h with
  | none => trivial
  | some v =>
    refine fits_of_lt (k := 4 * h.length) ?_ (.inl (by omega))
    rw [pow_mul]
    exact hexValue_lt hv

/-- A byte string of LMAX bytes at most is an integer of 8·LMAX bits. -/
theorem chanFits_libBnbin {d : List Byte} (hl : d.length ≤ lmax) : chanFits lmax (.returned (libBnbin d)) := by
  refine fits_of_lt (k := 8 * d.length) ?_ (.inr (by omega))
  rw [pow_mul]
  exact be_lt d

theorem chanFits_libBnneg {v : Int} (h : fits lmax v) : chanFits lmax (.returned (libBnneg v)) := fits_neg h

/-- An inverse is less than its modulus; where the modulus is below 2 the answer is the model's, of 1020 bits. -/
theorem chanFits_libBninv (v : Int) {m : Int} (h : fits lmax m) : chanFits lmax (.returned (libBninv v m)) := by
  unfold libBninv
  split
  · split
    · rename_i w hw
      have := modInv_lt (by omega) hw
      exact fits_of_natAbs_le h (by omega)
    · trivial
  · split
    · rename_i x _
      exact fits_signed x
    · trivial

end Fits

/-! ### The ends of a step -/

section Ends

variable {s t : State}

/-- The magnitudes' invariant reads LMAX, the B registers and what is in flight. -/
theorem magnitudesFit_of_unchanged (h : MagnitudesFit s) (hlmax : t.lib.params.lmax = s.lib.params.lmax)
    (hb : t.seq.b = s.seq.b) (hchan : chanFits s.lib.params.lmax t.chan) : MagnitudesFit t := by
  constructor
  · rw [hb, hlmax]; exact h.regs
  · rw [hlmax]; exact hchan

theorem magnitudesFit_of_dropped (hb : t.seq.b = BFile.reset) (hchan : t.chan = .idle) : MagnitudesFit t := by
  constructor
  · simp [hb]
  · simp [hchan, chanFits]

theorem fits_of_readB (h : MagnitudesFit s) {r : BReg} {v : Int} (hr : s.seq.readB r = .ok v) :
    fits s.lib.params.lmax v := h.regs r v (must_ok hr)

theorem readHex_length {src : HexBuf} {x : List Byte} (h : readHex s src = .ok x) : x.length ≤ Config.hexcap := by
  obtain ⟨n, hn, hx⟩ := bind_ok h
  rw [memRead_length hx]
  cases src <;>
  · obtain ⟨len, -, hlen⟩ := bind_ok hn
    cases hlen
    exact Nat.le_of_lt_succ len.isLt

theorem readDigest_length {x : List Byte} (h : readDigest s = .ok x) : x.length ≤ s.lib.params.lmax := by
  obtain ⟨n, -, hx⟩ := bind_ok h
  obtain ⟨len, hlen, hle, -⟩ := Seq.memRead_ok hx
  obtain ⟨d, -, hd⟩ := bind_ok hlen
  cases hd
  rw [memRead_length hx]
  omega

/-- The argument values of a call lead to integers that fit. -/
theorem chanFits_gather (h : MagnitudesFit s) {d : Instr} {m : LMsg} (hg : gather s d = .ok m) :
    chanFits s.lib.params.lmax (.sent m) := by
  cases d with
  | lcBnhex dst src =>
    obtain ⟨x, hx, hg⟩ := bind_ok hg
    cases hg
    exact readHex_length hx
  | lcBnbin dst =>
    obtain ⟨x, hx, hg⟩ := bind_ok hg
    cases hg
    exact readDigest_length hx
  | lcBnneg dst a =>
    obtain ⟨v, hv, hg⟩ := bind_ok hg
    cases hg
    exact fits_of_readB h hv
  | lcBninv dst a b =>
    obtain ⟨v, hv, hg⟩ := bind_ok hg
    obtain ⟨m, hm, hg⟩ := bind_ok hg
    cases hg
    exact ⟨fits_of_readB h hv, fits_of_readB h hm⟩
  | _ =>
    have ha := gather_args hg
    cases m <;> trivial

/-- A write of an integer that fits keeps the magnitudes. -/
theorem magnitudesFit_writeB (h : MagnitudesFit s) {q : Seq} {r : BReg} {v : Int} (hv : fits s.lib.params.lmax v)
    {c : PhaseCode} (hq : q.b = s.seq.b.set r v) : MagnitudesFit (complete c q s) := by
  constructor
  · intro r' w hw
    change q.b.get r' = some w at hw
    rw [hq] at hw
    by_cases hr : r' = r
    · subst hr
      rw [BFile.get_set_same] at hw
      cases hw
      exact hv
    · rw [BFile.get_set_ne _ _ hr] at hw
      exact h.regs r' w hw
  · trivial

theorem magnitudesFit_complete (h : MagnitudesFit s) {q : Seq} {c : PhaseCode} (hq : q.b = s.seq.b) :
    MagnitudesFit (complete c q s) := magnitudesFit_of_unchanged h rfl hq trivial

theorem magnitudesFit_advance (h : MagnitudesFit s) {q : Seq} {c : PhaseCode} (hq : q.b = s.seq.b) :
    MagnitudesFit (advance c q s) := magnitudesFit_of_unchanged h rfl hq h.chan

theorem magnitudesFit_raise (k : ErrKind) (c : PhaseCode) (s : State) : MagnitudesFit (raise k c s) :=
  magnitudesFit_of_dropped rfl rfl

theorem magnitudesFit_commitInt (h : MagnitudesFit s) {c : PhaseCode} {dst : BReg} {k : ErrKind} {r : LRet}
    (hr : s.chan = .returned r) (hc : commitInt c dst k s r = .ok t) : MagnitudesFit t := by
  rcases commitInt_ok hc with ⟨v, rfl, rfl⟩ | ⟨-, rfl⟩ | rfl
  · have hv := h.chan
    rw [hr] at hv
    exact magnitudesFit_writeB h hv rfl
  · exact magnitudesFit_raise ..
  · exact magnitudesFit_raise ..

theorem magnitudesFit_commitPoint (h : MagnitudesFit s) {c : PhaseCode} {dst : PReg} {k : ErrKind} {r : LRet}
    (hc : commitPoint c dst k s r = .ok t) : MagnitudesFit t := by
  rcases commitPoint_ok hc with ⟨q, -, rfl⟩ | ⟨-, rfl⟩ | rfl
  · exact magnitudesFit_complete h rfl
  · exact magnitudesFit_raise ..
  · exact magnitudesFit_raise ..

/-- CURVE checks that p is below 256^L, L <= LMAX, and n below 2^(8·LMAX + 1) (41 R172). -/
theorem fits_of_curveFits {lmax p n l : Nat} (h : curveFits lmax p n l = true) : fits lmax p ∧ fits lmax n := by
  obtain ⟨-, hl, hp⟩ := curveFits_bounds h
  simp only [curveFits, Bool.and_eq_true, decide_eq_true_eq] at h
  exact ⟨fits_of_lt hp (.inr (by omega)), fits_of_lt h.2.2 (.inr (Nat.le_refl _))⟩

theorem magnitudesFit_commitCurve (h : MagnitudesFit s) {r : LRet} (hc : commitCurve s r = .ok t) :
    MagnitudesFit t := by
  rcases commitCurve_ok hc with ⟨p, n, g, l, -, hf, rfl⟩ | rfl
  · obtain ⟨hp, hn⟩ := fits_of_curveFits hf
    have hbp : MagnitudesFit (complete Code.curve (s.seq.writeB .bp p) s) :=
      magnitudesFit_writeB (r := .bp) h hp rfl
    have hbn : MagnitudesFit (complete Code.curve ((s.seq.writeB .bp p).writeB .bn n) _) :=
      magnitudesFit_writeB (r := .bn) hbp hn rfl
    exact magnitudesFit_of_unchanged hbn rfl rfl trivial
  · exact magnitudesFit_raise ..

theorem magnitudesFit_commitOrdchk (h : MagnitudesFit s) {r : LRet} (hc : commitOrdchk s r = .ok t) :
    MagnitudesFit t := by
  rcases commitOrdchk_ok hc with ⟨f, -, -, rfl⟩ | rfl | rfl
  · exact magnitudesFit_complete h rfl
  · exact magnitudesFit_raise ..
  · exact magnitudesFit_raise ..

theorem magnitudesFit_commitEnc (h : MagnitudesFit s) {r : LRet} (hc : commitEnc s r = .ok t) : MagnitudesFit t := by
  rcases commitEnc_ok hc with ⟨bytes, l, q, -, -, -, hw, rfl⟩ | rfl
  · obtain ⟨-, rfl⟩ := Seq.memWrite_ok hw
    exact magnitudesFit_complete h rfl
  · exact magnitudesFit_raise ..

/-- A micro-op with a call keeps the magnitudes if its commit does. -/
theorem magnitudesFit_callStep {iss : Except Fault State} {commit : LRet → Except Fault State} (h : MagnitudesFit s)
    (he : callStep iss commit s = .next t)
    (hissue : ∀ {u}, iss = .ok u → ∃ d m, gather s d = .ok m ∧ u = sendCall d m s)
    (hcommit : ∀ {r}, s.chan = .returned r → commit r = .ok t → MagnitudesFit t) : MagnitudesFit t := by
  rcases callStep_next he with ⟨-, hs⟩ | ⟨-, -, rfl⟩ | ⟨r, -, hch, hc⟩
  · obtain ⟨d, m, hg, rfl⟩ := hissue hs
    exact magnitudesFit_of_unchanged h rfl rfl (chanFits_gather h hg)
  · exact h
  · exact hcommit hch hc

theorem magnitudesFit_offer (h : MagnitudesFit s) (rsp : List Byte) : MagnitudesFit (offer rsp s) := by
  rcases offer_cases rsp s with ⟨-, ho⟩ | ⟨-, ho⟩ <;> rw [ho]
  · exact magnitudesFit_of_dropped rfl rfl
  · exact magnitudesFit_of_unchanged h rfl rfl h.chan

theorem magnitudesFit_execRecover (h : MagnitudesFit s) {recid curveid : Byte} {digest rhex shex : List Byte}
    (he : execRecover recid curveid digest rhex shex s = .next t) : MagnitudesFit t := by
  unfold execRecover at he
  split at he
  · obtain ⟨-, -, rfl⟩ := accept_ok (run_next he)
    exact magnitudesFit_of_dropped rfl rfl
  · cases he
    exact magnitudesFit_of_unchanged h rfl rfl h.chan

/-- LIB keeps the magnitudes if the answers to the argument values in flight fit. -/
theorem magnitudesFit_serve (h : MagnitudesFit s) {f : LMsg → Option LRet} (he : serve f s = .next t)
    (hf : ∀ {m r}, chanFits s.lib.params.lmax (.sent m) → f m = some r → chanFits s.lib.params.lmax (.returned r)) :
    MagnitudesFit t := by
  obtain ⟨m, r, hch, hr, rfl⟩ := serve_next he
  refine magnitudesFit_of_unchanged h (by simp) rfl ?_
  rw [answer_chan]
  split
  · trivial
  · exact hf (hch ▸ h.chan) hr

/-- The calls that answer no integer leave nothing to fit. -/
theorem chanFits_of_noInt {lmax : Nat} {r : LRet} (h : ∀ v, r ≠ .ok (.int v)) : chanFits lmax (.returned r) := by
  cases r with
  | ok v =>
    cases v with
    | int v => exact absurd rfl (h v)
    | _ => trivial
  | _ => trivial

theorem libCurve_noInt (P : Params) (id : Byte) (v : Int) : libCurve P id ≠ .ok (.int v) := by
  unfold libCurve
  split <;> exact nofun

theorem libPdec_noInt (P : Params) (id : Byte) (x : Int) (p : BitVec 1) (v : Int) : libPdec P id x p ≠ .ok (.int v) := by
  rcases libPdec_answer P id x p with hr | ⟨q, hr⟩ <;> rw [hr] <;> exact nofun

theorem libPmul_noInt (P : Params) (id : Byte) (k : Int) (q : Point) (v : Int) : libPmul P id k q ≠ .ok (.int v) := by
  unfold libPmul
  split <;> exact nofun

theorem libPadd_noInt (P : Params) (id : Byte) (a b : Point) (v : Int) : libPadd P id a b ≠ .ok (.int v) := by
  unfold libPadd
  split <;> exact nofun

theorem libPenc_noInt (P : Params) (id : Byte) (a : Point) (v : Int) : libPenc P id a ≠ .ok (.int v) := by
  unfold libPenc
  split
  · exact nofun
  · exact nofun
  · split <;> exact nofun

/-! ### Every instruction, the step -/

/-- Every instruction keeps the magnitudes, run from any state. -/
theorem magnitudesFit_exec (h : MagnitudesFit s) {i : Instr} (he : exec i s = .next t) : MagnitudesFit t := by
  cases i with
  | recover => exact magnitudesFit_execRecover h he
  | recover2 => cases he; exact magnitudesFit_of_unchanged h rfl rfl h.chan
  | vrid =>
    obtain ⟨recid, -, ⟨v, -, rfl⟩ | ⟨-, rfl⟩⟩ := execVrid_next he
    · exact magnitudesFit_advance h rfl
    · exact magnitudesFit_raise ..
  | curve => exact magnitudesFit_callStep h he issue_sends fun _ => magnitudesFit_commitCurve h
  | parser => exact magnitudesFit_callStep h he issue_sends (magnitudesFit_commitInt h)
  | parses => exact magnitudesFit_callStep h he issue_sends (magnitudesFit_commitInt h)
  | trunc =>
    obtain ⟨d, l, -, -, rfl⟩ := execTrunc_next he
    exact magnitudesFit_advance h rfl
  | setx =>
    obtain ⟨r, hr, rfl⟩ := execSetx_next he
    have hw : MagnitudesFit (complete Code.setx (s.seq.writeB .bx r) s) :=
      magnitudesFit_writeB (r := .bx) h (h.regs .br r hr) rfl
    exact magnitudesFit_of_unchanged hw rfl rfl h.chan
  | decomp => exact magnitudesFit_callStep h he issueDecomp_sends fun _ => magnitudesFit_commitPoint h
  | ordmul => exact magnitudesFit_callStep h he issue_sends fun _ => magnitudesFit_commitPoint h
  | ordchk => exact magnitudesFit_callStep h he issue_sends fun _ => magnitudesFit_commitOrdchk h
  | eload => exact magnitudesFit_callStep h he issue_sends (magnitudesFit_commitInt h)
  | inv => exact magnitudesFit_callStep h he issue_sends (magnitudesFit_commitInt h)
  | muls => exact magnitudesFit_callStep h he issue_sends fun _ => magnitudesFit_commitPoint h
  | neg => exact magnitudesFit_callStep h he issue_sends (magnitudesFit_commitInt h)
  | mulg => exact magnitudesFit_callStep h he issue_sends fun _ => magnitudesFit_commitPoint h
  | add => exact magnitudesFit_callStep h he issue_sends fun _ => magnitudesFit_commitPoint h
  | mulq => exact magnitudesFit_callStep h he issue_sends fun _ => magnitudesFit_commitPoint h
  | enc => exact magnitudesFit_callStep h he issue_sends fun _ => magnitudesFit_commitEnc h
  | strip =>
    obtain ⟨l, bytes, q, -, -, hw, rfl⟩ := execStrip_next he
    obtain ⟨-, rfl⟩ := Seq.memWrite_ok hw
    exact magnitudesFit_advance h rfl
  | idle => cases he; exact h
  | done =>
    obtain ⟨rsp, -, ho⟩ := bind_ok (run_next he)
    cases ho
    exact magnitudesFit_offer h rsp
  | fail => cases he; exact magnitudesFit_offer h _
  | lcCurve =>
    exact magnitudesFit_serve h he fun {m r} _ hf => by
      cases m <;> cases hf
      exact chanFits_of_noInt (libCurve_noInt _ _)
  | lcBnhex =>
    exact magnitudesFit_serve h he fun {m r} hm hf => by
      cases m <;> cases hf
      exact chanFits_libBnhex hm
  | lcBnbin =>
    exact magnitudesFit_serve h he fun {m r} hm hf => by
      cases m <;> cases hf
      exact chanFits_libBnbin hm
  | lcBnneg =>
    exact magnitudesFit_serve h he fun {m r} hm hf => by
      cases m <;> cases hf
      exact chanFits_libBnneg hm
  | lcBninv =>
    exact magnitudesFit_serve h he fun {m r} hm hf => by
      cases m <;> cases hf
      exact chanFits_libBninv _ hm.2
  | lcPdec =>
    exact magnitudesFit_serve h he fun {m r} _ hf => by
      cases m <;> cases hf
      exact chanFits_of_noInt (libPdec_noInt _ _ _ _)
  | lcPmul =>
    exact magnitudesFit_serve h he fun {m r} _ hf => by
      cases m <;> cases hf
      exact chanFits_of_noInt (libPmul_noInt _ _ _ _)
  | lcPadd =>
    exact magnitudesFit_serve h he fun {m r} _ hf => by
      cases m <;> cases hf
      exact chanFits_of_noInt (libPadd_noInt _ _ _ _)
  | lcPinf =>
    exact magnitudesFit_serve h he fun {m r} _ hf => by
      cases m <;> cases hf
      trivial
  | lcPenc =>
    exact magnitudesFit_serve h he fun {m r} _ hf => by
      cases m <;> cases hf
      exact chanFits_of_noInt (libPenc_noInt _ _ _)

/-- A fetch changes LIB's draws or the host's channel at most. -/
theorem magnitudesFit_fetch (h : MagnitudesFit s) {f : Instr × State} (hf : fetch s = .next f) :
    MagnitudesFit f.2 := by
  obtain ⟨i, u⟩ := f
  have drawn : MagnitudesFit { s with lib := (drawReady s.lib).2 } :=
    magnitudesFit_of_unchanged h (by simp) rfl h.chan
  rcases fetch_next hf with
    ⟨-, -, -, hu⟩ | ⟨-, -, -, hu⟩ | ⟨-, -, -, hu⟩ | ⟨-, -, r, rest, -, -, hu⟩ | ⟨-, -, -, hu⟩
  · cases hu; exact drawn
  · cases hu; exact drawn
  · cases hu; exact h
  · cases hu; exact magnitudesFit_of_unchanged h rfl rfl h.chan
  · cases hu; exact h

end Ends

/-- Settles O48: a step is the reset, which empties the registers, or a fetch and an instruction, which keep the
magnitudes. -/
theorem stepKeepsMagnitudes : Obligations.StepKeepsMagnitudes := by
  unfold Obligations.StepKeepsMagnitudes
  intro s t h hstep
  rcases step_next hstep with ⟨-, rfl⟩ | ⟨-, f, hf, he⟩
  · exact magnitudesFit_of_dropped rfl rfl
  · exact magnitudesFit_exec (magnitudesFit_fetch h hf) he

end Sys2Proof.Proofs
end

section
/-! PROOFS. A read of an invalid register is a model fault (10_state R33): a meaning reads its operands before it does
anything else, one after the other, and stops at the first that is invalid. `InvalidReadFaults`. -/

namespace Sys2Proof.Proofs

open Sys2Proof Sys2Proof.Machine Sys2Proof.Safety

/-- With one of the registers `rs` invalid, the computation stops with the fault that names such a register. -/
def FaultsOn {α : Type} (q : Seq) (rs : List RegName) (x : Except Fault α) : Prop :=
  (∃ r ∈ rs, valid q r = false) → ∃ r ∈ rs, valid q r = false ∧ x = .error (.invalidRead r)

section Reads

variable {α β : Type} {q : Seq} {rs : List RegName}

theorem faultsOn_nil (x : Except Fault α) : FaultsOn q [] x := by
  rintro ⟨r, hr, -⟩
  cases hr

/-- A computation that reads `r` first and then stops on the others stops on all of them. -/
theorem faultsOn_must {r : RegName} {o : Option α} {f : α → Except Fault β} (hr : valid q r = o.isSome)
    (h : ∀ a, FaultsOn q rs (f a)) : FaultsOn q (r :: rs) (must r o >>= f) := by
  cases o with
  | none => exact fun _ => ⟨r, List.mem_cons_self, hr, rfl⟩
  | some a =>
    rintro ⟨r', hmem, hr'⟩
    rcases List.mem_cons.1 hmem with rfl | hmem
    · cases hr'.symm.trans hr
    · obtain ⟨r'', hmem', hv, hx⟩ := h a ⟨r', hmem, hr'⟩
      exact ⟨r'', List.mem_cons_of_mem _ hmem', hv, hx⟩

theorem faultsOn_bind {x : Except Fault α} (h : FaultsOn q rs x) (f : α → Except Fault β) :
    FaultsOn q rs (x >>= f) := by
  intro hinv
  obtain ⟨r, hmem, hv, rfl⟩ := h hinv
  exact ⟨r, hmem, hv, rfl⟩

end Reads

section Operands

variable {s : State}

/-! ### The operands of a call -/

theorem faultsOn_lcCurve : FaultsOn s.seq [.curveid] (issue .lcCurve s) :=
  faultsOn_bind (faultsOn_must rfl fun _ => faultsOn_nil _) _

theorem faultsOn_rhex (dst : BReg) : FaultsOn s.seq [.rlen] (issue (.lcBnhex dst .rhex) s) :=
  faultsOn_bind (faultsOn_bind (faultsOn_bind (faultsOn_must rfl fun _ => faultsOn_nil _) _) _) _

theorem faultsOn_shex (dst : BReg) : FaultsOn s.seq [.slen] (issue (.lcBnhex dst .shex) s) :=
  faultsOn_bind (faultsOn_bind (faultsOn_bind (faultsOn_must rfl fun _ => faultsOn_nil _) _) _) _

theorem faultsOn_digest (dst : BReg) : FaultsOn s.seq [.deff, .dlen] (issue (.lcBnbin dst) s) :=
  faultsOn_bind (faultsOn_bind (faultsOn_must rfl fun _ =>
    faultsOn_bind (faultsOn_must rfl fun _ => faultsOn_nil _) _) _) _

theorem faultsOn_lcBnneg (dst a : BReg) : FaultsOn s.seq [.b a] (issue (.lcBnneg dst a) s) :=
  faultsOn_bind (faultsOn_must rfl fun _ => faultsOn_nil _) _

theorem faultsOn_lcBninv (dst a b : BReg) : FaultsOn s.seq [.b a, .b b] (issue (.lcBninv dst a b) s) :=
  faultsOn_bind (faultsOn_must rfl fun _ => faultsOn_must rfl fun _ => faultsOn_nil _) _

theorem faultsOn_lcPdec (dst : PReg) (a : BReg) (v : BitVec 1) :
    FaultsOn s.seq [.curveid, .b a] (issue (.lcPdec dst a v) s) :=
  faultsOn_bind (faultsOn_must rfl fun _ => faultsOn_must rfl fun _ => faultsOn_nil _) _

theorem faultsOn_lcPmul (dst b : PReg) (a : BReg) :
    FaultsOn s.seq [.curveid, .b a, .p b] (issue (.lcPmul dst a b) s) :=
  faultsOn_bind (faultsOn_must rfl fun _ => faultsOn_must rfl fun _ => faultsOn_must rfl fun _ => faultsOn_nil _) _

theorem faultsOn_lcPadd (dst a b : PReg) : FaultsOn s.seq [.curveid, .p a, .p b] (issue (.lcPadd dst a b) s) :=
  faultsOn_bind (faultsOn_must rfl fun _ => faultsOn_must rfl fun _ => faultsOn_must rfl fun _ => faultsOn_nil _) _

theorem faultsOn_lcPinf (a : PReg) : FaultsOn s.seq [.p a] (issue (.lcPinf a) s) :=
  faultsOn_bind (faultsOn_must rfl fun _ => faultsOn_nil _) _

theorem faultsOn_lcPenc (a : PReg) : FaultsOn s.seq [.curveid, .p a] (issue (.lcPenc a) s) :=
  faultsOn_bind (faultsOn_must rfl fun _ => faultsOn_must rfl fun _ => faultsOn_nil _) _

/-! ### Every instruction -/

/-- What an instruction runs when no call is outstanding stops on its operands. -/
theorem faultsOn_exec (hcp : s.seq.callpend = false) {i : Instr} (hi : operands i ≠ []) :
    ∃ x, exec i s = run x ∧ FaultsOn s.seq (operands i) x := by
  have call {iss : Except Fault State} {commit : LRet → Except Fault State} {rs : List RegName}
      (h : FaultsOn s.seq rs iss) : ∃ x, callStep iss commit s = run x ∧ FaultsOn s.seq rs x :=
    ⟨iss, callStep_issue hcp, h⟩
  cases i with
  | vrid => exact ⟨_, rfl, faultsOn_must rfl fun _ => faultsOn_nil _⟩
  | curve => exact call faultsOn_lcCurve
  | parser => exact call (faultsOn_rhex _)
  | parses => exact call (faultsOn_shex _)
  | trunc => exact ⟨_, rfl, faultsOn_must rfl fun _ => faultsOn_must rfl fun _ => faultsOn_nil _⟩
  | setx => exact ⟨_, rfl, faultsOn_must rfl fun _ => faultsOn_nil _⟩
  | decomp => exact call (faultsOn_must rfl fun _ => faultsOn_lcPdec _ _ _)
  | ordmul => exact call (faultsOn_lcPmul _ _ _)
  | ordchk => exact call (faultsOn_lcPinf _)
  | eload => exact call (faultsOn_digest _)
  | inv => exact call (faultsOn_lcBninv _ _ _)
  | muls => exact call (faultsOn_lcPmul _ _ _)
  | neg => exact call (faultsOn_lcBnneg _ _)
  | mulg => exact call (faultsOn_lcPmul _ _ _)
  | add => exact call (faultsOn_lcPadd _ _ _)
  | mulq => exact call (faultsOn_lcPmul _ _ _)
  | enc => exact call (faultsOn_lcPenc _)
  | strip =>
    exact ⟨_, rfl, faultsOn_must rfl fun _ =>
      faultsOn_bind (faultsOn_bind (faultsOn_must rfl fun _ => faultsOn_nil _) _) _⟩
  | done => exact ⟨_, rfl, faultsOn_bind (faultsOn_must rfl fun _ => faultsOn_nil _) _⟩
  | _ => exact absurd rfl hi

end Operands

/-- Settles O30: an instruction stops on its operands at issue, and ENC on CP.L at its commit. -/
theorem invalidReadFaults : Obligations.InvalidReadFaults := by
  unfold Obligations.InvalidReadFaults
  constructor
  · rintro i s hcp ⟨r, hr, hv⟩
    obtain ⟨x, hx, hf⟩ := faultsOn_exec hcp (List.ne_nil_of_mem hr)
    obtain ⟨r', hr', hv', rfl⟩ := hf ⟨r, hr, hv⟩
    exact ⟨r', hr', hv', hx⟩
  · intro s bytes hr hl
    have hx : exec .enc s = run (commitEncoding s bytes) := callStep_commit hr.1 hr.2
    rw [hx, commitEncoding, hl]
    rfl

end Sys2Proof.Proofs
end

section
/-! PROOFS. Purity of the call (40 R153). Two machines that agree on SEQ's registers, LCD aside, on the call in flight and on
what R153 names go through a call in lockstep, micro-op by micro-op, however long each one's LIB takes; `CallPurity`. -/

namespace Sys2Proof.Proofs

open Sys2Proof Sys2Proof.Machine Sys2Proof.Safety

/-! ### Runs -/

theorem run_succ_of_next {M : Host.Core} {s t : M.State} (h : M.step s = .next t) (k : Nat) :
    M.run (k + 1) s = M.run k t := by
  simp only [Host.Core.run, h]

/-- A run of a step and `k` more that goes on has gone on at its first step. -/
theorem run_succ_next {M : Host.Core} {k : Nat} {s u : M.State} (h : M.run (k + 1) s = .next u) :
    ∃ t, M.step s = .next t ∧ M.run k t = .next u := by
  cases hs : M.step s with
  | next t => exact ⟨t, rfl, (run_succ_of_next hs k).symm.trans h⟩
  | fault f => simp only [Host.Core.run, hs, reduceCtorEq] at h
  | refused r => simp only [Host.Core.run, hs, reduceCtorEq] at h

/-- A number of steps takes `s` to `t`. -/
def Reaches (s t : State) : Prop := ∃ k, Sys2Proof.core.run k s = .next t

theorem Reaches.refl (s : State) : Reaches s s := ⟨0, rfl⟩

theorem Reaches.head {s t u : State} (h : step s = .next t) (hr : Reaches t u) : Reaches s u := by
  obtain ⟨k, hk⟩ := hr
  exact ⟨k + 1, (run_succ_of_next (M := Sys2Proof.core) h k).trans hk⟩

theorem Reaches.of_step {s t : State} (h : step s = .next t) : Reaches s t := .head h (.refl t)

theorem Reaches.trans {s t u : State} (h : Reaches s t) (hr : Reaches t u) : Reaches s u := by
  obtain ⟨k, hk⟩ := h
  induction k generalizing s with
  | zero => cases hk; exact hr
  | succ k ih =>
    obtain ⟨v, hv, hk⟩ := run_succ_next hk
    exact .head hv (ih hk)

theorem Reaches.inv {s t : State} (h : Reaches s t) (hs : Inv s) : Inv t := by
  obtain ⟨k, hk⟩ := h
  induction k generalizing s with
  | zero => cases hk; exact hs
  | succ k ih =>
    obtain ⟨v, hv, hk⟩ := run_succ_next hk
    exact ih (stepKeepsInv s v hs hv) hk

/-! ### What a step fetches -/

theorem step_of_fetch {s : State} {f : Instr × State} (hrst : s.host.rst = false) (hf : fetch s = .next f) :
    step s = exec f.1 f.2 := by
  simp [step, hrst, hf]

/-- With no call sent a step in a call runs the micro-op in PHASE. -/
theorem step_of_phase {s : State} {i : Instr} (hrst : s.host.rst = false) (hs : callSent s = false)
    (hp : s.seq.phase ≠ 0x00) (hd : decodePhase s.seq.phase = .ok i) : step s = exec i s :=
  step_of_fetch (f := (i, s)) hrst (by rw [fetch, hs, if_neg (by decide), if_neg hp, fetchPhase_of hd])

/-- With a call sent, and LIB's coming answer a scripted one, a step runs LCD's call or waits. -/
theorem step_of_callSent {s : State} {b : Bool} {rest : List Bool} {i d : Instr} (hrst : s.host.rst = false)
    (hs : callSent s = true) (hready : s.lib.ready = b :: rest) (hi : decodePhase s.seq.phase = .ok i)
    (hd : decodeLcd s.seq.lcd = .ok d) :
    step s = exec (if b then d else i) { s with lib := { s.lib with ready := rest } } := by
  have hdraw := drawReady_scripted hready
  refine step_of_fetch (f := (if b then d else i, _)) hrst ?_
  rw [fetch, hs, if_pos rfl, hdraw]
  cases b with
  | true => exact fetchLcd_of (s := { s with lib := { s.lib with ready := rest } }) hd
  | false => exact fetchPhase_of (s := { s with lib := { s.lib with ready := rest } }) hi

/-! ### LIB's answer as a function (46 R240) -/

/-- The answer of a library call to argument values, a function of them and of the parameters. -/
def libAnswer (P : Params) : Instr → LMsg → Option LRet
  | .lcCurve, .curve id => some (libCurve P id)
  | .lcBnhex _ _, .bnhex h => some (libBnhex h)
  | .lcBnbin _, .bnbin d => some (libBnbin d)
  | .lcBnneg _ _, .bnneg v => some (libBnneg v)
  | .lcBninv _ _ _, .bninv v n => some (libBninv v n)
  | .lcPdec _ _ v, .pdec id x => some (libPdec P id x v)
  | .lcPmul _ _ _, .pmul id k q => some (libPmul P id k q)
  | .lcPadd _ _ _, .padd id a b => some (libPadd P id a b)
  | .lcPinf _, .pinf a => some (libPinf a)
  | .lcPenc _, .penc id a => some (libPenc P id a)
  | _, _ => none

/-- A library call serves the argument values in flight by that function. -/
theorem exec_eq_serve {d : Instr} (hd : d.format = .lcd) (s : State) :
    exec d s = serve (libAnswer s.lib.params d) s := by
  have key {f g : LMsg → Option LRet} (h : ∀ m, f m = g m) : serve f s = serve g s := by rw [funext h]
  cases d <;> cases hd <;> exact key fun m => by cases m <;> rfl

/-- The answer depends on the curve table and DECOMP_OOR alone (10_state R48). -/
theorem libAnswer_congr {P Q : Params} (ht : P.table = Q.table) (ho : P.decompOor = Q.decompOor) (d : Instr)
    (m : LMsg) : libAnswer P d m = libAnswer Q d m := by
  obtain ⟨lmax, hexcase, decompOor, table⟩ := P
  obtain ⟨lmax', hexcase', decompOor', table'⟩ := Q
  cases ht
  cases ho
  cases d <;> cases m <;> rfl

theorem libAnswer_of_argsMatch {d : Instr} {m : LMsg} (h : argsMatch d m = true) (P : Params) :
    d.format = .lcd ∧ ∃ r, libAnswer P d m = some r := by
  cases d <;> cases m <;> cases h <;> exact ⟨rfl, _, rfl⟩

/-! ### LIB answers in the end -/

/-- The state when LIB has answered `r`, with the draws to come. -/
def afterAnswer (s : State) (r : LRet) (ready fails : List Bool) : State :=
  { s with chan := .returned r, lib := { s.lib with ready := ready, fails := fails } }

/-- A call that is sent is answered, after as many steps as LIB's draws withhold the answer, and one of the answers to come
is used up (40 R159). -/
theorem reaches_answer {s : State} (h : Inv s) (hrst : s.host.rst = false) {d : Instr} {m : LMsg} {r : LRet}
    (hs : sent s m) (hd : decodeLcd s.seq.lcd = .ok d) (hm : argsMatch d m = true)
    (hr : libAnswer s.lib.params d m = some r) {b : Bool} {fails : List Bool} (hfails : s.lib.fails = b :: fails)
    {ready : List Bool} (hready : s.lib.ready = ready) (hcount : 1 ≤ ready.count true) :
    ∃ rest, ready.count true = rest.count true + 1 ∧
      Reaches s (afterAnswer s (if b then .resfail else r) rest fails) := by
  have hcs : callSent s = true := (callSent_iff s).2 ⟨m, hs⟩
  obtain ⟨i, hi⟩ := decodePhase_of_inv h
  induction ready generalizing s with
  | nil => cases hcount
  | cons x rest ih =>
    have hstep := step_of_callSent hrst hcs hready hi hd
    have hdrawn : Inv { s with lib := { s.lib with ready := rest } } := inv_draw h _ rfl
    cases x with
    | false =>
      rw [if_neg (by decide), (exec_of_callSent hdrawn hcs hi).2] at hstep
      obtain ⟨rest', hc, hreach⟩ := ih hdrawn hrst hs hd hr hfails rfl (by simpa using hcount) hcs hi
      exact ⟨rest', by simpa using hc, .head hstep hreach⟩
    | true =>
      refine ⟨rest, by simp, .of_step ?_⟩
      have hserve := serve_of (s := { s with lib := { s.lib with ready := rest } }) hs.2 hr
      rw [hstep, if_pos rfl, exec_eq_serve (libAnswer_of_argsMatch hm s.lib.params).1, hserve, answer,
        drawFail_scripted (l := { s.lib with ready := rest }) hfails]
      rfl

/-! ### Two machines alike -/

/-- `s` with another LCD, another host and another library. -/
def graft (w : LcdWord) (h : HostSide) (l : LibSide) (s : State) : State :=
  { seq := { s.seq with lcd := w }, chan := s.chan, host := h, lib := l }

/-- The two machines agree on SEQ's registers but LCD, on the call in flight, and on the parameters that 40 R153 names. -/
structure Alike (s u : State) : Prop where
  seq : u.seq = { s.seq with lcd := u.seq.lcd }
  chan : u.chan = s.chan
  table : u.lib.params.table = s.lib.params.table
  lmax : u.lib.params.lmax = s.lib.params.lmax
  decompOor : u.lib.params.decompOor = s.lib.params.decompOor

theorem Alike.eq_graft {s u : State} (h : Alike s u) : u = graft u.seq.lcd u.host u.lib s := by
  obtain ⟨hseq, hchan, -, -, -⟩ := h
  rw [graft, ← hseq, ← hchan]

theorem alike_graft {s : State} (w : LcdWord) (h : HostSide) {l : LibSide}
    (ht : l.params.table = s.lib.params.table) (hl : l.params.lmax = s.lib.params.lmax)
    (ho : l.params.decompOor = s.lib.params.decompOor) : Alike s (graft w h l s) := ⟨rfl, rfl, ht, hl, ho⟩

theorem validLen_lcd (q : Seq) (w : LcdWord) (lmax : Nat) (b : BufSel) :
    ({ q with lcd := w } : Seq).validLen lmax b = q.validLen lmax b := by cases b <;> rfl

theorem memRead_lcd (q : Seq) (w : LcdWord) (lmax : Nat) (b : BufSel) (i n : Nat) :
    ({ q with lcd := w } : Seq).memRead lmax b i n = q.memRead lmax b i n := by
  rw [Seq.memRead, validLen_lcd, Seq.memRead]

theorem memWrite_lcd {q q' : Seq} (w : LcdWord) {lmax : Nat} {b : BufSel} {i : Nat} {bytes : List Byte}
    (h : q.memWrite lmax b i bytes = .ok q') :
    ({ q with lcd := w } : Seq).memWrite lmax b i bytes = .ok { q' with lcd := w } := by
  obtain ⟨hcap, rfl⟩ := Seq.memWrite_ok h
  exact Seq.memWrite_of_le hcap

/-- Until the return is there, a micro-op whose call is issued waits (30_encoding R125). -/
theorem callStep_of_no_return {iss : Except Fault State} {commit : LRet → Except Fault State} {s : State}
    (hcp : s.seq.callpend = true) (hch : ∀ r, s.chan ≠ .returned r) : callStep iss commit s = .next s := by
  rw [callStep, if_pos hcp]
  cases h : s.chan with
  | returned r => exact absurd h (hch r)
  | sent m => rfl
  | idle => rfl

section Graft

variable {s t : State} (w : LcdWord) (h : HostSide) {l : LibSide} (hl : l.params.lmax = s.lib.params.lmax)
include hl

/-- SEQ sends the same argument values. -/
theorem gather_graft (d : Instr) : gather (graft w h l s) d = gather s d := by
  have hread (b : BufSel) (i n : Nat) : (graft w h l s).seq.memRead (graft w h l s).lib.params.lmax b i n =
      s.seq.memRead s.lib.params.lmax b i n := by
    rw [← hl]
    exact memRead_lcd ..
  have hlen (b : BufSel) : (graft w h l s).seq.validLen (graft w h l s).lib.params.lmax b =
      s.seq.validLen s.lib.params.lmax b := by
    rw [← hl]
    exact validLen_lcd ..
  cases d with
  | lcBnhex dst src => simp only [gather, readHex, hread, hlen]
  | lcBnbin dst => simp only [gather, readDigest, hread]; rfl
  | _ => rfl

theorem issue_graft {d : Instr} (hs : issue d s = .ok t) :
    issue d (graft w h l s) = .ok (graft (descriptor d) h l t) := by
  obtain ⟨m, hm, rfl⟩ := issue_ok hs
  exact issue_of ((gather_graft w h hl d).trans hm)

theorem issueDecomp_graft (hs : issueDecomp s = .ok t) :
    ∃ w', issueDecomp (graft w h l s) = .ok (graft w' h l t) := by
  obtain ⟨v, m, hv, hm, rfl⟩ := issueDecomp_ok hs
  exact ⟨_, (bind_of_ok (must_of (o := (graft w h l s).seq.v) hv) _).trans (issue_of ((gather_graft w h hl _).trans hm))⟩

omit hl in
theorem commitInt_graft {c : PhaseCode} {dst : BReg} {k : ErrKind} {r : LRet} (hs : commitInt c dst k s r = .ok t) :
    commitInt c dst k (graft w h l s) r = .ok (graft w h l t) := by
  cases r with
  | ok v => cases v <;> cases hs; rfl
  | _ => cases hs; rfl

omit hl in
theorem commitPoint_graft {c : PhaseCode} {dst : PReg} {k : ErrKind} {r : LRet}
    (hs : commitPoint c dst k s r = .ok t) : commitPoint c dst k (graft w h l s) r = .ok (graft w h l t) := by
  cases r with
  | ok v => cases v <;> cases hs; rfl
  | _ => cases hs; rfl

omit hl in
theorem commitOrdchk_graft {r : LRet} (hs : commitOrdchk s r = .ok t) :
    commitOrdchk (graft w h l s) r = .ok (graft w h l t) := by
  cases r with
  | ok v =>
    cases v with
    | bit f =>
      simp only [commitOrdchk] at hs ⊢
      split at hs <;> cases hs
      · rename_i hf; rw [if_pos hf]; rfl
      · rename_i hf; rw [if_neg hf]; rfl
    | _ => cases hs
  | _ => cases hs; rfl

theorem commitCurve_graft {r : LRet} (hs : commitCurve s r = .ok t) :
    commitCurve (graft w h l s) r = .ok (graft w h l t) := by
  have hl : (graft w h l s).lib.params.lmax = s.lib.params.lmax := hl
  cases r with
  | ok v =>
    cases v with
    | curve p n g len =>
      simp only [commitCurve, hl] at hs ⊢
      split at hs <;> cases hs
      · rename_i hf; rw [if_pos hf]; rfl
      · rename_i hf; rw [if_neg hf]; rfl
    | _ => cases hs
  | _ => cases hs; rfl

theorem commitEnc_graft {r : LRet} (hs : commitEnc s r = .ok t) :
    commitEnc (graft w h l s) r = .ok (graft w h l t) := by
  have hl : (graft w h l s).lib.params.lmax = s.lib.params.lmax := hl
  cases r with
  | ok v =>
    cases v with
    | bytes x =>
      obtain ⟨len, hlen, hs⟩ := bind_ok (x := must .cpL s.seq.cpL) hs
      have hlen' : must .cpL (graft w h l s).seq.cpL = .ok len := hlen
      rw [commitEnc, commitEncoding, bind_of_ok hlen', hl]
      split at hs
      · rename_i hx
        obtain ⟨q, hq, hs⟩ := bind_ok hs
        cases hs
        have hq' : (graft w h l s).seq.memWrite s.lib.params.lmax .encbuf 0 x = .ok { q with lcd := w } :=
          memWrite_lcd w hq
        rw [if_pos hx, bind_of_ok hq']
        rfl
      · rename_i hx
        cases hs
        rw [if_neg hx]
        rfl
    | _ => cases hs
  | _ => cases hs; rfl

omit hl in
theorem callStep_graft {iss iss' : Except Fault State} {commit commit' : LRet → Except Fault State}
    (hissue : iss = .ok t → ∃ w', iss' = .ok (graft w' h l t))
    (hcommit : ∀ r, commit r = .ok t → commit' r = .ok (graft w h l t)) (hs : callStep iss commit s = .next t) :
    ∃ w', callStep iss' commit' (graft w h l s) = .next (graft w' h l t) := by
  rcases callStep_next hs with ⟨hcp, hi⟩ | ⟨hcp, hch, rfl⟩ | ⟨r, hcp, hch, hr⟩
  · obtain ⟨w', hi'⟩ := hissue hi
    exact ⟨w', by rw [callStep_issue (s := graft w h l s) hcp, hi', run_ok]⟩
  · exact ⟨w, callStep_of_no_return (s := graft w h l t) hcp hch⟩
  · exact ⟨w, by rw [callStep_commit (s := graft w h l s) hcp hch, hcommit r hr, run_ok]⟩

omit hl in
theorem execVrid_graft (hs : execVrid s = .next t) : execVrid (graft w h l s) = .next (graft w h l t) := by
  obtain ⟨recid, hr, ⟨v, hv, rfl⟩ | ⟨hv, rfl⟩⟩ := execVrid_next hs <;>
    rw [execVrid, bind_of_ok (must_of (o := (graft w h l s).seq.recid) hr), hv] <;> rfl

omit hl in
theorem execTrunc_graft (hs : execTrunc s = .next t) : execTrunc (graft w h l s) = .next (graft w h l t) := by
  obtain ⟨d, len, hd, hlen, rfl⟩ := execTrunc_next hs
  rw [execTrunc, bind_of_ok (must_of (o := (graft w h l s).seq.dlen) hd),
    bind_of_ok (must_of (o := (graft w h l s).seq.cpL) hlen)]
  rfl

omit hl in
theorem execSetx_graft (hs : execSetx s = .next t) : execSetx (graft w h l s) = .next (graft w h l t) := by
  obtain ⟨r, hr, rfl⟩ := execSetx_next hs
  rw [execSetx, bind_of_ok (readB_of (q := (graft w h l s).seq) (r := .br) hr)]
  rfl

theorem execStrip_graft (hs : execStrip s = .next t) : execStrip (graft w h l s) = .next (graft w h l t) := by
  obtain ⟨len, x, q, hlen, hx, hq, rfl⟩ := execStrip_next hs
  rw [← hl] at hx hq
  have hx' : (graft w h l s).seq.memRead (graft w h l s).lib.params.lmax .encbuf 1 (2 * len.toNat) = .ok x :=
    (memRead_lcd s.seq w ..).trans hx
  have hq' : (graft w h l s).seq.memWrite (graft w h l s).lib.params.lmax .result 0 x = .ok { q with lcd := w } :=
    memWrite_lcd w hq
  rw [execStrip, bind_of_ok (must_of (o := (graft w h l s).seq.cpL) hlen), bind_of_ok hx', bind_of_ok hq']
  rfl

/-- A micro-op does the same on the two machines. -/
theorem exec_graft {i : Instr} (hi : isMicroOp i = true) (hx : exec i s = .next t) :
    ∃ w', exec i (graft w h l s) = .next (graft w' h l t) := by
  have calls {d : Instr} {commit commit' : LRet → Except Fault State}
      (hc : ∀ r, commit r = .ok t → commit' r = .ok (graft w h l t)) (hx : callStep (issue d s) commit s = .next t) :
      ∃ w', callStep (issue d (graft w h l s)) commit' (graft w h l s) = .next (graft w' h l t) :=
    callStep_graft w h (fun hs => ⟨_, issue_graft w h hl hs⟩) hc hx
  cases i with
  | vrid => exact ⟨w, execVrid_graft w h hx⟩
  | curve => exact calls (fun _ => commitCurve_graft w h hl) hx
  | parser => exact calls (fun _ => commitInt_graft w h) hx
  | parses => exact calls (fun _ => commitInt_graft w h) hx
  | trunc => exact ⟨w, execTrunc_graft w h hx⟩
  | setx => exact ⟨w, execSetx_graft w h hx⟩
  | decomp => exact callStep_graft w h (issueDecomp_graft w h hl) (fun _ => commitPoint_graft w h) hx
  | ordmul => exact calls (fun _ => commitPoint_graft w h) hx
  | ordchk => exact calls (fun _ => commitOrdchk_graft w h) hx
  | eload => exact calls (fun _ => commitInt_graft w h) hx
  | inv => exact calls (fun _ => commitInt_graft w h) hx
  | muls => exact calls (fun _ => commitPoint_graft w h) hx
  | neg => exact calls (fun _ => commitInt_graft w h) hx
  | mulg => exact calls (fun _ => commitPoint_graft w h) hx
  | add => exact calls (fun _ => commitPoint_graft w h) hx
  | mulq => exact calls (fun _ => commitPoint_graft w h) hx
  | enc => exact calls (fun _ => commitEnc_graft w h hl) hx
  | strip => exact ⟨w, execStrip_graft w h hl hx⟩
  | _ => cases hi

/-- The response record is the same on the two machines (40 R154). -/
theorem response_graft : response (graft w h l s) = response s := by
  have hsucc : successRsp (graft w h l s) = successRsp s := by
    have hread (n : Nat) : (graft w h l s).seq.memRead (graft w h l s).lib.params.lmax .result 0 n =
        s.seq.memRead s.lib.params.lmax .result 0 n := by
      rw [← hl]
      exact memRead_lcd ..
    simp only [successRsp, hread]
    rfl
  rw [response, hsucc]
  rfl

end Graft

end Sys2Proof.Proofs
end

section
/-! PROOFS. Two machines that are alike go through a call in lockstep, and the response is the same: `CallPurity`. -/

namespace Sys2Proof.Proofs

open Sys2Proof Sys2Proof.Machine Sys2Proof.Safety

/-! ### What is left of a call -/

/-- The library calls of a call at the PHASE codes from `n` on (30_encoding R120). -/
def callsFrom (n : Nat) : Nat := callCodes.countP (n ≤ ·.toNat)

theorem callsFrom_antitone {m n : Nat} (h : m ≤ n) : callsFrom n ≤ callsFrom m := by
  refine List.countP_mono_left fun c _ hc => ?_
  simp only [decide_eq_true_eq] at hc ⊢
  omega

/-- A PHASE code that names a call counts for one. -/
theorem callsFrom_succ {v : BitVec 1} {c : PhaseCode} {d : Instr} (hd : callOf v c = some d) :
    callsFrom c.toNat = callsFrom (c.toNat + 1) + 1 := by
  have key : ∀ (v : BitVec 1) (c : PhaseCode), (callOf v c).isSome = true →
      callsFrom c.toNat = callsFrom (c.toNat + 1) + 1 := by decide
  exact key v c (by rw [hd]; rfl)

/-- The answers that the call in progress still awaits of LIB. -/
def owed (s : State) : Nat :=
  match s.chan with
  | .idle => callsFrom s.seq.phase.toNat
  | .sent _ => callsFrom s.seq.phase.toNat
  | .returned _ => callsFrom (s.seq.phase.toNat + 1)

/-- At least the answers of the micro-ops after the one in PHASE are awaited. -/
theorem callsFrom_le_owed (s : State) : callsFrom (s.seq.phase.toNat + 1) ≤ owed s := by
  unfold owed
  split
  · exact callsFrom_antitone (by omega)
  · exact callsFrom_antitone (by omega)
  · exact le_rfl

theorem owed_le_callsFrom (s : State) : owed s ≤ callsFrom s.seq.phase.toNat := by
  unfold owed
  split
  · exact le_rfl
  · exact le_rfl
  · exact callsFrom_antitone (by omega)

/-- What is left of the micro-op in PHASE: issue, LIB's answer, commit. -/
def stagesLeft : Chan → Nat
  | .idle => 2
  | .sent _ => 1
  | .returned _ => 0

/-- What is left of the call: the micro-ops before DONE, each of three stages. -/
def workLeft (s : State) : Nat := 3 * (0x13 - s.seq.phase.toNat) + stagesLeft s.chan

theorem stagesLeft_le (c : Chan) : stagesLeft c ≤ 2 := by
  cases c with
  | idle => exact le_rfl
  | sent m => exact Nat.le_succ 1
  | returned r => exact Nat.zero_le 2

/-- The call has gone on from `s` to `t`: less is left of it, and no more answers are awaited. -/
structure GoneOn (s t : State) : Prop where
  work : workLeft t < workLeft s
  owed : owed t ≤ owed s
  started : 1 ≤ t.seq.phase.toNat

/-- A later micro-op, and the failure exit, are further on. -/
theorem goneOn_of_phase {s t : State} (hmax : s.seq.phase.toNat ≤ 0x12)
    (ht : s.seq.phase.toNat + 1 ≤ t.seq.phase.toNat) : GoneOn s t := by
  have hstages := stagesLeft_le t.chan
  refine ⟨?_, ?_, by omega⟩
  · simp only [workLeft]
    omega
  · exact (owed_le_callsFrom t).trans ((callsFrom_antitone ht).trans (callsFrom_le_owed s))

/-- With no call sent a micro-op's step takes the call on, and touches neither host nor LIB. -/
theorem goneOn_of_phaseEnd {s t : State} (h : Inv s) (hs : callSent s = false) (hmin : 1 ≤ s.seq.phase.toNat)
    (hmax : s.seq.phase.toNat ≤ 0x12) (ht : PhaseEnd s t) :
    t.host = s.host ∧ t.lib = s.lib ∧ GoneOn s t := by
  cases ht with
  | stays hw =>
    exfalso
    rcases hw with hp | ⟨hcp, hch⟩
    · rw [hp] at hmin
      exact absurd hmin (by decide)
    · obtain ⟨d, -, -, hf⟩ := h.call.on hcp
      cases hchan : s.chan with
      | idle => rw [hchan] at hf; cases d <;> cases hf
      | sent m => exact absurd ((callSent_iff s).2 ⟨m, hcp, hchan⟩) (by simp [hs])
      | returned r => exact hch r hchan
  | sends d m _ hcp hg =>
    have hchan := h.call.off hcp
    refine ⟨rfl, rfl, ?_, ?_, hmin⟩
    · simp [workLeft, hchan, stagesLeft]
    · simp [owed, hchan]
  | fails k => exact ⟨rfl, rfl, goneOn_of_phase hmax (by simpa [Seq.failExit] using by omega)⟩
  | completes q => exact ⟨rfl, rfl, goneOn_of_phase hmax (code_succ (by omega)).ge⟩
  | advances q => exact ⟨rfl, rfl, goneOn_of_phase hmax (code_succ (by omega)).ge⟩
  | offers rsp hp =>
    exfalso
    rcases hp with hp | hp <;> rw [hp] at hmax <;> exact absurd hmax (by decide)

/-! ### Lockstep -/

/-- Two machines alike within a call, LIB's coming draws of RESFAIL the same, and answers enough to come. -/
structure Twins (s u : State) : Prop where
  alike : Alike s u
  inv : Inv s ∧ Inv u
  rst : s.host.rst = false ∧ u.host.rst = false
  ready : owed s ≤ s.lib.ready.count true ∧ owed s ≤ u.lib.ready.count true
  fails : ∃ draws more more', owed s ≤ draws.length ∧ s.lib.fails = draws ++ more ∧ u.lib.fails = draws ++ more'

/-- Both machines go on, to machines alike. -/
def GoOn (s u : State) : Prop := ∃ s' u', Reaches s s' ∧ Reaches u u' ∧ Twins s' u' ∧ GoneOn s s'

theorem Alike.callSent {s u : State} (h : Alike s u) : callSent u = callSent s := by
  rw [h.eq_graft]
  rfl

/-- LIB answers both machines the same. -/
theorem goOn_of_callSent {s u : State} (h : Twins s u) (hmin : 1 ≤ s.seq.phase.toNat) (hs : callSent s = true) :
    GoOn s u := by
  obtain ⟨alike, ⟨hi, hi'⟩, ⟨hrst, hrst'⟩, ⟨hready, hready'⟩, draws, more, more', hdraws, hfails, hfails'⟩ := h
  obtain ⟨d, m, hcall, hd, hm, ha⟩ := call_of_callSent hi hs
  obtain ⟨d', m', hcall', hd', hm', -⟩ := call_of_callSent hi' (alike.callSent.trans hs)
  have hmm : m' = m := by
    have := hm'.2
    rw [alike.chan, hm.2] at this
    cases this
    rfl
  have hdd : d' = d := by
    rw [alike.seq] at hcall'
    exact Option.some.inj (hcall'.symm.trans hcall)
  subst hmm hdd
  obtain ⟨-, r, hr⟩ := libAnswer_of_argsMatch ha s.lib.params
  have hr' : libAnswer u.lib.params d' m' = some r :=
    (libAnswer_congr alike.table alike.decompOor d' m').trans hr
  have howed : owed s = callsFrom (s.seq.phase.toNat + 1) + 1 := by
    rw [owed, hm.2]
    exact callsFrom_succ hcall
  obtain ⟨b, draws, rfl⟩ : ∃ b rest, draws = b :: rest := List.exists_cons_of_length_pos (by omega)
  obtain ⟨rest, hcount, hreach⟩ := reaches_answer hi hrst hm hd ha hr hfails rfl (by omega)
  obtain ⟨rest', hcount', hreach'⟩ := reaches_answer hi' hrst' hm' hd' ha hr' hfails' rfl (by omega)
  have howed' (x : LRet) (l l' : List Bool) : owed (afterAnswer s x l l') = callsFrom (s.seq.phase.toNat + 1) := rfl
  refine ⟨_, _, hreach, hreach', ⟨⟨alike.seq, rfl, alike.table, alike.lmax, alike.decompOor⟩,
    ⟨hreach.inv hi, hreach'.inv hi'⟩, ⟨hrst, hrst'⟩, ⟨?_, ?_⟩, draws, more, more', ?_, rfl, rfl⟩, ?_, ?_, hmin⟩
  · rw [howed']
    simp only [afterAnswer]
    omega
  · rw [howed']
    simp only [afterAnswer]
    omega
  · rw [howed']
    simp only [List.length_cons] at hdraws
    omega
  · simp [workLeft, afterAnswer, hm.2, stagesLeft]
  · rw [howed', howed]
    omega

/-- With no call sent both machines run the micro-op in PHASE. -/
theorem goOn_of_microOp {s u : State} (h : Twins s u) (hmin : 1 ≤ s.seq.phase.toNat)
    (hmax : s.seq.phase.toNat ≤ 0x12) (hs : callSent s = false) : GoOn s u := by
  obtain ⟨alike, ⟨hi, hi'⟩, ⟨hrst, hrst'⟩, ⟨hready, hready'⟩, draws, more, more', hdraws, hfails, hfails'⟩ := h
  obtain ⟨i, hd⟩ := decodePhase_of_inv hi
  obtain ⟨t, hx, hit⟩ := inv_exec_phase hi hd
  have hphase : u.seq.phase = s.seq.phase := by rw [alike.seq]
  have hne : s.seq.phase ≠ 0x00 := fun hp => by
    rw [hp] at hmin
    exact absurd hmin (by decide)
  obtain ⟨w, hx'⟩ := exec_graft u.seq.lcd u.host alike.lmax (isMicroOp_of_phase hd hmin hmax) hx
  rw [← alike.eq_graft] at hx'
  have hstep : step s = .next t := (step_of_phase hrst hs hne hd).trans hx
  have hstep' : step u = .next (graft w u.host u.lib t) :=
    (step_of_phase hrst' (alike.callSent.trans hs) (hphase ▸ hne) (hphase ▸ hd)).trans hx'
  obtain ⟨hhost, hlib, gone⟩ := goneOn_of_phaseEnd hi hs hmin hmax (phaseEnd_exec hd hx)
  refine ⟨t, _, .of_step hstep, .of_step hstep', ⟨?_, ⟨hit, stepKeepsInv _ _ hi' hstep'⟩, ⟨by rw [hhost, hrst], hrst'⟩,
    ⟨?_, gone.owed.trans hready'⟩, draws, more, more', gone.owed.trans hdraws, by rw [hlib, hfails], hfails'⟩, gone⟩
  · exact alike_graft w u.host (by rw [hlib, alike.table]) (by rw [hlib, alike.lmax]) (by rw [hlib, alike.decompOor])
  · rw [hlib]
    exact gone.owed.trans hready

/-- Two machines alike come to DONE or FAIL alike. -/
theorem twins_end {s u : State} (h : Twins s u) (hmin : 1 ≤ s.seq.phase.toNat) :
    ∃ s' u', Reaches s s' ∧ Reaches u u' ∧ Twins s' u' ∧ 0x13 ≤ s'.seq.phase.toNat := by
  induction hn : workLeft s using Nat.strong_induction_on generalizing s u with
  | _ n ih =>
    subst hn
    by_cases hmax : s.seq.phase.toNat ≤ 0x12
    · have hgo : GoOn s u := by
        cases hs : callSent s with
        | true => exact goOn_of_callSent h hmin hs
        | false => exact goOn_of_microOp h hmin hmax hs
      obtain ⟨s', u', hs', hu', h', gone⟩ := hgo
      obtain ⟨s'', u'', hs'', hu'', hend⟩ := ih _ gone.work h' gone.started rfl
      exact ⟨s'', u'', hs'.trans hs'', hu'.trans hu'', hend⟩
    · exact ⟨s, u, .refl s, .refl u, h, by omega⟩

/-! ### The response -/

theorem response_of_end {s : State} (h : Inv s) (hp : 0x13 ≤ s.seq.phase.toNat) : ∃ rsp, response s = some rsp := by
  have key : ∀ c : PhaseCode, 0x13 ≤ c.toNat → c.toNat ≤ 0x14 → c = 0x13 ∨ c = 0x14 := by decide
  rcases key _ hp h.phase with hp | hp
  · obtain ⟨n, payload, -, hr⟩ := successRsp_of_done h hp
    exact ⟨_, response_of_done hp hr⟩
  · exact ⟨_, response_of_fail hp⟩

theorem Alike.response {s u : State} (h : Alike s u) : response u = response s := by
  rw [h.eq_graft]
  exact response_graft _ _ h.lmax

/-! ### The acceptance of the request -/

/-- SEQ after the acceptance of a request, LCD as it was (40 R151). -/
def acceptedSeq (lmax : Nat) (recid curveid : Byte) (digest rhex shex : List Byte) (w : LcdWord) : Seq :=
  { Seq.reset with
    lcd := w, phase := 0x01, recid := some recid, curveid := some curveid
    rlen := some (BitVec.ofNat 8 rhex.length), slen := some (BitVec.ofNat 8 shex.length)
    dlen := some (BitVec.ofNat 16 digest.length)
    mem := { Memory.reset with
      digest := writeCells [] 0 (digest.take (min digest.length lmax))
      rhex := writeCells [] 0 rhex
      shex := writeCells [] 0 shex } }

/-- At IDLE a step accepts the request at the head of the channel. -/
theorem step_accepts {s : State} (h : Inv s) (hrst : s.host.rst = false) (hp : s.seq.phase = 0x00) {q : Request}
    (hq : s.host.reqs.head? = some q) {recid curveid : Byte} {digest rhex shex : List Byte}
    (hd : decodeReq q.bytes = .ok (.recover recid curveid digest rhex shex)) :
    ∃ t, step s = .next t ∧ t.seq = acceptedSeq s.lib.params.lmax recid curveid digest rhex shex s.seq.lcd ∧
      t.chan = .idle ∧ t.host.rst = false ∧ t.lib = s.lib := by
  obtain ⟨rest, hreqs⟩ := List.head?_eq_some_iff.1 hq
  have hs : callSent s = false := by
    by_contra hs
    exact phase_of_callSent h (by simpa using hs) hp
  have hfetch : fetch s = .next (.recover recid curveid digest rhex shex,
      { s with host := { s.host with reqs := rest, follow := q.follow } }) := by
    rw [fetch, hs, if_neg (by decide), if_pos hp, fetchReq, hreqs]
    simp only [hd]
  obtain ⟨t, hx, -⟩ := inv_exec_request (inv_host h { s.host with reqs := rest, follow := q.follow }) hp hd
  have hstep := (step_of_fetch hrst hfetch).trans hx
  have hx : execRecover recid curveid digest rhex shex
    { s with host := { s.host with reqs := rest, follow := q.follow } } = .next t := hx
  rw [execRecover, if_pos hp] at hx
  obtain ⟨-, -, rfl⟩ := accept_ok (run_next hx)
  exact ⟨_, hstep, rfl, rfl, hrst, rfl⟩

/-- Settles O57: both machines accept the request, then go in lockstep to DONE or FAIL, where they hold the same. -/
theorem callPurity : Obligations.CallPurity := by
  unfold Obligations.CallPurity
  intro s u q q' i f more more' hi hi' hrst hrst' hp hp' hq hq' hbytes hd htable hlmax hoor hfails hfails' hready hready'
  obtain ⟨recid, curveid, digest, rhex, shex, rfl, -, -, -⟩ := decodeReq_ok hd
  obtain ⟨s₁, hs, hseq, hchan, hr, hlib⟩ := step_accepts hi hrst hp hq hd
  obtain ⟨u₁, hu, hseq', hchan', hr', hlib'⟩ := step_accepts hi' hrst' hp' hq' ((congrArg decodeReq hbytes).trans hd)
  have howed : owed s₁ = 14 := by
    rw [owed, hchan, hseq]
    rfl
  have hlen : (callCodes.map f).length = 14 := List.length_map ..
  have twins : Twins s₁ u₁ := by
    refine ⟨⟨?_, ?_, ?_, ?_, ?_⟩, ⟨stepKeepsInv _ _ hi hs, stepKeepsInv _ _ hi' hu⟩, ⟨hr, hr'⟩, ⟨?_, ?_⟩,
      callCodes.map f, more, more', by rw [howed, hlen], by rw [hlib, hfails], by rw [hlib', hfails']⟩
    · rw [hseq', hseq, hlmax]
      rfl
    · rw [hchan, hchan']
    · rw [hlib, hlib', htable]
    · rw [hlib, hlib', hlmax]
    · rw [hlib, hlib', hoor]
    · rw [howed, hlib]
      exact hready
    · rw [howed, hlib']
      exact hready'
  obtain ⟨s', u', ⟨k, hk⟩, ⟨l, hl⟩, h', hend⟩ := twins_end twins (by rw [hseq]; exact Nat.le_refl 1)
  obtain ⟨rsp, hrsp⟩ := response_of_end h'.inv.1 hend
  exact ⟨k + 1, l + 1, s', u', rsp, (run_succ_of_next (M := Sys2Proof.core) hs k).trans hk,
    (run_succ_of_next (M := Sys2Proof.core) hu l).trans hl, hrsp, h'.alike.response.trans hrsp⟩

end Sys2Proof.Proofs
end

section
/-! PROOFS. The request record (30_encoding R111, R130): its decoding by the length of its body, and `RequestFields`. -/

namespace Sys2Proof.Proofs

open Sys2Proof Sys2Proof.Machine Sys2Proof.Safety

section Record

variable {recid curveid rlen slen hi lo : Byte} {body : List Byte}

/-- A body of the length the header gives is cut at DLEN and DLEN + RLEN. -/
theorem decodeReq_of_length (h : body.length = be16 hi lo + rlen.toNat + slen.toNat) :
    decodeReq (0x01 :: recid :: curveid :: rlen :: slen :: hi :: lo :: body) =
      .ok (.recover recid curveid (body.take (be16 hi lo)) ((body.drop (be16 hi lo)).take rlen.toNat)
        (body.drop (be16 hi lo + rlen.toNat))) := by
  simp only [decodeReq, if_true, if_pos h]

/-- A body of any other length contradicts the header (93 U8). -/
theorem decodeReq_of_wrong_length (h : body.length ≠ be16 hi lo + rlen.toNat + slen.toNat) :
    decodeReq (0x01 :: recid :: curveid :: rlen :: slen :: hi :: lo :: body) = .error .badLength := by
  simp only [decodeReq, if_true, if_neg h]

end Record

/-- Cutting at `m` and at `m + n` loses no byte. -/
theorem take_append_take_append_drop (body : List Byte) (m n : Nat) :
    body.take m ++ (body.drop m).take n ++ body.drop (m + n) = body := by
  rw [← List.drop_drop, List.append_assoc, List.take_append_drop, List.take_append_drop]

/-- Settles O5: the decoder cuts a body of the right length into its three fields, and takes no other length. -/
theorem requestFields : Obligations.RequestFields := by
  unfold Obligations.RequestFields
  intro recid curveid rlen slen hi lo body
  refine ⟨fun h => ?_, decodeReq_of_wrong_length⟩
  refine ⟨_, _, _, (take_append_take_append_drop body (be16 hi lo) rlen.toNat).symm, ?_, ?_, ?_, decodeReq_of_length h⟩
  all_goals
    simp only [List.length_take, List.length_drop, be16]
    omega

end Sys2Proof.Proofs
end

section
/-! PROOFS. The buffers stay canonical (20_memory R80, R82): each ending of a step, then every instruction, and
`MemoryCanonical` from them, from any state. What writes no buffer leaves `mem` as it was, by computation. -/

namespace Sys2Proof.Proofs

open Sys2Proof Sys2Proof.Machine Sys2Proof.Safety

section Canonical

variable {s t : State} (h : s.seq.mem.wf = true)

include h

theorem canonical_raise (k : ErrKind) (c : PhaseCode) : (raise k c s).seq.mem.wf = true := Seq.failExit_wf h k c

theorem canonical_commitInt {c : PhaseCode} {dst : BReg} {k : ErrKind} {r : LRet}
    (hc : commitInt c dst k s r = .ok t) : t.seq.mem.wf = true := by
  rcases commitInt_ok hc with ⟨v, -, rfl⟩ | ⟨-, rfl⟩ | rfl
  · exact h
  · exact canonical_raise h ..
  · exact canonical_raise h ..

theorem canonical_commitPoint {c : PhaseCode} {dst : PReg} {k : ErrKind} {r : LRet}
    (hc : commitPoint c dst k s r = .ok t) : t.seq.mem.wf = true := by
  rcases commitPoint_ok hc with ⟨q, -, rfl⟩ | ⟨-, rfl⟩ | rfl
  · exact h
  · exact canonical_raise h ..
  · exact canonical_raise h ..

theorem canonical_commitCurve {r : LRet} (hc : commitCurve s r = .ok t) : t.seq.mem.wf = true := by
  rcases commitCurve_ok hc with ⟨p, n, g, l, -, -, rfl⟩ | rfl
  · exact h
  · exact canonical_raise h ..

theorem canonical_commitOrdchk {r : LRet} (hc : commitOrdchk s r = .ok t) : t.seq.mem.wf = true := by
  rcases commitOrdchk_ok hc with ⟨f, -, -, rfl⟩ | rfl | rfl
  · exact h
  · exact canonical_raise h ..
  · exact canonical_raise h ..

theorem canonical_commitEnc {r : LRet} (hc : commitEnc s r = .ok t) : t.seq.mem.wf = true := by
  rcases commitEnc_ok hc with ⟨bytes, l, q, -, -, -, hw, rfl⟩ | rfl
  · have hq : q.mem.wf = true := Seq.memWrite_wf h hw
    exact hq
  · exact canonical_raise h ..

/-- A micro-op with a call keeps the buffers canonical if its commit does: its issue and its waiting write none. -/
theorem canonical_callStep {iss : Except Fault State} {commit : LRet → Except Fault State}
    (he : callStep iss commit s = .next t)
    (hissue : ∀ {u}, iss = .ok u → ∃ d m, gather s d = .ok m ∧ u = sendCall d m s)
    (hcommit : ∀ {r}, commit r = .ok t → t.seq.mem.wf = true) : t.seq.mem.wf = true := by
  rcases callStep_next he with ⟨-, hs⟩ | ⟨-, -, rfl⟩ | ⟨r, -, -, hc⟩
  · obtain ⟨d, m, -, rfl⟩ := hissue hs
    exact h
  · exact h
  · exact hcommit hc

theorem canonical_execVrid (he : execVrid s = .next t) : t.seq.mem.wf = true := by
  obtain ⟨recid, -, ⟨v, -, rfl⟩ | ⟨-, rfl⟩⟩ := execVrid_next he
  · exact h
  · exact canonical_raise h ..

theorem canonical_execStrip (he : execStrip s = .next t) : t.seq.mem.wf = true := by
  obtain ⟨l, bytes, q, -, -, hw, rfl⟩ := execStrip_next he
  have hq : q.mem.wf = true := Seq.memWrite_wf h hw
  exact hq

/-- The response taken empties every buffer, held it changes none (40 R154, R156). -/
theorem canonical_offer (rsp : List Byte) : (offer rsp s).seq.mem.wf = true := by
  rcases offer_cases rsp s with ⟨-, ho⟩ | ⟨-, ho⟩ <;> rw [ho]
  · exact Memory.wf_reset
  · exact h

/-- A request accepted is stored to empty buffers (40 R151). -/
theorem canonical_execRecover {recid curveid : Byte} {digest rhex shex : List Byte}
    (he : execRecover recid curveid digest rhex shex s = .next t) : t.seq.mem.wf = true := by
  unfold execRecover at he
  split at he
  · obtain ⟨-, -, rfl⟩ := accept_ok (run_next he)
    have stored (bytes : List Byte) : rising (writeCells [] 0 bytes) = true := rising_writeCells rfl 0 bytes
    have h1 := Memory.wf_set Memory.wf_reset .digest (stored (digest.take (min digest.length s.lib.params.lmax)))
    exact Memory.wf_set (Memory.wf_set h1 .rhex (stored rhex)) .shex (stored shex)
  · cases he
    exact h

/-- Every instruction keeps the buffers canonical, run from any state. -/
theorem canonical_exec {i : Instr} (he : exec i s = .next t) : t.seq.mem.wf = true := by
  cases i with
  | recover => exact canonical_execRecover h he
  | recover2 => cases he; exact h
  | vrid => exact canonical_execVrid h he
  | curve => exact canonical_callStep h he issue_sends (canonical_commitCurve h)
  | trunc =>
    obtain ⟨d, l, -, -, rfl⟩ := execTrunc_next he
    exact h
  | setx =>
    obtain ⟨r, -, rfl⟩ := execSetx_next he
    exact h
  | parser | parses | eload | inv | neg => exact canonical_callStep h he issue_sends (canonical_commitInt h)
  | decomp => exact canonical_callStep h he issueDecomp_sends (canonical_commitPoint h)
  | ordmul | muls | mulg | add | mulq => exact canonical_callStep h he issue_sends (canonical_commitPoint h)
  | ordchk => exact canonical_callStep h he issue_sends (canonical_commitOrdchk h)
  | enc => exact canonical_callStep h he issue_sends (canonical_commitEnc h)
  | strip => exact canonical_execStrip h he
  | idle => cases he; exact h
  | done =>
    obtain ⟨rsp, -, ho⟩ := bind_ok (run_next he)
    cases ho
    exact canonical_offer h rsp
  | fail => cases he; exact canonical_offer h _
  | lcCurve | lcBnhex | lcBnbin | lcBnneg | lcBninv | lcPdec | lcPmul | lcPadd | lcPinf | lcPenc =>
    obtain ⟨r, rfl⟩ := answer_of_exec rfl he
    exact h

end Canonical

/-- A fetch changes nothing of SEQ. -/
theorem fetch_seq {s : State} {f : Instr × State} (hf : fetch s = .next f) : f.2.seq = s.seq := by
  rcases fetch_next hf with
    ⟨-, -, -, hu⟩ | ⟨-, -, -, hu⟩ | ⟨-, -, -, hu⟩ | ⟨-, -, r, rest, -, -, hu⟩ | ⟨-, -, -, hu⟩ <;> rw [hu]

/-- Settles O47: a step is the reset, which empties the buffers, or a fetch, which leaves them, and an instruction, which
keeps them canonical. -/
theorem memoryCanonical : Obligations.MemoryCanonical := by
  unfold Obligations.MemoryCanonical
  intro s t h hstep
  rcases step_next hstep with ⟨-, rfl⟩ | ⟨-, f, hf, he⟩
  · exact Memory.wf_reset
  · exact canonical_exec (fetch_seq hf ▸ h) he

end Sys2Proof.Proofs
end

section
/-! PROOFS. The digest counts for its left-most L bytes alone (41 R175, 20_memory R84): a recovery reads the digest once, to
the length the curve's parameters give, and `DigestTruncates` from that. -/

namespace Sys2Proof.Proofs

open Sys2Proof Sys2Proof.Machine Sys2Proof.Safety

/-- The length that CURVE's answer gives is that of the table's entry. -/
theorem length_of_wantCurve {P : Params} {f : PhaseCode → Bool} {id : Byte} {c : Curve} {lmax p n l : Nat} {g : Point}
    (hc : findCurve P.table id = some c)
    (hw : wantCurve lmax (drawn f Code.curve (libCurve P id)) = .ok (p, n, g, l)) : l = c.l := by
  unfold drawn at hw
  split at hw
  · cases hw
  · simp only [libCurve, hc, wantCurve, settleAnswer, bind, Except.bind] at hw
    split at hw <;> cases hw
    rfl

/-- Settles O58: the one read of the digest is `digest.take L`, and the first L bytes of the first L bytes are these. -/
theorem digestTruncates : Obligations.DigestTruncates := by
  unfold Obligations.DigestTruncates
  intro P f recid curveid digest rhex shex c hc
  unfold recovered
  cases canonicalId recid with
  | none => rfl
  | some v =>
    cases hw : wantCurve P.lmax (drawn f Code.curve (libCurve P curveid)) with
    | error e => rfl
    | ok params =>
      obtain ⟨p, n, g, l⟩ := params
      obtain rfl := length_of_wantCurve hc hw
      simp only [bind, Except.bind, List.take_take, Nat.min_self]

end Sys2Proof.Proofs
end

section
/-! PROOFS. Decoder and encoder agree (30_encoding R110 to R132): the fields of a descriptor, the register indexes and
immediates, the bytes of a request record; `DecodeOfEncode`, `EncodeOfDecode`, `SpecWordsDecode` and
`ReservedRejected`. -/

namespace Sys2Proof.Proofs

open Sys2Proof Sys2Proof.Machine Sys2Proof.Safety

/-! ### The fields of a descriptor (30_encoding R123) -/

section Fields

variable (op dst a b : BitVec 4)

@[simp] theorem lcdWord_field_b : (lcdWord op dst a b).extractLsb' 0 4 = b := BitVec.extractLsb'_append_eq_right

@[simp] theorem lcdWord_field_a : (lcdWord op dst a b).extractLsb' 4 4 = a :=
  (BitVec.extractLsb'_append_eq_of_le (by decide)).trans BitVec.extractLsb'_append_eq_right

@[simp] theorem lcdWord_field_dst : (lcdWord op dst a b).extractLsb' 8 4 = dst :=
  (BitVec.extractLsb'_append_eq_of_le (by decide)).trans
    ((BitVec.extractLsb'_append_eq_of_le (by decide)).trans BitVec.extractLsb'_append_eq_right)

@[simp] theorem lcdWord_field_op : (lcdWord op dst a b).extractLsb' 12 4 = op :=
  (BitVec.extractLsb'_append_eq_of_le (by decide)).trans
    ((BitVec.extractLsb'_append_eq_of_le (by decide)).trans BitVec.extractLsb'_append_eq_left)

end Fields

/-- A descriptor is made of its four fields. -/
theorem lcdWord_of_fields (w : LcdWord) :
    lcdWord (w.extractLsb' 12 4) (w.extractLsb' 8 4) (w.extractLsb' 4 4) (w.extractLsb' 0 4) = w := by
  rw [lcdWord, BitVec.extractLsb'_append_extractLsb'_eq_extractLsb' (by decide),
    BitVec.extractLsb'_append_extractLsb'_eq_extractLsb' (by decide),
    BitVec.extractLsb'_append_extractLsb'_eq_extractLsb' (by decide)]
  exact BitVec.extractLsb'_eq_self

theorem decodeLcd_lcdWord {op dst a b : BitVec 4} {i : Instr} (h : lcdOperands op dst a b = some i) :
    decodeLcd (lcdWord op dst a b) = .ok i := by
  simp [decodeLcd, h]

/-! ### Register numbers and immediates (30_encoding R124, R129) -/

theorem BReg.ofIndex_eq_some {i : BitVec 4} {r : BReg} : BReg.ofIndex i = some r ↔ i = r.index := by
  revert i
  cases r <;> decide

theorem PReg.ofIndex_eq_some {i : BitVec 4} {r : PReg} : PReg.ofIndex i = some r ↔ i = r.index := by
  revert i
  cases r <;> decide

theorem HexBuf.ofIndex_eq_some {i : BitVec 4} {x : HexBuf} : HexBuf.ofIndex i = some x ↔ i = x.index := by
  revert i
  cases x <;> decide

theorem parityOfField_eq_some {i : BitVec 4} {v : BitVec 1} : parityOfField i = some v ↔ i = parityField v := by
  revert i v
  decide

theorem zeroField_eq_some {i : BitVec 4} {u : Unit} : zeroField i = some u ↔ i = 0 := by
  revert i
  cases u
  decide

/-- The fields that have a meaning are those the encoder writes for it. -/
theorem encode_of_lcdOperands {op dst a b : BitVec 4} {i : Instr} (h : lcdOperands op dst a b = some i) :
    encode i = some (.lcd (lcdWord op dst a b)) := by
  have literal {n : Nat} (h : op.toNat = n) : op = BitVec.ofNat 4 n := by
    rw [← h, BitVec.ofNat_toNat, BitVec.setWidth_eq]
  unfold lcdOperands at h
  split at h
  all_goals rename_i hop
  all_goals simp only [Option.bind_eq_bind, Option.bind_eq_some_iff, Option.some.injEq, reduceCtorEq,
    BReg.ofIndex_eq_some, PReg.ofIndex_eq_some, HexBuf.ofIndex_eq_some, parityOfField_eq_some, zeroField_eq_some] at h
  all_goals rw [literal hop]
  case h_1 => obtain ⟨-, rfl, -, rfl, -, rfl, rfl⟩ := h; rfl
  case h_2 => obtain ⟨d, rfl, x, rfl, -, rfl, rfl⟩ := h; rfl
  case h_3 => obtain ⟨d, rfl, -, rfl, -, rfl, rfl⟩ := h; rfl
  case h_4 => obtain ⟨d, rfl, v, rfl, -, rfl, rfl⟩ := h; rfl
  case h_5 => obtain ⟨d, rfl, v, rfl, m, rfl, rfl⟩ := h; rfl
  case h_6 => obtain ⟨d, rfl, x, rfl, v, rfl, rfl⟩ := h; rfl
  case h_7 => obtain ⟨d, rfl, k, rfl, q, rfl, rfl⟩ := h; rfl
  case h_8 => obtain ⟨d, rfl, p, rfl, q, rfl, rfl⟩ := h; rfl
  case h_9 => obtain ⟨-, rfl, q, rfl, -, rfl, rfl⟩ := h; rfl
  case h_10 => obtain ⟨-, rfl, q, rfl, -, rfl, rfl⟩ := h; rfl

/-- A word that decodes to a library call is the encoder's word of it. -/
theorem encode_of_decodeLcd {w : LcdWord} {i : Instr} (h : decodeLcd w = .ok i) : encode i = some (.lcd w) := by
  unfold decodeLcd at h
  split at h
  · rename_i j hj
    cases h
    rw [encode_of_lcdOperands hj, lcdWord_of_fields]
  · split at h <;> cases h

/-- The encoder's word of a library call decodes to it: its fields are read back one by one. -/
theorem decodeLcd_of_encode {i : Instr} {w : LcdWord} (h : encode i = some (.lcd w)) : decodeLcd w = .ok i := by
  cases i <;> cases h
  all_goals
    exact decodeLcd_lcdWord (by simp [lcdOperands, Option.bind_eq_some_iff, BReg.ofIndex_eq_some, PReg.ofIndex_eq_some,
      HexBuf.ofIndex_eq_some, parityOfField_eq_some, zeroField_eq_some])

/-! ### The request record (30_encoding R111) -/

/-- Two bytes hold a 16-bit length, high byte first (20_memory R88). -/
theorem be16_of_lt {n : Nat} (h : n < 65536) : be16 (BitVec.ofNat 8 (n / 256)) (BitVec.ofNat 8 n) = n := by
  simp only [be16, BitVec.toNat_ofNat]
  omega

theorem be16_high (hi lo : Byte) : BitVec.ofNat 8 (be16 hi lo / 256) = hi := by
  apply BitVec.eq_of_toNat_eq
  simp only [be16, BitVec.toNat_ofNat]
  omega

theorem be16_low (hi lo : Byte) : BitVec.ofNat 8 (be16 hi lo) = lo := by
  apply BitVec.eq_of_toNat_eq
  simp only [be16, BitVec.toNat_ofNat]
  omega

theorem lengthsFit_iff {digest rhex shex : List Byte} :
    lengthsFit digest rhex shex = true ↔ digest.length < 65536 ∧ rhex.length < 256 ∧ shex.length < 256 := by
  simp [lengthsFit, and_assoc]

/-- The record of a request whose strings fit their length fields decodes to the request. -/
theorem decodeReq_reqBytes {recid curveid : Byte} {digest rhex shex : List Byte} (hd : digest.length < 65536)
    (hr : rhex.length < 256) (hs : shex.length < 256) :
    decodeReq (reqBytes recid curveid digest rhex shex) = .ok (.recover recid curveid digest rhex shex) := by
  have byte {n : Nat} (h : n < 256) : (BitVec.ofNat 8 n).toNat = n := by
    rw [BitVec.toNat_ofNat, Nat.mod_eq_of_lt h]
  have key := decodeReq_of_length (recid := recid) (curveid := curveid) (rlen := BitVec.ofNat 8 rhex.length)
    (slen := BitVec.ofNat 8 shex.length) (hi := BitVec.ofNat 8 (digest.length / 256))
    (lo := BitVec.ofNat 8 digest.length) (body := digest ++ rhex ++ shex)
    (by simp [be16_of_lt hd, byte hr, byte hs, Nat.add_assoc])
  simpa [reqBytes, be16_of_lt hd, byte hr, List.append_assoc] using key

theorem ofNat_toNat_byte (x : Byte) : BitVec.ofNat 8 x.toNat = x := by
  rw [BitVec.ofNat_toNat, BitVec.setWidth_eq]

/-- The encoder joins again the fields that the decoder cuts a body of the right length into. -/
theorem reqBytes_of_length {recid curveid rlen slen hi lo : Byte} {body : List Byte}
    (h : body.length = be16 hi lo + rlen.toNat + slen.toNat) :
    reqBytes recid curveid (body.take (be16 hi lo)) ((body.drop (be16 hi lo)).take rlen.toNat)
        (body.drop (be16 hi lo + rlen.toNat)) =
      0x01 :: recid :: curveid :: rlen :: slen :: hi :: lo :: body := by
  have hdigest : (body.take (be16 hi lo)).length = be16 hi lo := by rw [List.length_take]; omega
  have hrhex : ((body.drop (be16 hi lo)).take rlen.toNat).length = rlen.toNat := by
    rw [List.length_take, List.length_drop]
    omega
  have hshex : (body.drop (be16 hi lo + rlen.toNat)).length = slen.toNat := by rw [List.length_drop]; omega
  rw [reqBytes, hdigest, hrhex, hshex, be16_high, be16_low, ofNat_toNat_byte, ofNat_toNat_byte, List.append_assoc,
    List.append_assoc, ← List.append_assoc (body.take _), take_append_take_append_drop]
  rfl

/-- A record that decodes to an instruction is the record the encoder gives it. -/
theorem encode_of_decodeReq {bytes : List Byte} {i : Instr} (h : decodeReq bytes = .ok i) :
    encode i = some (.req bytes) := by
  unfold decodeReq at h
  split at h
  case h_1 cmd recid curveid rlen slen hi lo body =>
    split at h
    · rename_i hcmd
      subst hcmd
      split at h
      · rename_i hlen
        cases h
        rw [encode, reqBytes_of_length hlen]
      · cases h
    · cases h
  case h_2 => split at h <;> cases h
  case h_3 => cases h

/-! ### The obligations -/

/-- Only a request can be ill-formed (30_encoding R111). -/
theorem wf_of_format {i : Instr} (h : i.format = .uop ∨ i.format = .lcd) : i.wf = true := by
  cases i with
  | recover => rcases h with h | h <;> cases h
  | recover2 => rcases h with h | h <;> cases h
  | _ => rfl

/-- Settles O1: each of the three decoders reads back what the encoder wrote. -/
theorem decodeOfEncode : Obligations.DecodeOfEncode := by
  unfold Obligations.DecodeOfEncode
  intro i e hwf he
  cases e with
  | uop c => exact decodePhase_of_encode he
  | lcd w => exact decodeLcd_of_encode he
  | req bytes =>
    cases i with
    | recover recid curveid digest rhex shex =>
      cases he
      obtain ⟨hd, hr, hs⟩ := lengthsFit_iff.1 hwf
      exact decodeReq_reqBytes hd hr hs
    | _ => cases he

/-- Settles O2: each of the three encoders writes what the decoder has read. -/
theorem encodeOfDecode : Obligations.EncodeOfDecode := by
  unfold Obligations.EncodeOfDecode
  intro e i h
  cases e with
  | uop c =>
    have he := decodePhase_ok h
    refine ⟨he, wf_of_format (.inl ?_)⟩
    cases i <;> cases he <;> rfl
  | lcd w => exact ⟨encode_of_decodeLcd h, wf_of_format (.inr (format_of_decodeLcd h))⟩
  | req bytes =>
    obtain ⟨recid, curveid, digest, rhex, shex, rfl, hlen⟩ := decodeReq_ok h
    exact ⟨encode_of_decodeReq h, lengthsFit_iff.2 hlen⟩

/-- Settles O3: the decoder evaluated on each word. -/
theorem specWordsDecode : Obligations.SpecWordsDecode :=
  ⟨rfl, rfl, rfl, rfl, rfl, rfl, rfl, rfl, rfl, rfl⟩

/-- A code from 0x15 on is reserved (30_encoding R122). -/
theorem decodePhase_reserved {c : PhaseCode} (h : 0x15 ≤ c.toNat) : decodePhase c = .error (.reservedPhase c) := by
  have key : ∀ c : PhaseCode, 0x15 ≤ c.toNat → decodePhase c = .error (.reservedPhase c) := by decide
  exact key c h

/-- No fields give a meaning to an operation that is reserved (30_encoding R127). -/
theorem lcdOperands_reserved {op : BitVec 4} (h : lcdOpDefined op = false) (dst a b : BitVec 4) :
    lcdOperands op dst a b = none := by
  unfold lcdOperands
  split
  case h_11 => rfl
  all_goals rename_i hop; simp [lcdOpDefined, hop] at h

theorem decodeLcd_reserved {w : LcdWord} (h : lcdOpDefined (w.extractLsb' 12 4) = false) :
    decodeLcd w = .error (.reservedOp w) := by
  rw [decodeLcd, lcdOperands_reserved h]
  simp [h]

theorem decodeReq_reserved {cmd : Byte} (h : cmd ≠ 0x01) (rest : List Byte) :
    decodeReq (cmd :: rest) = .error (.reservedCmd cmd) := by
  unfold decodeReq
  split
  case h_1 heq => cases heq; rw [if_neg h]
  case h_2 heq => cases heq; rw [if_neg h]
  case h_3 heq => cases heq

/-- Settles O4: reserved PHASE codes, operations and commands, each rejected by name. -/
theorem reservedRejected : Obligations.ReservedRejected := by
  unfold Obligations.ReservedRejected
  refine ⟨fun c => decodePhase_reserved, fun w h => decodeLcd_reserved ?_, fun cmd rest h => decodeReq_reserved h rest⟩
  have hop : (w.extractLsb' 12 4).toNat = w.toNat / 4096 := by
    rw [BitVec.extractLsb'_toNat, Nat.shiftRight_eq_div_pow]
    omega
  rw [lcdOpDefined, hop, decide_eq_false_iff_not]
  omega

end Sys2Proof.Proofs
end

section
/-! PROOFS. What a step fetches and where it stops (30_encoding R120 to R127), the reset input (70 R300), the host
channels (40 R150 to R157); `StepRunsDecoded`, `StepStops`, `ResetInputAbandons`, `RequestsWait`, `ResponseTaken` and
`MicroOpWaits`. -/

namespace Sys2Proof.Proofs

open Sys2Proof Sys2Proof.Machine Sys2Proof.Safety

/-! ### The fetch -/

section Fetch

variable {s : State}

theorem callSent_of_sent {m : LMsg} (h : sent s m) : callSent s = true := (callSent_iff s).2 ⟨m, h⟩

theorem callSent_of_not_sent (h : ¬ ∃ m, sent s m) : callSent s = false :=
  Bool.eq_false_iff.2 fun hs => h ((callSent_iff s).1 hs)

/-- With a call sent and LIB answering, a step fetches LCD (log 22). -/
theorem fetch_of_ready {l : LibSide} (hs : callSent s = true) (hd : drawReady s.lib = (true, l)) :
    fetch s = fetchLcd { s with lib := l } := by
  rw [fetch, if_pos hs, hd, if_pos rfl]

/-- With a call sent and LIB not answering yet, a step fetches PHASE. -/
theorem fetch_of_not_ready {l : LibSide} (hs : callSent s = true) (hd : drawReady s.lib = (false, l)) :
    fetch s = fetchPhase { s with lib := l } := by
  rw [fetch, if_pos hs, hd, if_neg (by simp)]

/-- With no call sent a step in a call fetches PHASE. -/
theorem fetch_of_busy (hs : callSent s = false) (hp : s.seq.phase ≠ 0x00) : fetch s = fetchPhase s := by
  rw [fetch, hs, if_neg (by decide), if_neg hp]

/-- With no call sent a step at IDLE fetches the request channel. -/
theorem fetch_of_idle (hs : callSent s = false) (hp : s.seq.phase = 0x00) : fetch s = fetchReq s := by
  rw [fetch, hs, if_neg (by decide), if_pos hp]

theorem fetchReq_of_nil (h : s.host.reqs = []) : fetchReq s = .next (.idle, s) := by rw [fetchReq, h]

theorem fetchReq_of_cons {r : Request} {rest : List Request} {i : Instr} (h : s.host.reqs = r :: rest)
    (hd : decodeReq r.bytes = .ok i) :
    fetchReq s = .next (i, { s with host := { s.host with reqs := rest, follow := r.follow } }) := by
  rw [fetchReq, h]
  simp only [hd]

theorem fetchReq_reservedCmd {r : Request} {rest : List Request} {cmd : Byte} (h : s.host.reqs = r :: rest)
    (hd : decodeReq r.bytes = .error (.reservedCmd cmd)) : fetchReq s = .refused (.reservedCmd cmd) := by
  rw [fetchReq, h]
  simp only [hd]

theorem fetchReq_badLength {r : Request} {rest : List Request} (h : s.host.reqs = r :: rest)
    (hd : decodeReq r.bytes = .error .badLength) : fetchReq s = .refused .badLength := by
  rw [fetchReq, h]
  simp only [hd]

theorem fetchPhase_reserved (h : 0x15 ≤ s.seq.phase.toNat) : fetchPhase s = .fault (.reservedPhase s.seq.phase) := by
  rw [fetchPhase, decodePhase_reserved h]

theorem fetchLcd_reserved (h : ∀ i, decodeLcd s.seq.lcd ≠ .ok i) : fetchLcd s = .fault (.reservedLcd s.seq.lcd) := by
  unfold fetchLcd
  split
  · rename_i i hi
    exact absurd hi (h i)
  · rfl

theorem step_of_fetch_fault {f : Fault} (hrst : s.host.rst = false) (hf : fetch s = .fault f) : step s = .fault f := by
  simp [step, hrst, hf]

theorem step_of_fetch_refused {r : Refusal} (hrst : s.host.rst = false) (hf : fetch s = .refused r) :
    step s = .refused r := by
  simp [step, hrst, hf]

end Fetch

/-- Settles O6: the three places of the fetch, each with what decodes there. -/
theorem stepRunsDecoded : Obligations.StepRunsDecoded := by
  unfold Obligations.StepRunsDecoded
  refine ⟨fun s m l i hrst hs hd hi => ?_, fun s m l i hrst hs hd hi => ?_, fun s i hrst hs hp hi => ?_,
    fun s r rest i hrst hs hp hr hi => ?_, fun s hrst hs hp hr => ?_⟩
  · exact step_of_fetch (f := (i, _)) hrst
      ((fetch_of_ready (callSent_of_sent hs) hd).trans (fetchLcd_of (s := { s with lib := l }) hi))
  · exact step_of_fetch (f := (i, _)) hrst
      ((fetch_of_not_ready (callSent_of_sent hs) hd).trans (fetchPhase_of (s := { s with lib := l }) hi))
  · exact step_of_phase hrst (callSent_of_not_sent hs) hp hi
  · exact step_of_fetch (f := (i, _)) hrst ((fetch_of_idle (callSent_of_not_sent hs) hp).trans (fetchReq_of_cons hr hi))
  · exact step_of_fetch (f := (.idle, s)) hrst
      ((fetch_of_idle (callSent_of_not_sent hs) hp).trans (fetchReq_of_nil hr))

/-- A reserved PHASE code is fetched, and faults, unless LIB has a call to answer and answers it. -/
theorem fetch_reservedPhase {s : State} (hs : (∃ m, sent s m) → (drawReady s.lib).1 = false)
    (hp : 0x15 ≤ s.seq.phase.toNat) : fetch s = .fault (.reservedPhase s.seq.phase) := by
  by_cases hm : ∃ m, sent s m
  · have hd : drawReady s.lib = (false, (drawReady s.lib).2) := by rw [← hs hm]
    exact (fetch_of_not_ready ((callSent_iff s).2 hm) hd).trans (fetchPhase_reserved hp)
  · exact (fetch_of_busy (callSent_of_not_sent hm) (ne_idle (by omega))).trans (fetchPhase_reserved hp)

/-- Settles O7: what each place of the fetch answers where nothing decodes there. -/
theorem stepStops : Obligations.StepStops := by
  unfold Obligations.StepStops
  refine ⟨fun s hrst hs hp => ?_, fun s cmd bytes r rest hrst hs hp hr hb hc => ?_,
    fun s r rest hrst hs hp hr hd => ?_, fun s m hrst hs hd hn => ?_⟩
  · exact step_of_fetch_fault hrst (fetch_reservedPhase hs hp)
  · have hd : decodeReq r.bytes = .error (.reservedCmd cmd) := hb ▸ decodeReq_reserved hc bytes
    exact step_of_fetch_refused hrst
      ((fetch_of_idle (callSent_of_not_sent hs) hp).trans (fetchReq_reservedCmd hr hd))
  · exact step_of_fetch_refused hrst
      ((fetch_of_idle (callSent_of_not_sent hs) hp).trans (fetchReq_badLength hr hd))
  · have hd : drawReady s.lib = (true, (drawReady s.lib).2) := by rw [← hd]
    exact step_of_fetch_fault hrst ((fetch_of_ready (callSent_of_sent hs) hd).trans (fetchLcd_reserved hn))

/-- Settles O8: the reset input comes before every fetch. -/
theorem resetInputAbandons : Obligations.ResetInputAbandons := by
  unfold Obligations.ResetInputAbandons
  intro s hrst
  rw [step, if_pos hrst, resetNow]

/-! ### The host channels (40 R150 to R157) -/

/-- Settles O11: presenting a record touches the request channel alone. -/
theorem requestsWait : Obligations.RequestsWait := by
  unfold Obligations.RequestsWait
  refine ⟨fun s recid curveid digest rhex shex hp => ?_, fun s curveid digest rhex shex => rfl⟩
  exact if_neg hp

/-- At DONE the response is the status, RLENB and the bytes of RESULT (40 R154). -/
theorem successRsp_of {s : State} {n : Byte} {payload : List Byte} (hn : s.seq.rlenb = some n)
    (hx : readCells s.seq.mem.result 0 n.toNat = some payload) :
    successRsp s = .ok (0x00 :: 0x00 :: n :: payload) := by
  have hread := Seq.memRead_of (q := s.seq) (lmax := s.lib.params.lmax) (b := .result) (validLen_result hn)
    (i := 0) (n := n.toNat) (by omega) hx
  rw [successRsp, bind_of_ok (must_of hn), bind_of_ok hread]
  rfl

/-- A response that is offered ends the call or is held, as the host's draw says (40 R154, R156). -/
theorem offer_of_drawTake {s : State} {taken : Bool} {h : HostSide} (hd : drawTake s.host = (taken, h))
    (rsp : List Byte) : offer rsp s = if taken then ended rsp h s else { s with host := h } := by
  rw [offer, hd]
  rfl

/-- Settles O13: DONE and FAIL offer their records, and the host's draw decides. -/
theorem responseTaken : Obligations.ResponseTaken := by
  unfold Obligations.ResponseTaken
  refine ⟨fun s n payload taken h hn hx hd => ?_, fun s taken h hd => ?_⟩
  · have hr : exec .done s = .next (offer (0x00 :: 0x00 :: n :: payload) s) :=
      congrArg run (bind_of_ok (successRsp_of hn hx) _)
    rw [hr, offer_of_drawTake hd]
  · exact congrArg Host.Outcome.next (offer_of_drawTake hd _)

/-! ### Waiting (30_encoding R125, 40 R159) -/

/-- In a state of the invariant a step on a draw on which LIB does not answer uses up the draw and changes nothing
else. -/
theorem step_of_withheld {s : State} {m : LMsg} {rest : List Bool} (h : Inv s) (hrst : s.host.rst = false)
    (hs : sent s m) (hready : s.lib.ready = false :: rest) :
    step s = .next { s with lib := { s.lib with ready := rest } } := by
  have hcs := callSent_of_sent hs
  obtain ⟨i, hi⟩ := decodePhase_of_inv h
  obtain ⟨d, -, -, hd, -, -⟩ := call_of_callSent h hcs
  rw [step_of_callSent hrst hcs hready hi hd, if_neg (by decide)]
  exact exec_waits (exec_of_callSent h hcs hi).1 hs

/-- For as long as LIB withholds its answer, only its draws go by. -/
theorem run_of_withheld {k : Nat} {s : State} {m : LMsg} {more : List Bool} (h : Inv s) (hrst : s.host.rst = false)
    (hs : sent s m) (hready : s.lib.ready = List.replicate k false ++ more) :
    Sys2Proof.core.run k s = .next { s with lib := { s.lib with ready := more } } := by
  induction k generalizing s with
  | zero =>
    obtain rfl : s.lib.ready = more := hready
    rfl
  | succ k ih =>
    have hstep := step_of_withheld h hrst hs hready
    exact (run_succ_of_next (M := Sys2Proof.core) hstep k).trans (ih (stepKeepsInv _ _ h hstep) hrst hs rfl)

/-- Settles O29: a micro-op with a call waits while it is sent, and each withheld answer is one step of waiting. -/
theorem microOpWaits : Obligations.MicroOpWaits := by
  unfold Obligations.MicroOpWaits
  exact ⟨fun i s m => exec_waits, fun k s m more => run_of_withheld⟩

end Sys2Proof.Proofs
end

section
/-! PROOFS. The hexadecimal view of a result (30_encoding R116): its characters are those of the nibbles of the bytes,
high nibble first, and as digits these write the bytes' big-endian integer; `HexView`. -/

namespace Sys2Proof.Proofs

open Sys2Proof Sys2Proof.Machine Sys2Proof.Safety

/-! ### Digits of a number in a base -/

theorem positional_cons (base d : Nat) (ds : List Nat) :
    positional base (d :: ds) = d * base ^ ds.length + positional base ds := by
  rw [positional, List.reverse_cons, Nat.ofDigits_append, Nat.ofDigits_singleton, List.length_reverse, positional]
  ring

/-- The nibbles of a byte string, high nibble first. -/
def nibbles : List Byte → List Nat
  | [] => []
  | x :: rest => x.toNat / 16 :: x.toNat % 16 :: nibbles rest

theorem nibbles_length (bytes : List Byte) : (nibbles bytes).length = 2 * bytes.length := by
  induction bytes with
  | nil => rfl
  | cons x rest ih =>
    simp only [nibbles, List.length_cons, ih]
    omega

theorem nibbles_lt (bytes : List Byte) : ∀ d ∈ nibbles bytes, d < 16 := by
  induction bytes with
  | nil => exact fun d hd => nomatch hd
  | cons x rest ih =>
    have hx : x.toNat < 256 := x.isLt
    simp only [nibbles, List.mem_cons, forall_eq_or_imp]
    exact ⟨by omega, by omega, ih⟩

/-- As digits in base 16 the nibbles write what the bytes write in base 256. -/
theorem positional_nibbles (bytes : List Byte) :
    positional 16 (nibbles bytes) = positional 256 (bytes.map BitVec.toNat) := by
  induction bytes with
  | nil => rfl
  | cons x rest ih =>
    have hpow : 16 ^ (nibbles rest).length = 256 ^ rest.length := by
      rw [nibbles_length, pow_mul]
      norm_num
    calc positional 16 (nibbles (x :: rest))
        = x.toNat / 16 * (16 ^ (nibbles rest).length * 16) +
            (x.toNat % 16 * 16 ^ (nibbles rest).length + positional 16 (nibbles rest)) := by
          rw [nibbles, positional_cons, positional_cons, List.length_cons, pow_succ]
      _ = (16 * (x.toNat / 16) + x.toNat % 16) * 256 ^ rest.length + positional 16 (nibbles rest) := by
          rw [hpow]
          ring
      _ = positional 256 ((x :: rest).map BitVec.toNat) := by
          rw [Nat.div_add_mod, ih, List.map_cons, positional_cons, List.length_map]

/-! ### The characters -/

/-- The view writes the nibbles. -/
theorem hexView_eq (c : HexCase) (bytes : List Byte) : hexView c bytes = (nibbles bytes).map (hexChar c) := by
  induction bytes with
  | nil => rfl
  | cons x rest ih => rw [hexView, ih]; rfl

theorem digitOf_hexChar (c : HexCase) {d : Nat} (h : d < 16) : digitOf (hexChar c d) = some d := by
  have key : ∀ d < 16, digitOf (hexChar c d) = some d := by cases c <;> decide
  exact key d h

/-- A character of the view is a decimal digit, or a letter of the case asked for. -/
theorem hexChar_range (c : HexCase) {d : Nat} (h : d < 16) :
    (0x30 ≤ (hexChar c d).toNat ∧ (hexChar c d).toNat ≤ 0x39) ∨
      (c = .lower ∧ 0x61 ≤ (hexChar c d).toNat ∧ (hexChar c d).toNat ≤ 0x66) ∨
      (c = .upper ∧ 0x41 ≤ (hexChar c d).toNat ∧ (hexChar c d).toNat ≤ 0x46) := by
  revert d
  cases c <;> decide

/-! ### The view of RESULT -/

theorem resultView_of {s : State} {n : Byte} {bytes : List Byte} (hn : s.seq.rlenb = some n)
    (hx : readCells s.seq.mem.result 0 n.toNat = some bytes) :
    resultView s = .ok (hexView s.lib.params.hexcase bytes) := by
  have hread := Seq.memRead_of (q := s.seq) (lmax := s.lib.params.lmax) (b := .result) (validLen_result hn)
    (i := 0) (n := n.toNat) (by omega) hx
  rw [resultView, bind_of_ok (must_of hn), bind_of_ok hread]

/-- Settles O60: the view writes the nibbles of RESULT, and these write its integer. -/
theorem hexView : Obligations.HexView := by
  unfold Obligations.HexView
  intro s n bytes hn hx
  obtain ⟨hlen, -⟩ := (readCells_eq_some _ _ _ _).1 hx
  refine ⟨_, nibbles bytes, resultView_of hn hx, ?_, ?_, ?_, positional_nibbles bytes⟩
  · rw [hexView_eq, List.length_map, nibbles_length, hlen]
  · rw [hexView_eq]
    intro x hx
    obtain ⟨d, hd, rfl⟩ := List.mem_map.1 hx
    exact hexChar_range _ (nibbles_lt bytes d hd)
  · rw [hexView_eq, List.map_map]
    exact List.map_congr_left fun d hd => digitOf_hexChar _ (nibbles_lt bytes d hd)

end Sys2Proof.Proofs
end

section
/-! PROOFS. How a machine follows a reference machine through a call: the two agree on SEQ's registers, LCD aside, and
on the call in flight, and the reference is a state written out. One lemma for each stage of a micro-op (issue or
completion, LIB's answer, the end of the call), with the number of steps; what a commit does, as the claims' functions
want it. -/

namespace Sys2Proof.Proofs

open Sys2Proof Sys2Proof.Machine Sys2Proof.Safety

/-! ### Runs with a bound -/

theorem run_add {M : Host.Core} {k l : Nat} {s t : M.State} (h : M.run k s = .next t) :
    M.run (k + l) s = M.run l t := by
  induction k generalizing s with
  | zero => cases h; rw [Nat.zero_add]
  | succ k ih =>
    obtain ⟨u, hu, hk⟩ := run_succ_next h
    rw [Nat.succ_add, run_succ_of_next hu, ih hk]

/-- `s` comes to `t` within `n` steps and one for each of LIB's draws that goes by. -/
def ReachesWithin (n : Nat) (s t : State) : Prop :=
  ∃ k, k + t.lib.ready.length ≤ n + s.lib.ready.length ∧ Sys2Proof.core.run k s = .next t

theorem ReachesWithin.refl (n : Nat) (s : State) : ReachesWithin n s s := ⟨0, by omega, rfl⟩

theorem ReachesWithin.of_step {s t : State} (h : step s = .next t) (hl : t.lib = s.lib) : ReachesWithin 1 s t :=
  ⟨1, by rw [hl], run_succ_of_next (M := Sys2Proof.core) h 0⟩

theorem ReachesWithin.trans {m n : Nat} {s t u : State} (h : ReachesWithin m s t) (h' : ReachesWithin n t u) :
    ReachesWithin (m + n) s u := by
  obtain ⟨k, hk, hr⟩ := h
  obtain ⟨l, hl, hr'⟩ := h'
  exact ⟨k + l, by omega, (run_add (M := Sys2Proof.core) hr).trans hr'⟩

theorem ReachesWithin.inv {n : Nat} {s t : State} (h : ReachesWithin n s t) (hs : Inv s) : Inv t := by
  obtain ⟨k, -, hr⟩ := h
  exact Reaches.inv ⟨k, hr⟩ hs

/-- A call that is sent is answered at the first draw that says so, and the steps are the draws that go by (40 R159). -/
theorem reachesWithin_answer {s : State} (h : Inv s) (hrst : s.host.rst = false) {d : Instr} {m : LMsg} {r : LRet}
    (hs : sent s m) (hd : decodeLcd s.seq.lcd = .ok d) (hm : argsMatch d m = true)
    (hr : libAnswer s.lib.params d m = some r) {b : Bool} {fails : List Bool} (hfails : s.lib.fails = b :: fails)
    (hcount : 1 ≤ s.lib.ready.count true) :
    ∃ rest, s.lib.ready.count true = rest.count true + 1 ∧
      ReachesWithin 0 s (afterAnswer s (if b then .resfail else r) rest fails) := by
  obtain ⟨withheld, rest, hready, hnot⟩ := List.eq_append_cons_of_mem (List.count_pos_iff.1 hcount)
  have hfalse : withheld = List.replicate withheld.length false :=
    List.eq_replicate_iff.2 ⟨rfl, fun x hx => Bool.eq_false_iff.2 fun hxt => hnot (hxt ▸ hx)⟩
  have hwait := run_of_withheld h hrst hs (more := true :: rest) (by rw [hready, ← hfalse])
  have hdrawn : Inv { s with lib := { s.lib with ready := true :: rest } } := inv_draw h _ rfl
  obtain ⟨i, hi⟩ := decodePhase_of_inv h
  have hstep := step_of_callSent (s := { s with lib := { s.lib with ready := true :: rest } }) hrst
    (callSent_of_sent hs) rfl hi hd
  have hserve := serve_of (s := { s with lib := { s.lib with ready := rest } }) hs.2 hr
  rw [if_pos rfl, exec_eq_serve (libAnswer_of_argsMatch hm s.lib.params).1, hserve, answer,
    drawFail_scripted (l := { s.lib with ready := rest }) hfails] at hstep
  refine ⟨rest, ?_, withheld.length + 1, ?_,
    (run_add (M := Sys2Proof.core) hwait).trans (run_succ_of_next (M := Sys2Proof.core) hstep 0)⟩
  · rw [hready, List.count_append, List.count_eq_zero_of_not_mem hnot, List.count_cons_self]
    omega
  · simp only [afterAnswer, hready, List.length_append, List.length_cons]
    omega

/-! ### Following a reference machine -/

/-- `s` is as the reference `ref` in all that a call's result depends on; of LIB's draws of RESFAIL the `draws` come
before the `more`, and as many answers are to come. -/
structure Follows (more draws : List Bool) (ref s : State) : Prop where
  alike : Alike ref s
  params : s.lib.params = ref.lib.params
  inv : Inv s
  rst : s.host.rst = false
  fails : s.lib.fails = draws ++ more
  ready : draws.length ≤ s.lib.ready.count true

/-- Every machine that follows `ref` comes, within `n` steps and one for each of LIB's draws, to the response to `x`;
where `x` is a success, with the draws of RESFAIL up to `more` made. -/
def Delivers (more : List Bool) (n : Nat) (ref : State) (draws : List Bool) (x : Except Failure (List Byte)) : Prop :=
  ∀ s, Follows more draws ref s → ∃ t, ReachesWithin n s t ∧ response t = some (responseOf x) ∧
    ∀ payload, x = .ok payload → t.lib.fails = more

section Stages

variable {more draws : List Bool} {n : Nat} {ref ref' : State} {x : Except Failure (List Byte)}

/-- The response is there. -/
theorem delivers_response (hr : response ref = some (responseOf x)) (hx : ∀ payload, x = .ok payload → draws = []) :
    Delivers more n ref draws x := by
  intro s h
  refine ⟨s, .refl n s, h.alike.response.trans hr, fun payload hp => ?_⟩
  rw [h.fails, hx payload hp, List.nil_append]

/-- SEQ's step: the micro-op in PHASE, where no call is sent. -/
theorem delivers_step {i : Instr} {c : PhaseCode} (hi : isMicroOp i = true) (hc : encode i = some (.uop c))
    (hp : ref.seq.phase = c) (hs : callSent ref = false) (hx : exec i ref = .next ref') (hlib : ref'.lib = ref.lib)
    (h : Delivers more n ref' draws x) : Delivers more (n + 1) ref draws x := by
  intro s hf
  have hphase : s.seq.phase = c := by rw [hf.alike.seq, ← hp]
  have hne : s.seq.phase ≠ 0x00 := hphase ▸ ne_idle (microOp_code hi hc).1
  obtain ⟨w, hx'⟩ := exec_graft s.seq.lcd s.host hf.alike.lmax hi hx
  rw [← hf.alike.eq_graft] at hx'
  have hstep : step s = .next (graft w s.host s.lib ref') :=
    (step_of_phase hf.rst (hf.alike.callSent.trans hs) hne (hphase ▸ decodePhase_of_encode hc)).trans hx'
  have hparams : s.lib.params = ref'.lib.params := by rw [hlib, hf.params]
  obtain ⟨t, ht, hrsp⟩ := h _ ⟨alike_graft w s.host (by rw [hparams]) (by rw [hparams]) (by rw [hparams]), hparams,
    stepKeepsInv _ _ hf.inv hstep, hf.rst, hf.fails, hf.ready⟩
  exact ⟨t, by simpa [Nat.add_comm] using (ReachesWithin.of_step hstep rfl).trans ht, hrsp⟩

/-- LIB's answer to the call in flight: the value its arguments determine, or RESFAIL where the draw `b` says so. -/
theorem delivers_answer {d : Instr} {m : LMsg} {r : LRet} {f : PhaseCode → Bool} {c : PhaseCode} (hs : sent ref m)
    (hcall : callOf (ref.seq.v.getD 0) ref.seq.phase = some d) (hr : libAnswer ref.lib.params d m = some r)
    (h : Delivers more n { ref with chan := .returned (drawn f c r) } draws x) :
    Delivers more n ref (f c :: draws) x := by
  intro s hf
  have hcs : callSent s = true := hf.alike.callSent.trans (callSent_of_sent hs)
  obtain ⟨d', m', hcall', hd, hm, ha⟩ := call_of_callSent hf.inv hcs
  obtain rfl : d' = d := by
    rw [hf.alike.seq] at hcall'
    exact Option.some.inj (hcall'.symm.trans hcall)
  obtain rfl : m' = m := by
    have hch := hm.2.symm.trans (hf.alike.chan.trans hs.2)
    cases hch
    rfl
  have hready := hf.ready
  rw [List.length_cons] at hready
  obtain ⟨rest, hcount, hreach⟩ := reachesWithin_answer hf.inv hf.rst hm hd ha (by rw [hf.params, hr])
    (fails := draws ++ more) hf.fails (by omega)
  obtain ⟨t, ht, hrsp⟩ := h (afterAnswer s (drawn f c r) rest (draws ++ more))
    ⟨⟨hf.alike.seq, rfl, hf.alike.table, hf.alike.lmax, hf.alike.decompOor⟩, hf.params, hreach.inv hf.inv, hf.rst, rfl,
      by simp only [afterAnswer]; omega⟩
  exact ⟨t, by simpa using hreach.trans ht, hrsp⟩

/-- What is in flight is of the call that PHASE names, in every machine that follows. -/
theorem delivers_of_inFlight {d : Instr} (hcp : ref.seq.callpend = true)
    (hcall : callOf (ref.seq.v.getD 0) ref.seq.phase = some d)
    (h : inFlight d ref.chan = true → Delivers more n ref draws x) : Delivers more n ref draws x := by
  intro s hf
  obtain ⟨d', hcall', -, hfl⟩ := hf.inv.call.on (by rw [hf.alike.seq]; exact hcp)
  obtain rfl : d' = d := by
    rw [hf.alike.seq] at hcall'
    exact Option.some.inj (hcall'.symm.trans hcall)
  exact h (hf.alike.chan ▸ hfl) s hf

/-- References that are alike are followed alike. -/
theorem delivers_of_alike (ha : Alike ref' ref) (hp : ref.lib.params = ref'.lib.params)
    (h : Delivers more n ref' draws x) : Delivers more n ref draws x := by
  intro s hf
  refine h s ⟨⟨?_, hf.alike.chan.trans ha.chan, hf.alike.table.trans ha.table, hf.alike.lmax.trans ha.lmax,
    hf.alike.decompOor.trans ha.decompOor⟩, hf.params.trans hp, hf.inv, hf.rst, hf.fails, hf.ready⟩
  rw [hf.alike.seq, ha.seq]

/-- A failure exit ends in the response that names it (40 R154, 60 R280). -/
theorem delivers_raise (k : ErrKind) (c : PhaseCode) : Delivers more n (raise k c ref) draws (.error (k, c)) :=
  delivers_response (response_of_fail rfl) fun _ hp => nomatch hp

end Stages

/-! ### Commits -/

/-- On every return of the call `d`, the commit in the state `u` of the micro-op with code `c` does what `want` says
of it: it completes with what `write` makes of the value wanted, or raises the kind of the failure. -/
def Settles {α : Type} (d : Instr) (c : PhaseCode) (u : State) (commit : LRet → Except Fault State)
    (want : LRet → Except Failure α) (write : Seq → α → Seq) : Prop :=
  ∀ a, inFlight d (.returned a) = true →
    (∃ v, want a = .ok v ∧ commit a = .ok (complete c (write u.seq v) u)) ∨
      ∃ k, want a = .error (k, c) ∧ commit a = .ok (raise k c u)

section Commits

variable {d : Instr} {c : PhaseCode} {u : State} {k : ErrKind}

theorem settles_commitInt (hd : valueMatch d (.int 0) = true) (dst : BReg) :
    Settles d c u (commitInt c dst k u) (wantInt c k) (Seq.writeB · dst ·) := by
  intro a ha
  cases a with
  | ok v =>
    obtain ⟨v, rfl⟩ := int_of_valueMatch hd ha
    exact .inl ⟨v, rfl, rfl⟩
  | domfail => exact .inr ⟨k, rfl, rfl⟩
  | resfail => exact .inr ⟨.arithmeticFailure, rfl, rfl⟩
  | reserved => exact .inr ⟨.arithmeticFailure, rfl, rfl⟩

theorem settles_commitPoint (hd : valueMatch d (.point .inf) = true) (dst : PReg) :
    Settles d c u (commitPoint c dst k u) (wantPoint c k) (Seq.writeP · dst ·) := by
  intro a ha
  cases a with
  | ok v =>
    obtain ⟨q, rfl⟩ := point_of_valueMatch hd ha
    exact .inl ⟨q, rfl, rfl⟩
  | domfail => exact .inr ⟨k, rfl, rfl⟩
  | resfail => exact .inr ⟨.arithmeticFailure, rfl, rfl⟩
  | reserved => exact .inr ⟨.arithmeticFailure, rfl, rfl⟩

theorem curveFits_iff {lmax p n l : Nat} :
    curveFits lmax p n l = true ↔ 1 ≤ l ∧ l ≤ lmax ∧ p < 256 ^ l ∧ n < 2 ^ (8 * lmax + 1) := by
  simp [curveFits, and_assoc]

/-- CURVE's writes, from the parameters wanted (41 R172). -/
def writeParams (q : Seq) (x : Nat × Nat × Point × Nat) : Seq := writeCurve q x.1 x.2.1 x.2.2.1 x.2.2.2

theorem settles_commitCurve :
    Settles .lcCurve Code.curve u (commitCurve u) (wantCurve u.lib.params.lmax) writeParams := by
  intro a ha
  cases a with
  | ok v =>
    cases v with
    | curve p n g l =>
      by_cases hf : curveFits u.lib.params.lmax p n l = true
      · exact .inl ⟨(p, n, g, l), if_pos (curveFits_iff.1 hf), if_pos hf⟩
      · exact .inr ⟨.arithmeticFailure, if_neg (mt curveFits_iff.2 hf), if_neg hf⟩
    | _ => cases ha
  | domfail => exact .inr ⟨.arithmeticFailure, rfl, rfl⟩
  | resfail => exact .inr ⟨.arithmeticFailure, rfl, rfl⟩
  | reserved => exact .inr ⟨.arithmeticFailure, rfl, rfl⟩

/-- ORDCHK's write where the test has passed (43 R201). -/
def writeInff (q : Seq) (_ : Unit) : Seq := { q with inff := some 1 }

theorem settles_commitOrdchk (a : PReg) :
    Settles (.lcPinf a) Code.ordchk u (commitOrdchk u) wantInfinity writeInff := by
  intro a ha
  cases a with
  | ok v =>
    cases v with
    | bit f =>
      by_cases hf : f = 0
      · exact .inr ⟨.invalidPoint, if_pos hf, if_pos hf⟩
      · have key : ∀ f : BitVec 1, f ≠ 0 → f = 1 := by decide
        obtain rfl := key f hf
        exact .inl ⟨(), rfl, rfl⟩
    | _ => cases ha
  | domfail => exact .inr ⟨.arithmeticFailure, rfl, rfl⟩
  | resfail => exact .inr ⟨.arithmeticFailure, rfl, rfl⟩
  | reserved => exact .inr ⟨.arithmeticFailure, rfl, rfl⟩

/-- ENC's writes (45 R230). -/
def writeEncoding (q : Seq) (bytes : List Byte) : Seq :=
  { q with
    mem := q.mem.set .encbuf (writeCells (q.mem.get .encbuf) 0 bytes)
    enclen := some (BitVec.ofNat 9 bytes.length) }

theorem settles_commitEnc (a : PReg) {l : BitVec 8} (hl : u.seq.cpL = some l) (hmax : l.toNat ≤ u.lib.params.lmax) :
    Settles (.lcPenc a) Code.enc u (commitEnc u) (wantBytes l.toNat) writeEncoding := by
  intro a ha
  cases a with
  | ok v =>
    cases v with
    | bytes x =>
      have hc : commitEnc u (.ok (.bytes x)) = _ := bind_of_ok (must_of hl) _
      by_cases hx : x.length = 2 * l.toNat + 1
      · have hw := Seq.memWrite_of_le (q := u.seq) (lmax := u.lib.params.lmax) (b := .encbuf) (i := 0) (bytes := x)
          (by simp only [capacity]; omega)
        refine .inl ⟨x, if_pos hx, hc.trans ?_⟩
        rw [if_pos hx, bind_of_ok hw, ← hx]
        rfl
      · exact .inr ⟨.arithmeticFailure, if_neg hx, hc.trans (if_neg hx)⟩
    | _ => cases ha
  | domfail => exact .inr ⟨.arithmeticFailure, rfl, rfl⟩
  | resfail => exact .inr ⟨.arithmeticFailure, rfl, rfl⟩
  | reserved => exact .inr ⟨.arithmeticFailure, rfl, rfl⟩

end Commits

end Sys2Proof.Proofs
end

section
/-! PROOFS. What a RECOVER call computes (40 R152): one lemma for each form of micro-op, each a line of `recovered`; the
contents of the buffers; the eighteen micro-ops in order, and `CallComputesRecover`. -/

namespace Sys2Proof.Proofs

open Sys2Proof Sys2Proof.Machine Sys2Proof.Safety

/-! ### The micro-ops without a call, where their operands are valid -/

theorem execVrid_of_valid {s : State} {recid : Byte} {v : BitVec 1} (hr : s.seq.recid = some recid)
    (hv : canonicalId recid = some v) : execVrid s = .next (advance Code.vrid { s.seq with v := some v } s) := by
  rw [execVrid, bind_of_ok (must_of hr), hv, run_ok]

theorem execVrid_of_invalid {s : State} {recid : Byte} (hr : s.seq.recid = some recid)
    (hv : canonicalId recid = none) : execVrid s = .next (raise .invalidRecoveryId Code.vrid s) := by
  rw [execVrid, bind_of_ok (must_of hr), hv, run_ok]

theorem execTrunc_of {s : State} {d : BitVec 16} {l : BitVec 8} (hd : s.seq.dlen = some d) (hl : s.seq.cpL = some l) :
    execTrunc s =
      .next (advance Code.trunc { s.seq with deff := some (BitVec.ofNat 8 (min d.toNat l.toNat)) } s) := by
  rw [execTrunc, bind_of_ok (must_of hd), bind_of_ok (must_of hl), run_ok]

theorem execSetx_of {s : State} {r : Int} (hr : s.seq.b.get .br = some r) :
    execSetx s = .next (advance Code.setx (s.seq.writeB .bx r) s) := by
  rw [execSetx, bind_of_ok (readB_of hr), run_ok]

/-- STRIP's writes (45 R231). -/
def writeResult (q : Seq) (bytes : List Byte) (len : BitVec 8) : Seq :=
  { q with mem := q.mem.set .result (writeCells (q.mem.get .result) 0 bytes), rlenb := some len }

theorem execStrip_of {s : State} {l : BitVec 8} {e : BitVec 9} {bytes : List Byte} (hl : s.seq.cpL = some l)
    (hmax : l.toNat ≤ s.lib.params.lmax) (he : s.seq.enclen = some e) (hle : 2 * l.toNat + 1 ≤ e.toNat)
    (hx : readCells s.seq.mem.encbuf 1 (2 * l.toNat) = some bytes) :
    execStrip s = .next (advance Code.strip (writeResult s.seq bytes (BitVec.ofNat 8 (2 * l.toNat))) s) := by
  have hread := Seq.memRead_of (q := s.seq) (lmax := s.lib.params.lmax) (b := .encbuf) (validLen_encbuf he)
    (i := 1) (n := 2 * l.toNat) (by omega) hx
  have hlen := memRead_length hread
  have hwrite := Seq.memWrite_of_le (q := s.seq) (lmax := s.lib.params.lmax) (b := .result) (i := 0) (bytes := bytes)
    (by simp only [capacity]; omega)
  rw [execStrip, bind_of_ok (must_of hl), bind_of_ok hread, bind_of_ok hwrite, run_ok]
  rfl

/-! ### The micro-ops with a call -/

/-- The micro-op `i` of code `c` is issue and commit of the library call `d`, where V is `v` (30_encoding R120, R125).
-/
structure CallOp (v : BitVec 1) (i d : Instr) (c : PhaseCode) (iss : State → Except Fault State)
    (commit : State → LRet → Except Fault State) : Prop where
  hasCall : hasCall i = true
  code : encode i = some (.uop c)
  call : callOf v c = some d
  meaning : ∀ s, exec i s = callStep (iss s) (commit s) s

section CallOps

variable {v : BitVec 1}

theorem callOp_curve : CallOp v .curve .lcCurve Code.curve (issue .lcCurve) commitCurve := ⟨rfl, rfl, rfl, fun _ => rfl⟩

theorem callOp_parser : CallOp v .parser (.lcBnhex .br .rhex) Code.parser (issue (.lcBnhex .br .rhex))
    (commitInt Code.parser .br .arithmeticFailure) := ⟨rfl, rfl, rfl, fun _ => rfl⟩

theorem callOp_parses : CallOp v .parses (.lcBnhex .bs .shex) Code.parses (issue (.lcBnhex .bs .shex))
    (commitInt Code.parses .bs .arithmeticFailure) := ⟨rfl, rfl, rfl, fun _ => rfl⟩

theorem callOp_decomp : CallOp v .decomp (.lcPdec .pr .bx v) Code.decomp issueDecomp
    (commitPoint Code.decomp .pr .invalidPoint) := ⟨rfl, rfl, rfl, fun _ => rfl⟩

theorem callOp_ordmul : CallOp v .ordmul (.lcPmul .pchk .bn .pr) Code.ordmul (issue (.lcPmul .pchk .bn .pr))
    (commitPoint Code.ordmul .pchk .arithmeticFailure) := ⟨rfl, rfl, rfl, fun _ => rfl⟩

theorem callOp_ordchk : CallOp v .ordchk (.lcPinf .pchk) Code.ordchk (issue (.lcPinf .pchk)) commitOrdchk :=
  ⟨rfl, rfl, rfl, fun _ => rfl⟩

theorem callOp_eload : CallOp v .eload (.lcBnbin .be) Code.eload (issue (.lcBnbin .be))
    (commitInt Code.eload .be .arithmeticFailure) := ⟨rfl, rfl, rfl, fun _ => rfl⟩

theorem callOp_inv : CallOp v .inv (.lcBninv .bri .br .bn) Code.inv (issue (.lcBninv .bri .br .bn))
    (commitInt Code.inv .bri .noInverse) := ⟨rfl, rfl, rfl, fun _ => rfl⟩

theorem callOp_muls : CallOp v .muls (.lcPmul .ps .bs .pr) Code.muls (issue (.lcPmul .ps .bs .pr))
    (commitPoint Code.muls .ps .arithmeticFailure) := ⟨rfl, rfl, rfl, fun _ => rfl⟩

theorem callOp_neg : CallOp v .neg (.lcBnneg .bne .be) Code.neg (issue (.lcBnneg .bne .be))
    (commitInt Code.neg .bne .arithmeticFailure) := ⟨rfl, rfl, rfl, fun _ => rfl⟩

theorem callOp_mulg : CallOp v .mulg (.lcPmul .pt .bne .pg) Code.mulg (issue (.lcPmul .pt .bne .pg))
    (commitPoint Code.mulg .pt .arithmeticFailure) := ⟨rfl, rfl, rfl, fun _ => rfl⟩

theorem callOp_add : CallOp v .add (.lcPadd .pu .ps .pt) Code.add (issue (.lcPadd .pu .ps .pt))
    (commitPoint Code.add .pu .arithmeticFailure) := ⟨rfl, rfl, rfl, fun _ => rfl⟩

theorem callOp_mulq : CallOp v .mulq (.lcPmul .pq .bri .pu) Code.mulq (issue (.lcPmul .pq .bri .pu))
    (commitPoint Code.mulq .pq .arithmeticFailure) := ⟨rfl, rfl, rfl, fun _ => rfl⟩

theorem callOp_enc : CallOp v .enc (.lcPenc .pq) Code.enc (issue (.lcPenc .pq)) commitEnc :=
  ⟨rfl, rfl, rfl, fun _ => rfl⟩

end CallOps

/-! ### One micro-op of the reference machine -/

/-- The reference machine with parameters `P` and SEQ's registers `q` between two micro-ops: no call in flight. -/
def machine (P : Params) (q : Seq) : State :=
  { State.reset with seq := { q with callpend := false }, lib := { State.reset.lib with params := P } }

/-- The reference machine when the call `d` has returned `a`. -/
def machineReturned (P : Params) (q : Seq) (d : Instr) (a : LRet) : State :=
  { machine P q with seq := { q with lcd := descriptor d, callpend := true }, chan := .returned a }

section MicroOps

variable {P : Params} {f : PhaseCode → Bool} {more draws : List Bool} {n : Nat} {q : Seq}

/-- A micro-op without a call that completes. -/
theorem delivers_advance {i : Instr} {c : PhaseCode} {q' : Seq} {x : Except Failure (List Byte)}
    (hi : isMicroOp i = true) (hc : encode i = some (.uop c)) (hq : q.phase = c)
    (hx : exec i (machine P q) = .next (advance c { q' with callpend := false } (machine P q)))
    (h : Delivers more n (machine P (q'.next c)) draws x) : Delivers more (n + 1) (machine P q) draws x :=
  delivers_step hi hc hq rfl hx rfl (delivers_of_alike ⟨rfl, rfl, rfl, rfl, rfl⟩ rfl h)

section Calls

variable {i d : Instr} {c : PhaseCode} {iss : State → Except Fault State}
  {commit : State → LRet → Except Fault State} {m : LMsg} {r : LRet}

/-- Issue and LIB's answer. -/
theorem delivers_issue {x : Except Failure (List Byte)} (op : CallOp (q.v.getD 0) i d c iss commit) (hq : q.phase = c)
    (hiss : iss (machine P q) = .ok (sendCall d m (machine P q))) (hr : libAnswer P d m = some r)
    (h : Delivers more n (machineReturned P q d (drawn f c r)) draws x) :
    Delivers more (n + 1) (machine P q) (f c :: draws) x := by
  subst hq
  have hx : exec i (machine P q) = .next (sendCall d m (machine P q)) := by
    rw [op.meaning, callStep_issue rfl, hiss, run_ok]
  exact delivers_step (isMicroOp_of_hasCall op.hasCall) op.code rfl rfl hx rfl
    (delivers_answer ⟨rfl, rfl⟩ op.call hr h)

/-- The commit, which does what `want` says of the answer and writes with `write`. -/
theorem delivers_commit {α : Type} {a : LRet} {want : LRet → Except Failure α} {write : Seq → α → Seq}
    {k : α → Except Failure (List Byte)} (op : CallOp (q.v.getD 0) i d c iss commit) (hq : q.phase = c)
    (hsettles : Settles d c (machineReturned P q d a) (commit (machineReturned P q d a)) want write)
    (hwrite : ∀ w b v, write { q with lcd := w, callpend := b } v = { write q v with lcd := w, callpend := b })
    (hk : ∀ v, want a = .ok v → Delivers more n (machine P ((write q v).next c)) draws (k v)) :
    Delivers more (n + 1) (machineReturned P q d a) draws (want a >>= k) := by
  subst hq
  have hi := isMicroOp_of_hasCall op.hasCall
  have hx {t : State} (ht : commit (machineReturned P q d a) a = .ok t) :
      exec i (machineReturned P q d a) = .next t := by
    rw [op.meaning, callStep_commit rfl rfl, ht, run_ok]
  refine delivers_of_inFlight rfl op.call fun hfl => ?_
  rcases hsettles a hfl with ⟨v, hv, ht⟩ | ⟨e, he, ht⟩
  · have halike : Alike (machine P ((write q v).next q.phase))
        (complete q.phase (write (machineReturned P q d a).seq v) (machineReturned P q d a)) := by
      refine ⟨?_, rfl, rfl, rfl, rfl⟩
      rw [complete_seq, machineReturned, hwrite]
      rfl
    rw [hv]
    exact delivers_step hi op.code rfl rfl (hx ht) rfl (delivers_of_alike halike rfl (hk v hv))
  · rw [he]
    exact delivers_step hi op.code rfl rfl (hx ht) rfl (delivers_raise e q.phase)

/-- A micro-op with an integer call. -/
theorem delivers_int {dst : BReg} {e : ErrKind} {k : Int → Except Failure (List Byte)}
    (op : CallOp (q.v.getD 0) i d c (issue d) (commitInt c dst e)) (hd : valueMatch d (.int 0) = true)
    (hq : q.phase = c) (hg : gather (machine P q) d = .ok m) (hr : libAnswer P d m = some r)
    (hk : ∀ v, Delivers more n (machine P ((q.writeB dst v).next c)) draws (k v)) :
    Delivers more (n + 2) (machine P q) (f c :: draws) (wantInt c e (drawn f c r) >>= k) :=
  delivers_issue op hq (issue_of hg) hr
    (delivers_commit op hq (settles_commitInt hd dst) (fun _ _ _ => rfl) fun v _ => hk v)

/-- A micro-op with a point call. -/
theorem delivers_point {dst : PReg} {e : ErrKind} {k : Point → Except Failure (List Byte)}
    (op : CallOp (q.v.getD 0) i d c iss (commitPoint c dst e)) (hd : valueMatch d (.point .inf) = true)
    (hq : q.phase = c) (hiss : iss (machine P q) = issue d (machine P q)) (hg : gather (machine P q) d = .ok m)
    (hr : libAnswer P d m = some r)
    (hk : ∀ v, Delivers more n (machine P ((q.writeP dst v).next c)) draws (k v)) :
    Delivers more (n + 2) (machine P q) (f c :: draws) (wantPoint c e (drawn f c r) >>= k) :=
  delivers_issue op hq (hiss.trans (issue_of hg)) hr
    (delivers_commit op hq (settles_commitPoint hd dst) (fun _ _ _ => rfl) fun v _ => hk v)

end Calls

/-- VRID, with a recovery id (41 R170). -/
theorem delivers_vrid {recid : Byte} {v : BitVec 1} {k : BitVec 1 → Except Failure (List Byte)}
    (hq : q.phase = Code.vrid) (hrecid : q.recid = some recid) (hv : canonicalId recid = some v)
    (hk : Delivers more n (machine P (({ q with v := some v } : Seq).next Code.vrid)) draws (k v)) :
    Delivers more (n + 1) (machine P q) draws (.ok v >>= k) :=
  delivers_advance (i := .vrid) (q' := { q with v := some v }) rfl rfl hq
    (execVrid_of_valid (s := machine P q) hrecid hv) hk

/-- VRID, with none (41 R170). -/
theorem delivers_vrid_invalid {recid : Byte} (hq : q.phase = Code.vrid) (hrecid : q.recid = some recid)
    (hv : canonicalId recid = none) :
    Delivers more (n + 1) (machine P q) draws (.error (.invalidRecoveryId, Code.vrid)) :=
  delivers_step (i := .vrid) (ref' := raise .invalidRecoveryId Code.vrid (machine P q)) rfl rfl hq rfl
    (execVrid_of_invalid (s := machine P q) hrecid hv) rfl (delivers_raise _ _)

theorem range_of_wantCurve {lmax p n l : Nat} {g : Point} {a : LRet} (h : wantCurve lmax a = .ok (p, n, g, l)) :
    1 ≤ l ∧ l ≤ lmax := by
  cases a with
  | ok v =>
    cases v with
    | curve p' n' g' l' =>
      by_cases hf : 1 ≤ l' ∧ l' ≤ lmax ∧ p' < 256 ^ l' ∧ n' < 2 ^ (8 * lmax + 1)
      · cases (if_pos hf).symm.trans h
        exact ⟨hf.1, hf.2.1⟩
      · cases (if_neg hf).symm.trans h
    | _ => cases h
  | _ => cases h

/-- CURVE (41 R172). -/
theorem delivers_curve {id : Byte} {k : Nat × Nat × Point × Nat → Except Failure (List Byte)}
    (hq : q.phase = Code.curve) (hid : q.curveid = some id)
    (hk : ∀ p n' g l, 1 ≤ l → l ≤ P.lmax →
      Delivers more n (machine P ((writeCurve q p n' g l).next Code.curve)) draws (k (p, n', g, l))) :
    Delivers more (n + 2) (machine P q) (f Code.curve :: draws)
      (wantCurve P.lmax (drawn f Code.curve (libCurve P id)) >>= k) := by
  refine delivers_issue callOp_curve hq (issue_of (gather_lcCurve hid)) rfl
    (delivers_commit callOp_curve hq settles_commitCurve (fun _ _ _ => rfl) fun v hv => ?_)
  obtain ⟨p, n', g, l⟩ := v
  obtain ⟨hmin, hmax⟩ := range_of_wantCurve hv
  exact hk p n' g l hmin hmax

/-- PARSER (41 R173). -/
theorem delivers_parser {len : Byte} {h : List Byte} {k : Int → Except Failure (List Byte)}
    (hq : q.phase = Code.parser) (hlen : q.rlen = some len) (hh : readCells q.mem.rhex 0 len.toNat = some h)
    (hk : ∀ v, Delivers more n (machine P ((q.writeB .br v).next Code.parser)) draws (k v)) :
    Delivers more (n + 2) (machine P q) (f Code.parser :: draws)
      (wantInt Code.parser .arithmeticFailure (drawn f Code.parser (libBnhex h)) >>= k) :=
  delivers_int callOp_parser rfl hq (gather_lcBnhex (readHex_of (validLen_rhex hlen) hh)) rfl hk

/-- PARSES (41 R174). -/
theorem delivers_parses {len : Byte} {h : List Byte} {k : Int → Except Failure (List Byte)}
    (hq : q.phase = Code.parses) (hlen : q.slen = some len) (hh : readCells q.mem.shex 0 len.toNat = some h)
    (hk : ∀ v, Delivers more n (machine P ((q.writeB .bs v).next Code.parses)) draws (k v)) :
    Delivers more (n + 2) (machine P q) (f Code.parses :: draws)
      (wantInt Code.parses .arithmeticFailure (drawn f Code.parses (libBnhex h)) >>= k) :=
  delivers_int callOp_parses rfl hq (gather_lcBnhex (readHex_of (validLen_shex hlen) hh)) rfl hk

/-- TRUNC (41 R175). -/
theorem delivers_trunc {d : BitVec 16} {l : BitVec 8} {x : Except Failure (List Byte)} (hq : q.phase = Code.trunc)
    (hd : q.dlen = some d) (hl : q.cpL = some l)
    (h : Delivers more n (machine P (({ q with deff := some (BitVec.ofNat 8 (min d.toNat l.toNat)) } : Seq).next
      Code.trunc)) draws x) : Delivers more (n + 1) (machine P q) draws x :=
  delivers_advance (i := .trunc) (q' := { q with deff := some (BitVec.ofNat 8 (min d.toNat l.toNat)) }) rfl rfl hq
    (execTrunc_of (s := machine P q) hd hl) h

/-- SETX (42 R190). -/
theorem delivers_setx {r : Int} {x : Except Failure (List Byte)} (hq : q.phase = Code.setx)
    (hr : q.b.get .br = some r) (h : Delivers more n (machine P ((q.writeB .bx r).next Code.setx)) draws x) :
    Delivers more (n + 1) (machine P q) draws x :=
  delivers_advance (i := .setx) (q' := q.writeB .bx r) rfl rfl hq (execSetx_of (s := machine P q) hr) h

/-- ORDCHK (43 R201). -/
theorem delivers_ordchk {a : Point} {k : Unit → Except Failure (List Byte)} (hq : q.phase = Code.ordchk)
    (ha : q.p.get .pchk = some a)
    (hk : Delivers more n (machine P ((writeInff q ()).next Code.ordchk)) draws (k ())) :
    Delivers more (n + 2) (machine P q) (f Code.ordchk :: draws)
      (wantInfinity (drawn f Code.ordchk (libPinf a)) >>= k) :=
  delivers_issue callOp_ordchk hq (issue_of (gather_lcPinf ha)) rfl
    (delivers_commit callOp_ordchk hq (settles_commitOrdchk _) (fun _ _ _ => rfl) fun _ _ => hk)

/-- ELOAD (44 R210). -/
theorem delivers_eload {e : BitVec 8} {d : BitVec 16} {x : List Byte} {k : Int → Except Failure (List Byte)}
    (hq : q.phase = Code.eload) (he : q.deff = some e) (hd : q.dlen = some d) (hle : e.toNat ≤ min d.toNat P.lmax)
    (hx : readCells q.mem.digest 0 e.toNat = some x)
    (hk : ∀ v, Delivers more n (machine P ((q.writeB .be v).next Code.eload)) draws (k v)) :
    Delivers more (n + 2) (machine P q) (f Code.eload :: draws)
      (wantInt Code.eload .arithmeticFailure (drawn f Code.eload (libBnbin x)) >>= k) :=
  delivers_int callOp_eload rfl hq (gather_lcBnbin (readDigest_of he hd hle hx)) rfl hk

theorem length_of_wantBytes {l : Nat} {a : LRet} {bytes : List Byte} (h : wantBytes l a = .ok bytes) :
    bytes.length = 2 * l + 1 := by
  cases a with
  | ok v =>
    cases v with
    | bytes bs =>
      by_cases hb : bs.length = 2 * l + 1
      · cases (if_pos hb).symm.trans h
        exact hb
      · cases (if_neg hb).symm.trans h
    | _ => cases h
  | _ => cases h

/-- ENC (45 R230). -/
theorem delivers_enc {len : BitVec 8} {l : Nat} {id : Byte} {a : Point}
    {k : List Byte → Except Failure (List Byte)} (hq : q.phase = Code.enc) (hid : q.curveid = some id)
    (ha : q.p.get .pq = some a) (hlen : q.cpL = some len) (hl : len.toNat = l) (hmax : l ≤ P.lmax)
    (hk : ∀ bytes, bytes.length = 2 * l + 1 →
      Delivers more n (machine P ((writeEncoding q bytes).next Code.enc)) draws (k bytes)) :
    Delivers more (n + 2) (machine P q) (f Code.enc :: draws)
      (wantBytes l (drawn f Code.enc (libPenc P id a)) >>= k) := by
  subst hl
  exact delivers_issue callOp_enc hq (issue_of (gather_lcPenc hid ha)) rfl
    (delivers_commit callOp_enc hq (settles_commitEnc _ hlen hmax) (fun _ _ _ => rfl) fun bytes hv =>
      hk bytes (length_of_wantBytes hv))

/-- Bytes stored from index 0 are read back from any index. -/
theorem readCells_writeCells_part (cells : List Host.Cell) {bytes : List Byte} {j m : Nat}
    (h : j + m ≤ bytes.length) : readCells (writeCells cells 0 bytes) j m = some ((bytes.drop j).take m) := by
  rw [readCells_eq_some]
  refine ⟨by rw [List.length_take, List.length_drop]; omega, fun k hk => ?_⟩
  rw [List.length_take, List.length_drop] at hk
  rw [readCell_writeCells, if_pos (by omega), List.getElem_take, List.getElem_drop, Nat.sub_zero,
    List.getElem?_eq_getElem (by omega)]

/-- STRIP, and the response of DONE (45 R231, 40 R154). -/
theorem delivers_strip {l : BitVec 8} {e : BitVec 9} {cells : List Host.Cell} {bytes : List Byte}
    (hq : q.phase = Code.strip) (hl : q.cpL = some l) (hmax : l.toNat ≤ P.lmax) (h127 : P.lmax ≤ 127)
    (he : q.enclen = some e) (hcells : q.mem.encbuf = writeCells cells 0 bytes) (hle : e.toNat = bytes.length)
    (hlen : bytes.length = 2 * l.toNat + 1) : Delivers more 1 (machine P q) [] (.ok (bytes.drop 1)) := by
  have hpayload : (bytes.drop 1).length = 2 * l.toNat := by rw [List.length_drop]; omega
  have hn : (BitVec.ofNat 8 (2 * l.toNat)).toNat = (bytes.drop 1).length := by
    rw [BitVec.toNat_ofNat, Nat.mod_eq_of_lt (by omega), hpayload]
  have hx : readCells q.mem.encbuf 1 (2 * l.toNat) = some (bytes.drop 1) := by
    rw [hcells, readCells_writeCells_part _ (by omega), List.take_of_length_le (by omega)]
  refine delivers_advance (i := .strip) (q' := writeResult q (bytes.drop 1) (BitVec.ofNat 8 (2 * l.toNat))) rfl rfl hq
    (execStrip_of (s := machine P q) hl hmax he (by omega) hx) ?_
  refine delivers_response (response_of_done rfl ?_) fun _ _ => rfl
  rw [successRsp_of rfl ((congrArg _ hn).trans (readCells_writeCells _ 0 _)), hpayload.symm]
  rfl

end MicroOps

/-! ### The whole call -/

section Call

variable {P : Params} {f : PhaseCode → Bool} {more : List Bool} {recid curveid : Byte} {digest rhex shex : List Byte}

/-- Of the digest the latch holds its left-most LMAX bytes, and so its left-most `l` for `l` up to LMAX (20_memory
R84). -/
theorem readCells_latchedDigest {lmax l : Nat} (h : l ≤ lmax) :
    readCells (writeCells [] 0 (digest.take (min digest.length lmax))) 0 (min digest.length l) =
      some (digest.take l) := by
  have hlen : 0 + min digest.length l ≤ (digest.take (min digest.length lmax)).length := by
    rw [List.length_take]
    omega
  have hmin : min (min digest.length l) (min digest.length lmax) = min l digest.length := by omega
  rw [readCells_writeCells_part _ hlen, List.drop_zero, List.take_take, hmin, ← List.take_eq_take_min]

/-- The eighteen micro-ops in order, each the line of `recovered` for it (40 R152). -/
theorem delivers_recovered (w : LcdWord) (h127 : P.lmax ≤ 127) (hd : digest.length < 65536) (hr : rhex.length < 256)
    (hs : shex.length < 256) :
    Delivers more 32 (machine P (acceptedSeq P.lmax recid curveid digest rhex shex w)) (callCodes.map f)
      (recovered P f recid curveid digest rhex shex) := by
  have stored {bytes : List Byte} (h : bytes.length < 256) :
      readCells (writeCells [] 0 bytes) 0 (BitVec.ofNat 8 bytes.length).toNat = some bytes := by
    rw [BitVec.toNat_ofNat, Nat.mod_eq_of_lt h, readCells_writeCells]
  have hl {l : Nat} (h : l ≤ P.lmax) : (BitVec.ofNat 8 l).toNat = l := by
    rw [BitVec.toNat_ofNat, Nat.mod_eq_of_lt (by omega)]
  have hdlen : (BitVec.ofNat 16 digest.length).toNat = digest.length := by
    rw [BitVec.toNat_ofNat, Nat.mod_eq_of_lt hd]
  have hdeff {l : Nat} (h : l ≤ P.lmax) : (BitVec.ofNat 8 (min (BitVec.ofNat 16 digest.length).toNat
      (BitVec.ofNat 8 l).toNat)).toNat = min digest.length l := by
    rw [hdlen, hl h, hl (by omega)]
  unfold recovered
  cases hv : canonicalId recid with
  | none => exact delivers_vrid_invalid rfl rfl hv
  | some v =>
    dsimp only
    refine delivers_vrid rfl rfl hv ?_
    refine delivers_curve rfl rfl fun p n g l hmin hmax => ?_
    dsimp only
    refine delivers_parser rfl rfl (stored hr) fun r => ?_
    refine delivers_parses rfl rfl (stored hs) fun s => ?_
    refine delivers_trunc rfl rfl rfl ?_
    refine delivers_setx rfl rfl ?_
    refine delivers_point callOp_decomp rfl rfl rfl (gather_lcPdec rfl rfl) rfl fun rp => ?_
    refine delivers_point callOp_ordmul rfl rfl rfl (gather_lcPmul rfl rfl rfl) rfl fun chk => ?_
    refine delivers_ordchk rfl rfl ?_
    refine delivers_eload rfl rfl rfl (by rw [hdeff hmax, hdlen]; omega)
      ((congrArg _ (hdeff hmax)).trans (readCells_latchedDigest hmax)) fun e => ?_
    refine delivers_int callOp_inv rfl rfl (gather_lcBninv rfl rfl) rfl fun ri => ?_
    refine delivers_point callOp_muls rfl rfl rfl (gather_lcPmul rfl rfl rfl) rfl fun sp => ?_
    refine delivers_int callOp_neg rfl rfl (gather_lcBnneg rfl) rfl fun ne => ?_
    refine delivers_point callOp_mulg rfl rfl rfl (gather_lcPmul rfl rfl rfl) rfl fun tp => ?_
    refine delivers_point callOp_add rfl rfl rfl (gather_lcPadd rfl rfl rfl) rfl fun up => ?_
    refine delivers_point callOp_mulq rfl rfl rfl (gather_lcPmul rfl rfl rfl) rfl fun qp => ?_
    refine delivers_enc rfl rfl rfl rfl (hl hmax) hmax fun bytes hbytes => ?_
    refine delivers_strip rfl rfl ((hl hmax).trans_le hmax) h127 rfl rfl ?_ (by rw [hl hmax, hbytes])
    rw [BitVec.toNat_ofNat, Nat.mod_eq_of_lt (by omega)]

/-- Settles O56: the request is accepted, and then each micro-op is a line of `recovered`. -/
theorem callComputesRecover : Obligations.CallComputesRecover := by
  unfold Obligations.CallComputesRecover
  intro s recid curveid digest rhex shex follow rest f more h hrst hp hd hr hs hreqs hfails hready
  obtain ⟨t, hstep, hseq, hchan, hrst', hlib⟩ :=
    step_accepts h hrst hp (congrArg List.head? hreqs) (decodeReq_reqBytes hd hr hs)
  have hfollows : Follows more (callCodes.map f)
      (machine s.lib.params (acceptedSeq s.lib.params.lmax recid curveid digest rhex shex s.seq.lcd)) t :=
    { alike := ⟨by rw [hseq]; rfl, hchan, by rw [hlib]; rfl, by rw [hlib]; rfl, by rw [hlib]; rfl⟩
      params := by rw [hlib]; rfl
      inv := stepKeepsInv _ _ h hstep
      rst := hrst'
      fails := (congrArg LibSide.fails hlib).trans hfails
      ready := by rw [hlib, List.length_map]; exact hready }
  obtain ⟨u, ⟨k, hk, hrun⟩, hrsp, hsuccess⟩ := delivers_recovered s.seq.lcd h.lmax.2 hd hr hs t hfollows
  rw [hlib] at hk
  exact ⟨k + 1, u, by omega, (run_succ_of_next (M := Sys2Proof.core) hstep k).trans hrun, hrsp, hsuccess⟩

end Call

end Sys2Proof.Proofs
end

section
/-! PROOFS. The two host channels (40 R150 to R155): what acceptance latches, and what stands on the response channel;
`RecoverAccepts` and `ResponseChannel`. -/

namespace Sys2Proof.Proofs

open Sys2Proof Sys2Proof.Machine Sys2Proof.Safety

/-! ### Acceptance (40 R151) -/

/-- What is stored in an empty buffer from index 0 on are the bytes alone. -/
theorem writeCells_empty (bytes : List Byte) : writeCells [] 0 bytes = cellsFrom 0 bytes := List.append_nil _

/-- Settles O10: acceptance succeeds, and the fields it writes hold the request as it came. -/
theorem recoverAccepts : Obligations.RecoverAccepts := by
  unfold Obligations.RecoverAccepts
  intro s recid curveid digest rhex shex hp hd hr hs
  have hcap {n : Nat} (h : n < 256) : n ≤ Config.hexcap := Nat.le_of_lt_succ h
  obtain ⟨t, ht⟩ :=
    accept_succeeds (recid := recid) (curveid := curveid) (digest := digest) (s := s) (hcap hr) (hcap hs)
  have hx : exec (.recover recid curveid digest rhex shex) s = .next t := (if_pos hp).trans (congrArg run ht)
  obtain ⟨-, -, rfl⟩ := accept_ok ht
  refine ⟨BitVec.ofNat 16 digest.length, BitVec.ofNat 8 rhex.length, BitVec.ofNat 8 shex.length, Nat.mod_eq_of_lt hd,
    Nat.mod_eq_of_lt hr, Nat.mod_eq_of_lt hs, hx.trans ?_⟩
  simp only [writeCells_empty, Nat.min_comm digest.length, ← List.take_eq_take_min]
  rfl

/-! ### The response channel (40 R154, R155) -/

/-- There is a response at DONE and FAIL alone. -/
theorem phase_of_response {s : State} {rsp : List Byte} (hr : response s = some rsp) :
    s.seq.phase = 0x13 ∨ s.seq.phase = 0x14 := by
  by_cases hdone : s.seq.phase = 0x13
  · exact .inl hdone
  · by_cases hfail : s.seq.phase = 0x14
    · exact .inr hfail
    · rw [response, if_neg hdone, if_neg hfail] at hr
      cases hr

/-- At DONE the response has as many bytes of payload as RLENB says, which are two for each byte of a field element. -/
theorem response_at_done {s : State} (h : Inv s) (hp : s.seq.phase = 0x13) :
    ∃ l n payload, s.seq.cpL = some l ∧ payload.length = 2 * l.toNat ∧
      response s = some (0x00 :: 0x00 :: n :: payload) := by
  obtain ⟨n, hn⟩ := exists_of_written h.data.rlenb (by rw [hp]; decide) (by rw [hp]; decide)
  obtain ⟨payload, hx⟩ := Option.isSome_iff_exists.1 (h.buffers.result n hn)
  obtain ⟨l, hl, hnl⟩ := h.sizes.rlenb n hn
  have hlen := ((readCells_eq_some ..).1 hx).1
  exact ⟨l, n, payload, hl, hlen.trans hnl, response_of_done hp (successRsp_of hn hx)⟩

/-- At FAIL there is an error kind, and its code on the channel is not that of success (60 R272). -/
theorem status_at_fail {s : State} (h : Inv s) (hp : s.seq.phase = 0x14) : s.seq.errkind.setWidth 8 ≠ 0 := by
  have named : ∀ c : PhaseCode, mayRaise c 0 = false := by decide
  have widened : ∀ k : BitVec 3, k.setWidth 8 = 0 → k = 0 := by decide
  have herr := h.errors
  rw [errorsOk, if_pos hp] at herr
  intro hk
  rw [widened _ hk, named] at herr
  cases herr

/-- Settles O14: the record at DONE with RLENB = 2·L, and the one at FAIL with a kind of 60 R272. -/
theorem responseChannel : Obligations.ResponseChannel := by
  unfold Obligations.ResponseChannel
  intro s h
  refine ⟨⟨fun ⟨rsp, hr⟩ => phase_of_response hr, fun hp => response_of_end h ?_⟩, fun rsp hp hr => ?_,
    fun rsp hp hr => ?_⟩
  · rcases hp with hp | hp <;> rw [hp] <;> decide
  · obtain ⟨l, n, payload, hl, hlen, hrsp⟩ := response_at_done h hp
    cases hr.symm.trans hrsp
    exact ⟨l, hl, by simp only [List.length_cons, hlen]; omega, rfl⟩
  · cases hr.symm.trans (response_of_fail hp)
    exact ⟨rfl, fun hk => status_at_fail h hp (Option.some.inj hk)⟩

end Sys2Proof.Proofs
end

section
/-! PROOFS. Every call in progress ends (60 R270): the steps that are left to SEQ and LIB's draws that are left get fewer
together with every step; `CallEnds`. -/

namespace Sys2Proof.Proofs

open Sys2Proof Sys2Proof.Machine Sys2Proof.Safety

/-! ### The steps left to SEQ -/

/-- The library calls not yet issued. -/
def callsUnissued (s : State) : Nat :=
  match s.chan with
  | .idle => callsFrom s.seq.phase.toNat
  | .sent _ => callsFrom (s.seq.phase.toNat + 1)
  | .returned _ => callsFrom (s.seq.phase.toNat + 1)

/-- SEQ's steps before DONE: one end for each micro-op, one issue for each call (30_encoding R125). -/
def stepsLeft (s : State) : Nat := 0x13 - s.seq.phase.toNat + callsUnissued s

theorem callsFrom_le_callsUnissued (s : State) : callsFrom (s.seq.phase.toNat + 1) ≤ callsUnissued s := by
  unfold callsUnissued
  split
  · exact callsFrom_antitone (by omega)
  · exact le_rfl
  · exact le_rfl

theorem callsUnissued_le_callsFrom (s : State) : callsUnissued s ≤ callsFrom s.seq.phase.toNat := by
  unfold callsUnissued
  split
  · exact le_rfl
  · exact callsFrom_antitone (by omega)
  · exact callsFrom_antitone (by omega)

/-- A whole call has 14 library calls (70 R320) … -/
theorem callsFrom_le {n : Nat} (h : 1 ≤ n) : callsFrom n ≤ 14 := callsFrom_antitone h

/-- … and 18 micro-ops. -/
theorem stepsLeft_le {s : State} (h : 1 ≤ s.seq.phase.toNat) : stepsLeft s ≤ 32 := by
  have hcalls := (callsUnissued_le_callsFrom s).trans (callsFrom_le h)
  unfold stepsLeft
  omega

theorem stepsLeft_lt_of_phase {s t : State} (hmax : s.seq.phase.toNat ≤ 0x12)
    (ht : s.seq.phase.toNat + 1 ≤ t.seq.phase.toNat) : stepsLeft t < stepsLeft s := by
  have hcalls := (callsUnissued_le_callsFrom t).trans ((callsFrom_antitone ht).trans (callsFrom_le_callsUnissued s))
  unfold stepsLeft
  omega

/-- Where the call goes on, SEQ has issued a call or ended a micro-op. -/
theorem stepsLeft_lt_of_phaseEnd {s t : State} (h : Inv s) (hit : Inv t) (hmax : s.seq.phase.toNat ≤ 0x12)
    (ht : PhaseEnd s t) (gone : GoneOn s t) : stepsLeft t < stepsLeft s := by
  cases ht with
  | stays hw => exact absurd gone.work (lt_irrefl _)
  | sends d m hmin hcp hg =>
    obtain ⟨d', hcall, -, -⟩ := hit.call.on rfl
    have hcalls := callsFrom_succ hcall
    simp only [sendCall_seq] at hcalls
    simp only [stepsLeft, callsUnissued, h.call.off hcp, sendCall_chan, sendCall_seq]
    omega
  | fails k => exact stepsLeft_lt_of_phase hmax (Nat.succ_le_succ (hmax.trans (by decide)))
  | completes q => exact stepsLeft_lt_of_phase hmax (code_succ hmax).ge
  | advances q => exact stepsLeft_lt_of_phase hmax (code_succ hmax).ge
  | offers rsp hp => rcases hp with hp | hp <;> rw [hp] at hmax <;> exact absurd hmax (by decide)

/-! ### One step -/

/-- A call in progress that will end: LIB's draws to come hold the answers it awaits. -/
structure Ending (s : State) : Prop where
  inv : Inv s
  rst : s.host.rst = false
  started : 1 ≤ s.seq.phase.toNat
  ready : owed s ≤ s.lib.ready.count true

/-- SEQ's steps and LIB's draws that are left. -/
def remaining (s : State) : Nat := stepsLeft s + s.lib.ready.length

/-- The step goes on to a call that will end, with less remaining. -/
def ComesNearer (s : State) : Prop := ∃ t, step s = .next t ∧ Ending t ∧ remaining t < remaining s

/-- A draw on which LIB answers makes the return, and changes nothing else that the call's end depends on. -/
theorem step_of_answered {s : State} {rest : List Bool} (h : Inv s) (hrst : s.host.rst = false)
    (hs : callSent s = true) (hready : s.lib.ready = true :: rest) :
    ∃ r, step s = .next (answer r { s with lib := { s.lib with ready := rest } }) := by
  obtain ⟨i, hi⟩ := decodePhase_of_inv h
  obtain ⟨d, -, -, hd, -, -⟩ := call_of_callSent h hs
  have hstep := step_of_callSent hrst hs hready hi hd
  rw [if_pos rfl] at hstep
  have hdrawn : Inv { s with lib := { s.lib with ready := rest } } := inv_draw h _ rfl
  obtain ⟨t, hx, -⟩ := inv_exec_lcd hdrawn hs hd
  obtain ⟨r, rfl⟩ := answer_of_exec (format_of_decodeLcd hd) hx
  exact ⟨r, hstep.trans hx⟩

@[simp] theorem drawFail_ready (l : LibSide) : (drawFail l).2.ready = l.ready := by
  unfold drawFail
  split <;> rfl

/-- With a call sent LIB's draw is used up. -/
theorem comesNearer_of_callSent {s : State} (h : Ending s) (hs : callSent s = true) : ComesNearer s := by
  obtain ⟨hi, hrst, hmin, hready⟩ := h
  obtain ⟨d, m, hcall, -, hm, -⟩ := call_of_callSent hi hs
  have howed : owed s = callsFrom (s.seq.phase.toNat + 1) + 1 := by
    rw [owed, hm.2]
    exact callsFrom_succ hcall
  cases hl : s.lib.ready with
  | nil =>
    rw [hl, List.count_nil] at hready
    omega
  | cons b rest =>
    rw [hl] at hready
    cases b with
    | false =>
      have hstep := step_of_withheld hi hrst hm hl
      refine ⟨_, hstep, ⟨stepKeepsInv _ _ hi hstep, hrst, hmin,
        hready.trans_eq (List.count_cons_of_ne (by decide))⟩, ?_⟩
      simp only [remaining, hl, List.length_cons]
      exact Nat.lt_succ_self _
    | true =>
      obtain ⟨r, hstep⟩ := step_of_answered hi hrst hs hl
      refine ⟨_, hstep, ⟨stepKeepsInv _ _ hi hstep, hrst, hmin, ?_⟩, ?_⟩
      · rw [List.count_cons_self] at hready
        simp only [owed, answer_chan, answer_seq, answer_lib, drawFail_ready]
        omega
      · simp only [remaining, stepsLeft, callsUnissued, hm.2, hl, answer_chan, answer_seq, answer_lib, drawFail_ready,
          List.length_cons]
        omega

/-- With no call sent SEQ's step is made, and LIB's draws stay. -/
theorem comesNearer_of_microOp {s : State} (h : Ending s) (hs : callSent s = false) (hmax : s.seq.phase.toNat ≤ 0x12) :
    ComesNearer s := by
  obtain ⟨hi, hrst, hmin, hready⟩ := h
  obtain ⟨i, hd⟩ := decodePhase_of_inv hi
  obtain ⟨t, hx, hit⟩ := inv_exec_phase hi hd
  have hend := phaseEnd_exec hd hx
  obtain ⟨hhost, hlib, gone⟩ := goneOn_of_phaseEnd hi hs hmin hmax hend
  refine ⟨t, (step_of_phase hrst hs (ne_idle hmin) hd).trans hx,
    ⟨hit, hhost ▸ hrst, gone.started, hlib ▸ gone.owed.trans hready⟩, ?_⟩
  have hless := stepsLeft_lt_of_phaseEnd hi hit hmax hend gone
  rw [remaining, remaining, hlib]
  omega

/-! ### The end of the call -/

/-- A call that will end does so within what remains. -/
theorem ends_within {s : State} (h : Ending s) :
    ∃ k t, k ≤ remaining s ∧ Sys2Proof.core.run k s = .next t ∧ (t.seq.phase = 0x13 ∨ t.seq.phase = 0x14) := by
  induction hn : remaining s using Nat.strong_induction_on generalizing s with
  | _ n ih =>
    subst hn
    by_cases hmax : s.seq.phase.toNat ≤ 0x12
    · have hnear : ComesNearer s := by
        cases hs : callSent s with
        | true => exact comesNearer_of_callSent h hs
        | false => exact comesNearer_of_microOp h hs hmax
      obtain ⟨u, hstep, hu, hless⟩ := hnear
      obtain ⟨k, t, hk, hrun, hend⟩ := ih _ hless hu rfl
      exact ⟨k + 1, t, by omega, (run_succ_of_next (M := Sys2Proof.core) hstep k).trans hrun, hend⟩
    · obtain ⟨rsp, hr⟩ := response_of_end h.inv (by omega)
      exact ⟨0, s, Nat.zero_le _, rfl, phase_of_response hr⟩

/-- Settles O55: at most 14 answers are awaited and 32 of SEQ's steps are left, wherever the call stands. -/
theorem callEnds : Obligations.CallEnds := by
  unfold Obligations.CallEnds
  intro s h hrst hp hready
  have hmin : 1 ≤ s.seq.phase.toNat := Nat.one_le_iff_ne_zero.2 fun h0 => hp (BitVec.eq_of_toNat_eq h0)
  have howed : owed s ≤ s.lib.ready.count true := (owed_le_callsFrom s).trans ((callsFrom_le hmin).trans hready)
  obtain ⟨k, t, hk, hrun, hend⟩ := ends_within ⟨h, hrst, hmin, howed⟩
  exact ⟨k, t, hk.trans (Nat.add_le_add_right (stepsLeft_le hmin) _), hrun, hend⟩

end Sys2Proof.Proofs
end

section
/-! PROOFS. Input validation and operand preparation (41 R170 to R175): issue, commit and failure of a micro-op with a
call, once for every such micro-op; then VRID, CURVE, PARSER, PARSES and TRUNC. -/

namespace Sys2Proof.Proofs

open Sys2Proof Sys2Proof.Machine Sys2Proof.Safety

/-! ### Issue, commit and failure of a micro-op with a call (30_encoding R125, R126) -/

section CallRules

variable {v : BitVec 1} {i d : Instr} {c : PhaseCode} {iss : State → Except Fault State}
  {commit : State → LRet → Except Fault State} {s t : State}

theorem exec_of_gather {m : LMsg} (op : CallOp v i d c (issue d) commit) (hcp : s.seq.callpend = false)
    (hg : gather s d = .ok m) : exec i s = .next (issued (descriptor d) m s) := by
  rw [op.meaning, callStep_issue hcp, issue_of hg, run_ok, sendCall_eq]

theorem exec_of_commit {r : LRet} (op : CallOp v i d c iss commit) (hr : returned s r) (ht : commit s r = .ok t) :
    exec i s = .next t := by
  rw [op.meaning, callStep_commit hr.1 hr.2, ht, run_ok]

/-- Where the commit raises `k` on DOMFAIL, and ArithmeticFailure on RESFAIL and the reserved status 3. -/
theorem failsOn_of_commit {k : ErrKind} (op : CallOp v i d c iss commit)
    (hdom : ∀ s, commit s .domfail = .ok (raise k c s))
    (hres : ∀ s, commit s .resfail = .ok (raise .arithmeticFailure c s))
    (hreserved : ∀ s, commit s .reserved = .ok (raise .arithmeticFailure c s)) : FailsOn i c k.code where
  domfail s h := exec_of_commit op h (hdom s)
  resfail s h := exec_of_commit op h (hres s)
  reserved s h := exec_of_commit op h (hreserved s)

theorem failsOn_of_commitInt {dst : BReg} {k : ErrKind} (op : CallOp v i d c iss (commitInt c dst k)) :
    FailsOn i c k.code := failsOn_of_commit op (fun _ => rfl) (fun _ => rfl) (fun _ => rfl)

end CallRules

/-! ### VRID (41 R170) -/

theorem canonicalId_eq_zero {recid : Byte} (h : recid.toNat = 0 ∨ recid.toNat = 27) : canonicalId recid = some 0 := by
  obtain rfl | rfl : recid = 0 ∨ recid = 27 := h.imp BitVec.eq_of_toNat_eq BitVec.eq_of_toNat_eq
  · rfl
  · rfl

theorem canonicalId_eq_one {recid : Byte} (h : recid.toNat = 1 ∨ recid.toNat = 28) : canonicalId recid = some 1 := by
  obtain rfl | rfl : recid = 1 ∨ recid = 28 := h.imp BitVec.eq_of_toNat_eq BitVec.eq_of_toNat_eq
  · rfl
  · rfl

theorem canonicalId_eq_none {recid : Byte} (h : recid.toNat ∉ [0, 1, 27, 28]) : canonicalId recid = none := by
  have hlow : ¬ (recid = 0 ∨ recid = 1) := by rintro (rfl | rfl) <;> exact h (by decide)
  have hhigh : ¬ (recid = 27 ∨ recid = 28) := by rintro (rfl | rfl) <;> exact h (by decide)
  rw [canonicalId, if_neg hlow, if_neg hhigh]

/-- Settles O15: RECID 0, 1, 27 and 28 have a canonical id, and no other RECID has one. -/
theorem vridRule : Obligations.VridRule := by
  unfold Obligations.VridRule
  intro s recid hr
  exact ⟨fun h => execVrid_of_valid hr (canonicalId_eq_zero h), fun h => execVrid_of_valid hr (canonicalId_eq_one h),
    fun h => execVrid_of_invalid hr (canonicalId_eq_none h)⟩

/-! ### CURVE (41 R172) -/

theorem commitCurve_of_fits {s : State} {p n l : Nat} {g : Point} (h : curveFits s.lib.params.lmax p n l = true) :
    commitCurve s (.ok (.curve p n g l)) = .ok (complete Code.curve (writeCurve s.seq p n g l) s) := if_pos h

theorem commitCurve_of_not_fits {s : State} {p n l : Nat} {g : Point}
    (h : ¬ curveFits s.lib.params.lmax p n l = true) :
    commitCurve s (.ok (.curve p n g l)) = .ok (raise .arithmeticFailure Code.curve s) := if_neg h

theorem failsOn_curve : FailsOn .curve Code.curve 4 :=
  failsOn_of_commit (callOp_curve (v := 0)) (k := .arithmeticFailure) (fun _ => rfl) (fun _ => rfl) (fun _ => rfl)

/-- Settles O16: the commit asks `curveFits`, whose four bounds are the ones stated. -/
theorem curveRule : Obligations.CurveRule := by
  unfold Obligations.CurveRule
  refine ⟨fun s id hcp hid => exec_of_gather (callOp_curve (v := 0)) hcp (gather_lcCurve hid), ?_, ?_, failsOn_curve⟩
  · intro s p n g l hr hmin hmax hp hn
    have hx := exec_of_commit (callOp_curve (v := 0)) hr (commitCurve_of_fits (curveFits_iff.2 ⟨hmin, hmax, hp, hn⟩))
    rw [complete_eq, writeCurve, BitVec.ofNat_toNat, BitVec.setWidth_eq] at hx
    exact hx
  · intro s p n g l hr hbad
    refine exec_of_commit (callOp_curve (v := 0)) hr (commitCurve_of_not_fits fun hf => ?_)
    obtain ⟨hmin, hmax, hp, hn⟩ := curveFits_iff.1 hf
    omega

/-! ### PARSER and PARSES (41 R173, R174) -/

/-- Settles O17: both are an integer call on the string of their buffer, with every failure an ArithmeticFailure. -/
theorem parseRules : Obligations.ParseRules := by
  unfold Obligations.ParseRules
  refine ⟨?_, ?_, failsOn_of_commitInt (callOp_parser (v := 0)), ?_, ?_, failsOn_of_commitInt (callOp_parses (v := 0))⟩
  · intro s n h hcp hn hh
    exact exec_of_gather (callOp_parser (v := 0)) hcp (gather_lcBnhex (readHex_of (validLen_rhex hn) hh))
  · intro s r hr
    exact exec_of_commit (callOp_parser (v := 0)) hr rfl
  · intro s n h hcp hn hh
    exact exec_of_gather (callOp_parses (v := 0)) hcp (gather_lcBnhex (readHex_of (validLen_shex hn) hh))
  · intro s v hr
    exact exec_of_commit (callOp_parses (v := 0)) hr rfl

/-! ### TRUNC (41 R175) -/

/-- Settles O18: the minimum is no more than CP.L, so the eight bits of DEFF hold it whatever DLEN is. -/
theorem truncRule : Obligations.TruncRule := by
  unfold Obligations.TruncRule
  intro s d l hd hl
  have hfit : min d.toNat l.toNat < 2 ^ 8 := lt_of_le_of_lt (Nat.min_le_right ..) l.isLt
  exact ⟨BitVec.ofNat 8 (min d.toNat l.toNat), Nat.mod_eq_of_lt hfit, execTrunc_of hd hl⟩

end Sys2Proof.Proofs
end

section
/-! PROOFS. The coordinate decompression selector (42 R190 to R192): SETX, DECOMP, and what the parity selects in the
library's realisation. -/

namespace Sys2Proof.Proofs

open Sys2Proof Sys2Proof.Machine Sys2Proof.Safety

/-! ### The selector property (42 R192, 46 R249) -/

theorem libPdec_eq_point_iff {P : Params} {id : Byte} {c : Curve} (hc : findCurve P.table id = some c) {x : Int}
    {v : BitVec 1} {q : Point} :
    libPdec P id x v = .ok (.point q) ↔ ∃ n, decompressX P c x = some n ∧ decompress c n v = some q := by
  unfold libPdec
  cases hx : decompressX P c x with
  | none => simp [hc, hx]
  | some n => cases hd : decompress c n v <;> simp [hc, hx, hd]

theorem ofNat_one_eq_iff {y : Nat} {v : BitVec 1} : BitVec.ofNat 1 y = v ↔ y % 2 = v.toNat := by
  rw [← BitVec.toNat_inj, BitVec.toNat_ofNat, pow_one]

theorem negated_of_ne_zero {p y : Nat} (hy : y ≠ 0) (hlt : y < p) : (p - y) % p = p - y := Nat.mod_eq_of_lt (by omega)

/-- With p odd, negation mod p changes the parity of everything but 0: a root whose negative has its parity is its own
negative. -/
theorem negated_eq_of_parity_eq {p y : Nat} (hodd : p % 2 = 1) (hlt : y < p) (h : (p - y) % p % 2 = y % 2) :
    (p - y) % p = y := by
  by_cases hy : y = 0
  · subst hy
    exact Nat.mod_self p
  · rw [negated_of_ne_zero hy hlt] at h
    omega

/-- The Y-coordinates LC_PDEC chooses from: the square root of the realisation and its negative (46 R256). -/
def IsRoot (c : Curve) (x y : Nat) : Prop :=
  ∃ y0, sqrtMod c.p (curveRhs c x) = some y0 ∧ (y = y0 ∨ y = (c.p - y0) % c.p)

/-- Decompression gives the root of the parity asked for, where there is one. -/
theorem decompress_eq_some_iff {c : Curve} (hodd : c.p % 2 = 1) {x : Nat} {v : BitVec 1} {q : Point} :
    decompress c x v = some q ↔ ∃ y, IsRoot c x y ∧ y % 2 = v.toNat ∧ q = .aff x y := by
  unfold decompress
  cases hs : sqrtMod c.p (curveRhs c x) with
  | none => simp [IsRoot, hs]
  | some y0 =>
    have hlt : y0 < c.p := sqrtMod_lt (by omega) hs
    have hroot : ∀ y, IsRoot c x y ↔ y = y0 ∨ y = (c.p - y0) % c.p := fun y => by simp [IsRoot, hs]
    simp only [hroot, ofNat_one_eq_iff]
    by_cases hv : y0 % 2 = v.toNat
    · rw [if_pos hv, if_pos hv]
      constructor
      · rintro ⟨⟩
        exact ⟨y0, .inl rfl, hv, rfl⟩
      · rintro ⟨y, rfl | rfl, hy, rfl⟩
        · rfl
        · rw [negated_eq_of_parity_eq hodd hlt (hy.trans hv.symm)]
    · rw [if_neg hv]
      constructor
      · intro h
        split at h
        · cases h; exact ⟨_, .inr rfl, ‹_›, rfl⟩
        · cases h
      · rintro ⟨y, rfl | rfl, hy, rfl⟩
        · exact absurd hy hv
        · rw [if_pos hy]

theorem isRoot_lt {c : Curve} (hp : 0 < c.p) {x y : Nat} (h : IsRoot c x y) : y < c.p := by
  obtain ⟨y0, hs, rfl | rfl⟩ := h
  · exact sqrtMod_lt hp hs
  · exact Nat.mod_lt _ hp

theorem isRoot_negated {c : Curve} (hp : 0 < c.p) {x y : Nat} (h : IsRoot c x y) : IsRoot c x ((c.p - y) % c.p) := by
  obtain ⟨y0, hs, rfl | rfl⟩ := h
  · exact ⟨y, hs, .inr rfl⟩
  · refine ⟨y0, hs, .inl ?_⟩
    have hlt : y0 < c.p := sqrtMod_lt hp hs
    by_cases hy : y0 = 0
    · simp [hy]
    · rw [negated_of_ne_zero hy hlt, show c.p - (c.p - y0) = y0 by omega, Nat.mod_eq_of_lt hlt]

theorem odd_of_goodCurve {c : Curve} (h : GoodCurve c) : c.p % 2 = 1 :=
  h.prime.eq_two_or_odd.resolve_left fun h2 => by have := h.large; omega

/-- One point has one parity, that of its Y-coordinate. -/
theorem parity_eq_of_decompress {c : Curve} (hodd : c.p % 2 = 1) {x : Nat} {v w : BitVec 1} {q : Point}
    (hv : decompress c x v = some q) (hw : decompress c x w = some q) : v = w := by
  obtain ⟨y, -, hy, rfl⟩ := (decompress_eq_some_iff hodd).1 hv
  obtain ⟨y', -, hy', h⟩ := (decompress_eq_some_iff hodd).1 hw
  cases h
  exact BitVec.eq_of_toNat_eq (hy.symm.trans hy')

/-- The other parity selects the other root. -/
theorem decompress_other_parity {c : Curve} (hodd : c.p % 2 = 1) {x a b : Nat} {v w : BitVec 1}
    (hv : decompress c x v = some (.aff a b)) (hb : b ≠ 0) (hvw : v ≠ w) :
    decompress c x w = some (negPoint c (.aff a b)) := by
  obtain ⟨y, hroot, hy, h⟩ := (decompress_eq_some_iff hodd).1 hv
  cases h
  have hp : 0 < c.p := by omega
  have hlt : b < c.p := isRoot_lt hp hroot
  have hne : v.toNat ≠ w.toNat := fun e => hvw (BitVec.eq_of_toNat_eq e)
  refine (decompress_eq_some_iff hodd).2 ⟨(c.p - b) % c.p, isRoot_negated hp hroot, ?_, rfl⟩
  rw [negated_of_ne_zero hb hlt]
  omega

/-- Settles O44: LC_PDEC gives the root of the parity asked for, and the two roots are negatives of each other mod the
odd p, so they differ in parity unless they are 0. -/
theorem selectorProperty : Obligations.SelectorProperty := by
  unfold Obligations.SelectorProperty
  intro P id c x hc hgood
  constructor
  · intro q v w hv hw
    obtain ⟨n, hn, hv⟩ := (libPdec_eq_point_iff hc).1 hv
    obtain ⟨m, hm, hw⟩ := (libPdec_eq_point_iff hc).1 hw
    cases hn.symm.trans hm
    exact parity_eq_of_decompress (odd_of_goodCurve hgood) hv hw
  · intro a b v w hv hb hvw
    obtain ⟨n, hn, hv⟩ := (libPdec_eq_point_iff hc).1 hv
    exact (libPdec_eq_point_iff hc).2 ⟨n, hn, decompress_other_parity (odd_of_goodCurve hgood) hv hb hvw⟩

/-! ### SETX (42 R190) -/

/-- Settles O19: SETX reads B[0] and writes what it read. -/
theorem setxRule : Obligations.SetxRule := by
  unfold Obligations.SetxRule
  intro s r hr
  exact execSetx_of hr

/-! ### DECOMP (42 R191) -/

theorem failsOn_of_commitPoint {v : BitVec 1} {i d : Instr} {c : PhaseCode} {iss : State → Except Fault State}
    {dst : PReg} {k : ErrKind} (op : CallOp v i d c iss (commitPoint c dst k)) : FailsOn i c k.code :=
  failsOn_of_commit op (fun _ => rfl) (fun _ => rfl) (fun _ => rfl)

/-- DECOMP issues the call of the parity that V holds (30_encoding R129). -/
theorem execDecomp_issue {s : State} {id : Byte} {x : Int} {v : BitVec 1} (hcp : s.seq.callpend = false)
    (hid : s.seq.curveid = some id) (hx : s.seq.b.get .bx = some x) (hv : s.seq.v = some v) :
    exec .decomp s = .next (issued (descriptor (.lcPdec .pr .bx v)) (.pdec id x) s) := by
  have hissue : issueDecomp s = issue (.lcPdec .pr .bx v) s := bind_of_ok (must_of hv) _
  rw [(callOp_decomp (v := v)).meaning, callStep_issue hcp, hissue, issue_of (gather_lcPdec hid hx), run_ok,
    sendCall_eq]

/-- Settles O20: the descriptor's last bit is V, and the commit is that of a point call whose DOMFAIL raises
InvalidPoint. -/
theorem decompRule : Obligations.DecompRule := by
  unfold Obligations.DecompRule
  refine ⟨?_, ?_, failsOn_of_commitPoint (callOp_decomp (v := 0))⟩
  · intro s id x hcp hid hx
    exact ⟨execDecomp_issue hcp hid hx, execDecomp_issue hcp hid hx⟩
  · intro s q hr
    exact exec_of_commit (callOp_decomp (v := 0)) hr rfl

end Sys2Proof.Proofs
end

section
/-! PROOFS. The subgroup check sequencer (43 R200, R201): ORDMUL and ORDCHK. -/

namespace Sys2Proof.Proofs

open Sys2Proof Sys2Proof.Machine Sys2Proof.Safety

/-! ### ORDMUL (43 R200) -/

/-- Settles O21: ORDMUL is a point call on n as B[6] holds it, with every failure an ArithmeticFailure. -/
theorem ordmulRule : Obligations.OrdmulRule := by
  unfold Obligations.OrdmulRule
  refine ⟨?_, ?_, failsOn_of_commitPoint (callOp_ordmul (v := 0))⟩
  · intro s id n r hcp hid hn hr
    exact exec_of_gather (callOp_ordmul (v := 0)) hcp (gather_lcPmul hid hn hr)
  · intro s q hret
    exact exec_of_commit (callOp_ordmul (v := 0)) hret rfl

/-! ### ORDCHK (43 R201) -/

/-- The answer 0 says that n·R is not the point at infinity. -/
theorem commitOrdchk_of_zero (s : State) :
    commitOrdchk s (.ok (.bit 0)) = .ok (raise .invalidPoint Code.ordchk s) := rfl

/-- The answer 1 says that it is, and goes to INFF. -/
theorem commitOrdchk_of_one (s : State) :
    commitOrdchk s (.ok (.bit 1)) = .ok (complete Code.ordchk (writeInff s.seq ()) s) := rfl

theorem failsOn_ordchk : FailsOn .ordchk Code.ordchk 4 :=
  failsOn_of_commit (callOp_ordchk (v := 0)) (k := .arithmeticFailure) (fun _ => rfl) (fun _ => rfl) (fun _ => rfl)

/-- Settles O22: the commit passes on the answer 1 and raises InvalidPoint on the answer 0, apart from the failures of
the call itself. -/
theorem ordchkRule : Obligations.OrdchkRule := by
  unfold Obligations.OrdchkRule
  refine ⟨?_, ?_, ?_, failsOn_ordchk⟩
  · intro s q hcp hq
    exact exec_of_gather (callOp_ordchk (v := 0)) hcp (gather_lcPinf hq)
  · intro s hret
    exact exec_of_commit (callOp_ordchk (v := 0)) hret (commitOrdchk_of_one s)
  · intro s hret
    exact exec_of_commit (callOp_ordchk (v := 0)) hret (commitOrdchk_of_zero s)

end Sys2Proof.Proofs
end

section
/-! PROOFS. The library's mathematics (46 R248, R249, R256): Euclid's algorithm gives the modular inverse of every
integer prime to the modulus, the square root is found where there is one, and so a point is decompressed from its
X-coordinate and the parity of its Y-coordinate; byte strings as integers. -/

namespace Sys2Proof.Proofs

open Sys2Proof Sys2Proof.Machine Sys2Proof.Safety

/-! ### Byte strings as integers (00_scope R16) -/

theorem be_eq_positional (bytes : List Byte) : be bytes = positional 256 (bytes.map BitVec.toNat) := by
  simp [be, positional, Nat.ofDigits_eq_foldr, List.foldl_map, Nat.add_comm]

@[simp] theorem i2osp_length (v n : Nat) : (i2osp v n).length = n := by
  induction n with
  | zero => rfl
  | succ n ih => rw [i2osp, List.length_cons, ih]

/-! ### Euclid's algorithm and the modular inverse (46 R248) -/

/-- A step of Euclid's algorithm keeps the greatest common divisor. -/
theorem euclid_step_gcd (r0 r1 : Nat) : Nat.gcd r1 (r0 % r1) = Nat.gcd r0 r1 := by
  rw [Nat.gcd_comm r1, ← Nat.gcd_rec, Nat.gcd_comm]

/-- A step of Euclid's algorithm at least halves the product of its two numbers. -/
theorem euclid_step_halves {r0 r1 : Nat} (hpos : 0 < r1) (hle : r1 ≤ r0) : 2 * (r1 * (r0 % r1)) < r0 * r1 := by
  have hmod : r0 % r1 < r1 := Nat.mod_lt _ hpos
  have hdiv : 1 ≤ r0 / r1 := Nat.div_pos hle hpos
  have hsplit : r1 + r0 % r1 ≤ r0 := by
    calc r1 + r0 % r1 ≤ r1 * (r0 / r1) + r0 % r1 := Nat.add_le_add_right (Nat.le_mul_of_pos_right _ hdiv) _
      _ = r0 := Nat.div_add_mod r0 r1
  calc 2 * (r1 * (r0 % r1)) = 2 * (r0 % r1) * r1 := by ring
    _ < r0 * r1 := Nat.mul_lt_mul_of_pos_right (by omega) hpos

/-- With fuel for every halving of the product, Euclid's algorithm ends in the greatest common divisor. -/
theorem euclid_gcd {fuel r0 r1 : Nat} (t0 t1 : Int) (hle : r1 ≤ r0) (hpos : 0 < r0) (hfuel : r0 * r1 < 2 ^ fuel) :
    (euclid fuel r0 r1 t0 t1).1 = Nat.gcd r0 r1 := by
  induction fuel generalizing r0 r1 t0 t1 with
  | zero =>
    obtain rfl : r1 = 0 := by
      by_contra hr1
      have := Nat.mul_pos hpos (Nat.pos_of_ne_zero hr1)
      omega
    simp [euclid]
  | succ fuel ih =>
    by_cases hr1 : r1 = 0
    · simp [euclid, hr1]
    · have hpos1 : 0 < r1 := Nat.pos_of_ne_zero hr1
      have hfuel' : r1 * (r0 % r1) < 2 ^ fuel := by
        have hhalf := euclid_step_halves hpos1 hle
        rw [pow_succ] at hfuel
        omega
      rw [euclid, if_neg hr1, ih _ _ (Nat.mod_lt _ hpos1).le hpos1 hfuel', euclid_step_gcd]

/-- Each of the two numbers stays its coefficient times v mod m. -/
theorem euclid_coefficient {fuel r0 r1 : Nat} {t0 t1 v m : Int} (h0 : (r0 : Int) ≡ t0 * v [ZMOD m])
    (h1 : (r1 : Int) ≡ t1 * v [ZMOD m]) :
    ((euclid fuel r0 r1 t0 t1).1 : Int) ≡ (euclid fuel r0 r1 t0 t1).2 * v [ZMOD m] := by
  induction fuel generalizing r0 r1 t0 t1 with
  | zero => exact h0
  | succ fuel ih =>
    by_cases hr1 : r1 = 0
    · simpa only [euclid, if_pos hr1] using h0
    · rw [euclid, if_neg hr1]
      refine ih h1 ?_
      have hmod : ((r0 % r1 : Nat) : Int) = r0 - (r0 / r1 : Nat) * r1 := by push_cast; rw [Int.emod_def]; ring
      calc ((r0 % r1 : Nat) : Int) = r0 - (r0 / r1 : Nat) * r1 := hmod
        _ ≡ t0 * v - (r0 / r1 : Nat) * (t1 * v) [ZMOD m] := h0.sub (h1.mul_left _)
        _ = (t0 - (r0 / r1 : Nat) * t1) * v := by ring

theorem modInv_fuel {m v : Nat} (hm : 0 < m) : m * (v % m) < 2 ^ (2 * m.log2 + 4) := by
  have hlog : m < 2 ^ (m.log2 + 1) := Nat.lt_log2_self
  calc m * (v % m) < 2 ^ (m.log2 + 1) * 2 ^ (m.log2 + 1) := Nat.mul_lt_mul'' hlog ((Nat.mod_lt v hm).trans hlog)
    _ ≤ 2 ^ (2 * m.log2 + 4) := by rw [← pow_add]; exact Nat.pow_le_pow_right (by decide) (by omega)

/-- An integer prime to the modulus has an inverse, and it is the one that the library computes. -/
theorem modInv_of_coprime {m v : Nat} (hm : 2 ≤ m) (hv : Nat.Coprime v m) :
    ∃ w, modInv m v = some w ∧ (v : Int) * w ≡ 1 [ZMOD m] := by
  have hpos : 0 < m := by omega
  have hone : (euclid (2 * m.log2 + 4) m (v % m) 0 1).1 = 1 := by
    rw [euclid_gcd 0 1 (Nat.mod_lt v hpos).le hpos (modInv_fuel hpos), euclid_step_gcd]
    exact hv
  have hcoef := euclid_coefficient (fuel := 2 * m.log2 + 4) (r0 := m) (r1 := v % m) (t0 := 0) (t1 := 1) (v := v)
    (m := m) (by simp [Int.ModEq]) (by simp [Int.ModEq])
  refine ⟨_, by rw [modInv, if_pos hone], ?_⟩
  rw [hone] at hcoef
  rw [Int.toNat_of_nonneg (Int.emod_nonneg _ (by omega)), mul_comm]
  exact ((Int.mod_modEq _ _).mul_right _).trans hcoef.symm

/-- LC_BNINV of an integer in [1, n-1] modulo a prime n. -/
theorem libBninv_of_prime {n r : Nat} (hn : n.Prime) (hr : r ≠ 0) (hlt : r < n) :
    ∃ w : Nat, libBninv r n = .ok (.int w) ∧ (r : Int) * w ≡ 1 [ZMOD n] := by
  have hcop : Nat.Coprime r n := (Nat.coprime_of_lt_prime hr hlt hn).symm
  obtain ⟨w, hw, hinv⟩ := modInv_of_coprime hn.two_le hcop
  refine ⟨w, ?_, hinv⟩
  have hv : ((r : Int) % (n : Int)).toNat = r := by rw [← Int.natCast_mod, Int.toNat_natCast, Nat.mod_eq_of_lt hlt]
  rw [libBninv, if_pos (by exact_mod_cast hn.two_le), hv, Int.toNat_natCast, hw]

/-! ### Square roots (46 R256) -/

/-- Squaring with fuel for every bit of the exponent gives the power. -/
theorem powMod_eq {m b fuel e : Nat} (he : e < 2 ^ fuel) : powMod m b fuel e = b ^ e % m := by
  induction fuel generalizing e with
  | zero =>
    obtain rfl : e = 0 := by omega
    rfl
  | succ fuel ih =>
    by_cases h0 : e = 0
    · simp [powMod, h0]
    · have hhalf : powMod m b fuel (e / 2) = b ^ (e / 2) % m := ih (by rw [pow_succ] at he; omega)
      rw [powMod, if_neg h0, hhalf]
      by_cases hodd : e % 2 = 1
      · have hsum : e = e / 2 + e / 2 + 1 := by omega
        rw [if_pos hodd]
        conv_rhs => rw [hsum, pow_succ, pow_add]
        simp [Nat.mul_mod]
      · have hsum : e = e / 2 + e / 2 := by omega
        rw [if_neg hodd]
        conv_rhs => rw [hsum, pow_add]
        simp [Nat.mul_mod]

theorem searchRoot_sound {p w k y : Nat} (h : searchRoot p w k = some y) : y * y % p = w := by
  induction k with
  | zero => cases h
  | succ k ih =>
    rw [searchRoot] at h
    split at h
    · cases h; assumption
    · exact ih h

theorem searchRoot_complete {p w k z : Nat} (hz : z < k) (hroot : z * z % p = w) : ∃ y, searchRoot p w k = some y := by
  induction k with
  | zero => omega
  | succ k ih =>
    rw [searchRoot]
    by_cases hk : k * k % p = w
    · exact ⟨k, if_pos hk⟩
    · rw [if_neg hk]
      have hne : z ≠ k := fun h => hk (h ▸ hroot)
      exact ih (by omega)

/-- Where p mod 4 = 3, a square to the power (p+1)/4 is a square root of it: z^(p+1) is z^2, by Fermat. -/
theorem pow_quarter_sq {p z : Nat} (hp : p.Prime) (h3 : p % 4 = 3) :
    (z * z) ^ ((p + 1) / 4) * (z * z) ^ ((p + 1) / 4) ≡ z * z [MOD p] := by
  have : Fact p.Prime := ⟨hp⟩
  rw [← ZMod.natCast_eq_natCast_iff]
  have hexp : 2 * (2 * ((p + 1) / 4)) = p + 1 := by omega
  push_cast
  calc ((z : ZMod p) * z) ^ ((p + 1) / 4) * ((z : ZMod p) * z) ^ ((p + 1) / 4)
      = (z : ZMod p) ^ (2 * (2 * ((p + 1) / 4))) := by ring
    _ = (z : ZMod p) * z := by rw [hexp, pow_succ, ZMod.pow_card]

theorem sqrtMod_sound {p w y : Nat} (h : sqrtMod p w = some y) : y * y % p = w := by
  unfold sqrtMod at h
  split at h
  · simp only at h
    split at h
    · cases h; assumption
    · cases h
  · exact searchRoot_sound h

/-- For a prime p a root is found where there is one. -/
theorem sqrtMod_complete {p w z : Nat} (hp : p.Prime) (hz : z < p) (hroot : z * z % p = w) :
    ∃ y, sqrtMod p w = some y := by
  unfold sqrtMod
  by_cases h3 : p % 4 = 3
  · rw [if_pos h3]
    have hfuel : (p + 1) / 4 < 2 ^ (p.log2 + 1) := by
      have : p < 2 ^ (p.log2 + 1) := Nat.lt_log2_self
      omega
    have hw : w ≡ z * z [MOD p] := by rw [← hroot]; exact Nat.mod_modEq _ _
    have hpow : powMod p w (p.log2 + 1) ((p + 1) / 4) ≡ (z * z) ^ ((p + 1) / 4) [MOD p] := by
      rw [powMod_eq hfuel]
      exact (Nat.mod_modEq _ _).trans (hw.pow _)
    have hsq := (hpow.mul hpow).trans (pow_quarter_sq hp h3)
    exact ⟨_, if_pos (Eq.trans hsq hroot)⟩
  · rw [if_neg h3]
    exact searchRoot_complete hz hroot

/-- Two roots of one square mod a prime are equal or negatives of each other. -/
theorem root_unique {p y z : Nat} (hp : p.Prime) (hy : y < p) (hz : z < p) (h : y * y ≡ z * z [MOD p]) :
    y = z ∨ y = (p - z) % p := by
  have hdvd : (p : Int) ∣ ((z : Int) - y) * (z + y) := by
    have hsub := Nat.modEq_iff_dvd.1 h
    push_cast at hsub
    rwa [show ((z : Int) - y) * (z + y) = z * z - y * y by ring]
  rcases (Nat.prime_iff_prime_int.1 hp).dvd_or_dvd hdvd with hd | hd
  · left
    exact (Nat.modEq_iff_dvd.2 hd).eq_of_lt_of_lt hy hz
  · right
    have hneg : y ≡ p - z [MOD p] := by
      rw [Nat.modEq_iff_dvd, Nat.cast_sub hz.le, show (p : Int) - z - y = p - (z + y) by ring]
      exact (dvd_refl _).sub hd
    exact (Nat.mod_eq_of_lt hy).symm.trans hneg

/-! ### Decompression (46 R249) -/

/-- The Y-coordinates LC_PDEC chooses from are those of the curve's points. -/
theorem isRoot_of_onCurve {c : Curve} (hc : GoodCurve c) {x y : Nat} (h : onCurve c (.aff x y)) : IsRoot c x y := by
  obtain ⟨-, hy, hroot⟩ := h
  obtain ⟨y0, hy0⟩ := sqrtMod_complete hc.prime hy hroot
  exact ⟨y0, hy0, root_unique hc.prime hy (sqrtMod_lt hc.prime.pos hy0) (hroot.trans (sqrtMod_sound hy0).symm)⟩

/-- LC_PDEC gives back a point from its X-coordinate and the parity of its Y-coordinate. -/
theorem libPdec_of_onCurve {P : Params} {id : Byte} {c : Curve} (hc : findCurve P.table id = some c)
    (hgood : GoodCurve c) {x y : Nat} (h : onCurve c (.aff x y)) {v : BitVec 1} (hv : y % 2 = v.toNat) :
    libPdec P id x v = .ok (.point (.aff x y)) := by
  have hx : (x : Int) < c.p := by exact_mod_cast h.1
  have hdec : decompressX P c x = some x := by
    rw [decompressX, if_neg (by omega), if_pos hx, Int.toNat_natCast]
  exact (libPdec_eq_point_iff hc).2 ⟨x, hdec,
    (decompress_eq_some_iff (odd_of_goodCurve hgood)).2 ⟨y, isRoot_of_onCurve hgood h, hv, rfl⟩⟩

end Sys2Proof.Proofs
end

section
/-! PROOFS. Scalar multiplication (46 R241, R250) on a curve that obeys (LAW1): the curve's points are a commutative
group, doubling and adding gives the group's multiples, and so multiplication by an integer is additive and
multiplicative in the integer, and depends on it only mod an integer that takes the point to INF. -/

namespace Sys2Proof.Proofs

open Sys2Proof Sys2Proof.Machine Sys2Proof.Safety

/-- The points of the curve. -/
abbrev CurvePoint (c : Curve) : Type := { q : Point // onCurve c q }

/-- (LAW1) as a commutative group on the points of the curve, under the model's addition and negation. -/
abbrev pointGroup {c : Curve} (h : GroupLaws c) : AddCommGroup (CurvePoint c) :=
  letI : Add (CurvePoint c) := ⟨fun P Q => ⟨addPoint c P.1 Q.1, h.addClosed _ _ P.2 Q.2⟩⟩
  letI : Zero (CurvePoint c) := ⟨⟨.inf, trivial⟩⟩
  letI : Neg (CurvePoint c) := ⟨fun P => ⟨negPoint c P.1, h.negClosed _ P.2⟩⟩
  { AddGroup.ofLeftAxioms (fun P Q R => Subtype.ext (h.assoc _ _ _ P.2 Q.2 R.2)) (fun _ => rfl)
      (fun P => Subtype.ext ((h.comm _ _ (h.negClosed _ P.2) P.2).trans (h.neg _ P.2))) with
    add_comm := fun P Q => Subtype.ext (h.comm _ _ P.2 Q.2) }

section Multiples

variable {c : Curve} {q : Point}

/-- The multiple of a point of the curve in the curve's group. -/
def groupMul (h : GroupLaws c) (k : Int) (P : CurvePoint c) : CurvePoint c :=
  letI := pointGroup h
  k • P

theorem groupMul_zero (h : GroupLaws c) (P : CurvePoint c) : (groupMul h 0 P).1 = .inf :=
  let _ := pointGroup h
  congrArg Subtype.val (zero_zsmul P)

theorem groupMul_one (h : GroupLaws c) (P : CurvePoint c) : groupMul h 1 P = P :=
  let _ := pointGroup h
  one_zsmul P

theorem groupMul_inf (h : GroupLaws c) (k : Int) : (groupMul h k ⟨.inf, trivial⟩).1 = .inf :=
  let _ := pointGroup h
  congrArg Subtype.val (zsmul_zero k)

theorem groupMul_add (h : GroupLaws c) (j k : Int) (P : CurvePoint c) :
    (groupMul h (j + k) P).1 = addPoint c (groupMul h j P).1 (groupMul h k P).1 :=
  let _ := pointGroup h
  congrArg Subtype.val (add_zsmul P j k)

theorem groupMul_mul (h : GroupLaws c) (j k : Int) (P : CurvePoint c) :
    groupMul h (j * k) P = groupMul h j (groupMul h k P) :=
  let _ := pointGroup h
  mul_zsmul P j k

theorem groupMul_neg_negPoint (h : GroupLaws c) (k : Int) (P : CurvePoint c) :
    groupMul h (-k) ⟨negPoint c P.1, h.negClosed _ P.2⟩ = groupMul h k P :=
  let _ := pointGroup h
  neg_smul_neg k P

theorem mulBits_succ (q : Point) (fuel : Nat) {k : Nat} (hk : k ≠ 0) :
    mulBits c q (fuel + 1) k =
      if k % 2 = 1 then addPoint c (addPoint c (mulBits c q fuel (k / 2)) (mulBits c q fuel (k / 2))) q
      else addPoint c (mulBits c q fuel (k / 2)) (mulBits c q fuel (k / 2)) := if_neg hk

/-- Doubling and adding with fuel for every bit of k gives the group's multiple. -/
theorem mulBits_eq_groupMul (h : GroupLaws c) (P : CurvePoint c) {fuel k : Nat} (hk : k < 2 ^ fuel) :
    mulBits c P.1 fuel k = (groupMul h k P).1 := by
  induction fuel generalizing k with
  | zero =>
    obtain rfl : k = 0 := by omega
    exact (groupMul_zero h P).symm
  | succ fuel ih =>
    by_cases h0 : k = 0
    · subst h0
      exact (groupMul_zero h P).symm
    · have hhalf : mulBits c P.1 fuel (k / 2) = (groupMul h (k / 2 : Nat) P).1 := ih (by rw [pow_succ] at hk; omega)
      rw [mulBits_succ _ _ h0, hhalf, ← groupMul_add]
      by_cases hodd : k % 2 = 1
      · rw [if_pos hodd, show (k : Int) = (k / 2 : Nat) + (k / 2 : Nat) + 1 by omega, groupMul_add h _ 1,
          groupMul_one]
      · rw [if_neg hodd, show (k : Int) = (k / 2 : Nat) + (k / 2 : Nat) by omega]

/-- LC_PMUL's multiple is the group's, for every integer. -/
theorem mulPoint_eq_groupMul (h : GroupLaws c) (k : Int) (P : CurvePoint c) :
    mulPoint c k P.1 = (groupMul h k P).1 := by
  unfold mulPoint mulNat
  split
  case isTrue hk =>
    rw [mulBits_eq_groupMul h P Nat.lt_log2_self, Int.toNat_of_nonneg hk]
  case isFalse hk =>
    rw [mulBits_eq_groupMul h ⟨_, h.negClosed _ P.2⟩ Nat.lt_log2_self, Int.toNat_of_nonneg (by omega),
      groupMul_neg_negPoint]

theorem mulPoint_onCurve (h : GroupLaws c) (hq : onCurve c q) (k : Int) : onCurve c (mulPoint c k q) :=
  mulPoint_eq_groupMul h k ⟨q, hq⟩ ▸ (groupMul h k ⟨q, hq⟩).2

theorem mulPoint_add (h : GroupLaws c) (hq : onCurve c q) (j k : Int) :
    mulPoint c (j + k) q = addPoint c (mulPoint c j q) (mulPoint c k q) := by
  simp only [mulPoint_eq_groupMul h _ ⟨q, hq⟩, groupMul_add]

theorem mulPoint_mul (h : GroupLaws c) (hq : onCurve c q) (j k : Int) :
    mulPoint c (j * k) q = mulPoint c j (mulPoint c k q) := by
  rw [mulPoint_eq_groupMul h k ⟨q, hq⟩, mulPoint_eq_groupMul h j, mulPoint_eq_groupMul h _ ⟨q, hq⟩, groupMul_mul]

/-- Multiples by integers that are congruent mod an n that takes the point to INF are equal. -/
theorem mulPoint_congr (h : GroupLaws c) (hq : onCurve c q) {n j k : Int} (hn : mulPoint c n q = .inf)
    (hjk : j ≡ k [ZMOD n]) : mulPoint c j q = mulPoint c k q := by
  obtain ⟨m, hm⟩ := hjk.symm.dvd
  have hinf : mulPoint c (m * n) q = .inf := by
    rw [mulPoint_mul h hq, hn, mulPoint_eq_groupMul h m ⟨.inf, trivial⟩, groupMul_inf]
  rw [show j = k + m * n by linarith, mulPoint_add h hq, hinf, h.zero _ (mulPoint_onCurve h hq k)]

end Multiples

end Sys2Proof.Proofs
end

section
/-! PROOFS. The scalar-multiplication call dispatcher (44 R210 to R216): ELOAD, INV, MULS, NEG, MULG, ADD, MULQ, each an
integer call or a point call of the shared rules. -/

namespace Sys2Proof.Proofs

open Sys2Proof Sys2Proof.Machine Sys2Proof.Safety

/-! ### ELOAD and INV (44 R210, R211) -/

/-- Settles O23: DEFF is no more than DLEN and LMAX, so the bytes that ELOAD reads are within DIGEST's valid length. -/
theorem eloadRule : Obligations.EloadRule := by
  unfold Obligations.EloadRule
  refine ⟨?_, ?_, failsOn_of_commitInt (callOp_eload (v := 0))⟩
  · intro s e d bytes hcp he hd hed hemax hbytes
    exact exec_of_gather (callOp_eload (v := 0)) hcp (gather_lcBnbin (readDigest_of he hd (le_min hed hemax) hbytes))
  · intro s v hret
    exact exec_of_commit (callOp_eload (v := 0)) hret rfl

/-- Settles O24: INV is the integer call whose DOMFAIL raises NoInverse. -/
theorem invertRule : Obligations.InvertRule := by
  unfold Obligations.InvertRule
  refine ⟨?_, ?_, failsOn_of_commitInt (callOp_inv (v := 0))⟩
  · intro s r n hcp hr hn
    exact exec_of_gather (callOp_inv (v := 0)) hcp (gather_lcBninv hr hn)
  · intro s v hret
    exact exec_of_commit (callOp_inv (v := 0)) hret rfl

/-! ### MULS, MULG and MULQ (44 R212, R214, R216) -/

/-- Settles O25: the three are point calls on a scalar, a point and CURVEID, with every failure an ArithmeticFailure. -/
theorem multiplyRules : Obligations.MultiplyRules := by
  unfold Obligations.MultiplyRules
  refine ⟨?_, ?_, failsOn_of_commitPoint (callOp_muls (v := 0)), ?_, ?_, failsOn_of_commitPoint (callOp_mulg (v := 0)),
    ?_, ?_, failsOn_of_commitPoint (callOp_mulq (v := 0))⟩
  · intro s id k r hcp hid hk hr
    exact exec_of_gather (callOp_muls (v := 0)) hcp (gather_lcPmul hid hk hr)
  · intro s q hret
    exact exec_of_commit (callOp_muls (v := 0)) hret rfl
  · intro s id k g hcp hid hk hg
    exact exec_of_gather (callOp_mulg (v := 0)) hcp (gather_lcPmul hid hk hg)
  · intro s q hret
    exact exec_of_commit (callOp_mulg (v := 0)) hret rfl
  · intro s id k u hcp hid hk hu
    exact exec_of_gather (callOp_mulq (v := 0)) hcp (gather_lcPmul hid hk hu)
  · intro s q hret
    exact exec_of_commit (callOp_mulq (v := 0)) hret rfl

/-! ### NEG and ADD (44 R213, R215) -/

/-- Settles O26: NEG is an integer call and ADD a point call, with every failure an ArithmeticFailure. -/
theorem negAddRules : Obligations.NegAddRules := by
  unfold Obligations.NegAddRules
  refine ⟨?_, ?_, failsOn_of_commitInt (callOp_neg (v := 0)), ?_, ?_, failsOn_of_commitPoint (callOp_add (v := 0))⟩
  · intro s e hcp he
    exact exec_of_gather (callOp_neg (v := 0)) hcp (gather_lcBnneg he)
  · intro s v hret
    exact exec_of_commit (callOp_neg (v := 0)) hret rfl
  · intro s id a b hcp hid ha hb
    exact exec_of_gather (callOp_add (v := 0)) hcp (gather_lcPadd hid ha hb)
  · intro s q hret
    exact exec_of_commit (callOp_add (v := 0)) hret rfl

end Sys2Proof.Proofs
end

section
/-! PROOFS. The recovery is right (44 R217): on a lawful curve the call of each micro-op answers what the signing
equations say, in multiples of G, and the last multiple is d·G; `SignerRecovers`. -/

namespace Sys2Proof.Proofs

open Sys2Proof Sys2Proof.Machine Sys2Proof.Safety

/-! ### The answers of a curve's calls -/

section Answers

variable {P : Params} {id : Byte} {c : Curve}

theorem libPmul_of (hc : findCurve P.table id = some c) (k : Int) (q : Point) :
    libPmul P id k q = .ok (.point (mulPoint c k q)) := by
  rw [libPmul, hc]

theorem libPadd_of (hc : findCurve P.table id = some c) (a b : Point) :
    libPadd P id a b = .ok (.point (addPoint c a b)) := by
  rw [libPadd, hc]

theorem drawn_of_no_draw (code : PhaseCode) (a : LRet) : drawn (fun _ => false) code a = a := rfl

theorem wantInt_int (code : PhaseCode) (k : ErrKind) (v : Int) : wantInt code k (.ok (.int v)) = .ok v := rfl

theorem wantPoint_point (code : PhaseCode) (k : ErrKind) (q : Point) : wantPoint code k (.ok (.point q)) = .ok q := rfl

theorem wantInfinity_inf : wantInfinity (libPinf .inf) = .ok () := rfl

/-- CURVE takes the parameters of an entry that are in range for LMAX (41 R172). -/
theorem wantCurve_of (hc : findCurve P.table id = some c) (hmin : 1 ≤ c.l) (hmax : c.l ≤ P.lmax)
    (hp : c.p < 256 ^ c.l) (hn : c.n < 2 ^ (8 * P.lmax + 1)) :
    wantCurve P.lmax (libCurve P id) = .ok (c.p, c.n, c.g, c.l) := by
  rw [libCurve, hc]
  exact if_pos ⟨hmin, hmax, hp, hn⟩

/-- ENC takes the format byte and the two coordinates of a point that fits L bytes (45 R230). -/
theorem wantBytes_of (hc : findCurve P.table id = some c) {x y : Nat} (hx : x < 256 ^ c.l) (hy : y < 256 ^ c.l) :
    wantBytes c.l (libPenc P id (.aff x y)) = .ok (Config.formatByte id x y :: (i2osp x c.l ++ i2osp y c.l)) := by
  have hlen : (Config.formatByte id x y :: (i2osp x c.l ++ i2osp y c.l)).length = 2 * c.l + 1 := by
    simp only [List.length_cons, List.length_append, i2osp_length]
    omega
  have henc : libPenc P id (.aff x y) = .ok (.bytes (Config.formatByte id x y :: (i2osp x c.l ++ i2osp y c.l))) := by
    simp [libPenc, hc, hx, hy]
  rw [henc]
  exact if_pos hlen

end Answers

/-! ### The signing equations (44 R217) -/

/-- From s = k⁻¹·(e + r·d) the multiples that MULS and MULG bring, s·k and -e, make r·d, and INV's r⁻¹ leaves d. -/
theorem scalar_of_signature {n d k kinv e r s ri : Int} (hk : k * kinv ≡ 1 [ZMOD n])
    (hs : s ≡ kinv * (e + r * d) [ZMOD n]) (hri : r * ri ≡ 1 [ZMOD n]) : ri * (s * k + -e) ≡ d [ZMOD n] := by
  have hsk : s * k ≡ e + r * d [ZMOD n] := by
    calc s * k ≡ kinv * (e + r * d) * k [ZMOD n] := hs.mul_right k
      _ = k * kinv * (e + r * d) := by ring
      _ ≡ 1 * (e + r * d) [ZMOD n] := hk.mul_right _
      _ = e + r * d := one_mul _
  calc ri * (s * k + -e) ≡ ri * (e + r * d + -e) [ZMOD n] := (hsk.add_right _).mul_left ri
    _ = r * ri * d := by ring
    _ ≡ 1 * d [ZMOD n] := hri.mul_right d
    _ = d := one_mul d

/-- What INV, MULS, NEG, MULG, ADD and MULQ compute from R = k·G is d·G. -/
theorem mulPoint_of_signature {c : Curve} (hc : LawfulCurve c) {d k kinv e r s ri : Int}
    (hk : k * kinv ≡ 1 [ZMOD c.n]) (hs : s ≡ kinv * (e + r * d) [ZMOD c.n]) (hri : r * ri ≡ 1 [ZMOD c.n]) :
    mulPoint c ri (addPoint c (mulPoint c s (mulPoint c k c.g)) (mulPoint c (-e) c.g)) = mulPoint c d c.g := by
  rw [← mulPoint_mul hc.laws hc.base, ← mulPoint_add hc.laws hc.base, ← mulPoint_mul hc.laws hc.base]
  exact mulPoint_congr hc.laws hc.base (hc.kills _ hc.base) (scalar_of_signature hk hs hri)

/-! ### The whole recovery -/

/-- Settles O59: every call answers as on a lawful curve, ORDCHK passes by (LAW4), and the point that ENC encodes is the
signer's public key. -/
theorem signerRecovers : Obligations.SignerRecovers := by
  unfold Obligations.SignerRecovers
  intro P recid curveid c digest rhex shex v d k kinv e r s y X Y hc hlaw hmin hmax hn _ _ _ _ hkinv hR hrn hr0 he hs _
    hrhex hshex hv hparity hQ
  have hRon : onCurve c (.aff r y) := hR ▸ mulPoint_onCurve hlaw.laws hlaw.base k
  have hQon : onCurve c (.aff X Y) := hQ ▸ mulPoint_onCurve hlaw.laws hlaw.base d
  have hcurve := wantCurve_of hc hmin hmax hlaw.width hn
  have hdec : libPdec P curveid r v = .ok (.point (.aff r y)) := libPdec_of_onCurve hc hlaw.good hRon hparity.symm
  have hbin : libBnbin (digest.take c.l) = .ok (.int e) := by rw [libBnbin, be_eq_positional, he]
  obtain ⟨ri, hinv, hri⟩ := libBninv_of_prime hlaw.order hr0 hrn
  have hkmod : (k : Int) * kinv ≡ 1 [ZMOD c.n] := by
    exact_mod_cast Int.natCast_modEq_iff.2 (hkinv.trans (Nat.mod_eq_of_lt hlaw.order.one_lt).symm)
  have hsmod : (s : Int) ≡ kinv * (e + r * d) [ZMOD c.n] := by
    exact_mod_cast Int.natCast_modEq_iff.2 (hs ▸ Nat.mod_modEq _ _)
  have hkey : mulPoint c ri (addPoint c (mulPoint c s (.aff r y)) (mulPoint c (-e) c.g)) = .aff X Y := by
    rw [← hR, mulPoint_of_signature hlaw hkmod hsmod hri, hQ]
  have henc := wantBytes_of hc (hQon.1.trans hlaw.width) (hQon.2.1.trans hlaw.width)
  simp only [recovered, drawn_of_no_draw, bind, Except.bind, hv, hcurve, hrhex, hshex, hdec, libPmul_of hc,
    hlaw.kills _ hRon, wantInfinity_inf, hbin, hinv, libBnneg, libPadd_of hc, hkey, henc, wantInt_int, wantPoint_point,
    List.drop_succ_cons, List.drop_zero]

end Sys2Proof.Proofs
end

section
/-! PROOFS. Result encoding (45 R230, R231): what ENC stores in ENCBUF and what STRIP moves to RESULT, with the rest of
each buffer left as it was. -/

namespace Sys2Proof.Proofs

open Sys2Proof Sys2Proof.Machine Sys2Proof.Safety

/-! ### A string stored from index 0 -/

/-- With a count of its bytes that the length register holds, the string is what is read back, and every index from the
count on is as it was (20_memory R82). -/
theorem writeCells_zero_spec (cells : List Host.Cell) {bytes : List Byte} {n : Nat} (hn : n = bytes.length) :
    readCells (writeCells cells 0 bytes) 0 n = some bytes ∧
      ∀ k, n ≤ k → readCell (writeCells cells 0 bytes) k = readCell cells k := by
  subst hn
  refine ⟨readCells_writeCells cells 0 bytes, fun k hk => ?_⟩
  rw [readCell_writeCells, if_neg (by omega)]

/-! ### ENC (45 R230) -/

theorem commitEnc_of_length {s : State} {l : Byte} {bytes : List Byte} (hl : s.seq.cpL = some l)
    (hmax : l.toNat ≤ s.lib.params.lmax) (hx : bytes.length = 2 * l.toNat + 1) :
    commitEnc s (.ok (.bytes bytes)) = .ok (complete Code.enc (writeEncoding s.seq bytes) s) := by
  have hwant : wantBytes l.toNat (.ok (.bytes bytes)) = .ok bytes := if_pos hx
  obtain ⟨x, hw, hc⟩ | ⟨k, hw, -⟩ := settles_commitEnc .pq hl hmax (.ok (.bytes bytes)) rfl
  · cases hwant.symm.trans hw
    exact hc
  · cases hwant.symm.trans hw

theorem commitEnc_of_length_ne {s : State} {l : Byte} {bytes : List Byte} (hl : s.seq.cpL = some l)
    (hx : bytes.length ≠ 2 * l.toNat + 1) :
    commitEnc s (.ok (.bytes bytes)) = .ok (raise .arithmeticFailure Code.enc s) :=
  (bind_of_ok (must_of hl) _).trans (if_neg hx)

theorem failsOn_enc : FailsOn .enc Code.enc 4 :=
  failsOn_of_commit (callOp_enc (v := 0)) (k := .arithmeticFailure) (fun _ => rfl) (fun _ => rfl) (fun _ => rfl)

/-- Settles O27: the commit asks for 2·L + 1 bytes, which nine bits of ENCLEN count for every L of eight bits. -/
theorem encRule : Obligations.EncRule := by
  unfold Obligations.EncRule
  refine ⟨?_, ?_, ?_, failsOn_enc⟩
  · intro s id q hcp hid hq
    exact exec_of_gather (callOp_enc (v := 0)) hcp (gather_lcPenc hid hq)
  · intro s l bytes hret hl hmax hx
    have hn : (BitVec.ofNat 9 bytes.length).toNat = bytes.length := Nat.mod_eq_of_lt (by omega)
    obtain ⟨hread, hrest⟩ := writeCells_zero_spec s.seq.mem.encbuf hn
    exact ⟨_, _, hn.trans hx, hread, hrest,
      exec_of_commit (callOp_enc (v := 0)) hret (commitEnc_of_length hl hmax hx)⟩
  · intro s l bytes hret hl hx
    exact exec_of_commit (callOp_enc (v := 0)) hret (commitEnc_of_length_ne hl hx)

/-! ### STRIP (45 R231) -/

/-- Settles O28: the read of 2·L bytes is within ENCLEN and their write within RESULT, and with L <= 127 the eight bits
of RLENB count them. -/
theorem stripRule : Obligations.StripRule := by
  unfold Obligations.StripRule
  intro s l m bytes hl h127 hmax hm hle hx
  have hlen : bytes.length = 2 * l.toNat := ((readCells_eq_some _ _ _ _).1 hx).1
  have hn : (BitVec.ofNat 8 (2 * l.toNat)).toNat = 2 * l.toNat := Nat.mod_eq_of_lt (by omega)
  obtain ⟨hread, hrest⟩ := writeCells_zero_spec s.seq.mem.result (hn.trans hlen.symm)
  exact ⟨_, _, hn, hread, hrest, execStrip_of hl hmax hm hle hx⟩

end Sys2Proof.Proofs
end

section
/-! PROOFS. The ten library calls (46 R242 to R253), each by what its answer function computes: the entry of the curve
table, the numerals LC_BNHEX and LC_BNBIN read and LC_PENC writes, the modular inverse of LC_BNINV, the point LC_PDEC
finds, the multiples of LC_PMUL and the sums of LC_PADD. -/

namespace Sys2Proof.Proofs

open Sys2Proof Sys2Proof.Machine Sys2Proof.Safety

/-! ### Answers (46 R240, R242) -/

/-- Settles O32: an operation answers every argument values of its own, and the draw of RESFAIL replaces the answer. -/
theorem resourceFailure : Obligations.ResourceFailure := by
  unfold Obligations.ResourceFailure
  intro i s m l hc hm hdraw
  obtain ⟨hlib, r, hr⟩ := libAnswer_of_argsMatch hm s.lib.params
  rw [exec_eq_serve hlib, serve_of hc hr]
  simp [answer, hdraw, answered]

/-- A machine with the parameters `P` that awaits the answer to `m` and draws no RESFAIL. -/
def awaiting (P : Params) (m : LMsg) : State :=
  { State.reset with chan := .sent m, lib := { State.reset.lib with params := P, fails := [false] } }

/-- A call has at most one answer to its argument values. -/
theorem answers_unique {P : Params} {i : Instr} {m : LMsg} {r r' : LRet} (h : answers P i m r) (h' : answers P i m r') :
    r = r' := by
  have hs := (h (awaiting P m) _ rfl rfl rfl).symm.trans (h' (awaiting P m) _ rfl rfl rfl)
  cases hs
  rfl

/-! ### LC_CURVE (46 R244) -/

theorem findCurve_append {before after : List Curve} {id : Byte} (h : ∀ d ∈ before, d.id ≠ id) :
    findCurve (before ++ after) id = findCurve after id := by
  induction before with
  | nil => rfl
  | cons d rest ih =>
    rw [List.forall_mem_cons] at h
    rw [List.cons_append, findCurve, if_neg h.1, ih h.2]

/-- Settles O33: the search passes over the entries with other identifiers and stops at the first with this one. -/
theorem curveLookup : Obligations.CurveLookup := by
  unfold Obligations.CurveLookup
  intro P id
  constructor
  · intro before after c hP hid hbefore
    have hfind : findCurve P.table id = some c := by rw [hP, findCurve_append hbefore, findCurve, if_pos hid]
    simpa [libCurve, hfind] using answers_curve P id
  · intro hnone
    have hfind : findCurve P.table id = none := by rw [← P.table.append_nil, findCurve_append hnone, findCurve]
    simpa [libCurve, hfind] using answers_curve P id

/-! ### Numerals: LC_BNHEX, LC_BNBIN (46 R245, R246) -/

/-- The claims' table of hexadecimal digits is the reader's three ranges. -/
theorem digitOf_eq_hexDigit (x : Byte) : digitOf x = hexDigit x := by
  have hdec : x.toNat ∈ [0x30, 0x31, 0x32, 0x33, 0x34, 0x35, 0x36, 0x37, 0x38, 0x39] ↔
      0x30 ≤ x.toNat ∧ x.toNat ≤ 0x39 := by
    simp only [List.mem_cons, List.not_mem_nil, or_false]
    omega
  have hlower : x.toNat ∈ [0x61, 0x62, 0x63, 0x64, 0x65, 0x66] ↔ 0x61 ≤ x.toNat ∧ x.toNat ≤ 0x66 := by
    simp only [List.mem_cons, List.not_mem_nil, or_false]
    omega
  have hupper : x.toNat ∈ [0x41, 0x42, 0x43, 0x44, 0x45, 0x46] ↔ 0x41 ≤ x.toNat ∧ x.toNat ≤ 0x46 := by
    simp only [List.mem_cons, List.not_mem_nil, or_false]
    omega
  rw [digitOf, hexDigit, if_congr hdec rfl rfl, if_congr hlower rfl rfl, if_congr hupper rfl rfl]
  split
  · rfl
  · split
    · exact congrArg some (by omega)
    · split
      · exact congrArg some (by omega)
      · rfl

theorem hexValue_of_ne_nil {h : List Byte} (hne : h ≠ []) : hexValue h = hexFrom 0 h := by
  cases h with
  | nil => exact absurd rfl hne
  | cons x rest => rfl

/-- Digits read after a value shift it by their number and add the value they write. -/
theorem hexFrom_of_digits {h : List Byte} {ds : List Nat} (hds : h.map digitOf = ds.map some) (acc : Nat) :
    hexFrom acc h = some (acc * 16 ^ ds.length + positional 16 ds) := by
  induction h generalizing ds acc with
  | nil =>
    obtain rfl : ds = [] := by simpa using hds.symm
    simp [hexFrom, positional]
  | cons x rest ih =>
    cases ds with
    | nil => simp at hds
    | cons d ds =>
      obtain ⟨hd, hrest⟩ : digitOf x = some d ∧ rest.map digitOf = ds.map some := by simpa using hds
      rw [digitOf_eq_hexDigit] at hd
      simp only [hexFrom, hd, ih hrest, positional_cons, List.length_cons]
      congr 1
      ring

/-- One character that is no digit spoils the string. -/
theorem hexFrom_eq_none {h : List Byte} {x : Byte} (hx : x ∈ h) (hd : digitOf x = none) (acc : Nat) :
    hexFrom acc h = none := by
  induction h generalizing acc with
  | nil => cases hx
  | cons y rest ih =>
    rw [hexFrom]
    rcases List.mem_cons.1 hx with rfl | hx
    · rw [← digitOf_eq_hexDigit, hd]
    · cases hexDigit y with
      | none => rfl
      | some d => exact ih hx _

/-- Settles O34: digits are read from the left, each one shifting the value so far by 16, which is their positional
value; what is no digit ends the reading. -/
theorem hexParse : Obligations.HexParse := by
  unfold Obligations.HexParse
  intro P dst src h
  constructor
  · intro ds hne hds
    have hv : hexValue h = some (positional 16 ds) := by
      rw [hexValue_of_ne_nil hne, hexFrom_of_digits hds, Nat.zero_mul, Nat.zero_add]
    exact ⟨hexValue_lt hv, by simpa [libBnhex, hv] using answers_bnhex P dst src h⟩
  · intro hbad
    have hv : hexValue h = none := by
      rcases hbad with rfl | ⟨x, hx, hd⟩
      · rfl
      · rw [hexValue_of_ne_nil (List.ne_nil_of_mem hx), hexFrom_eq_none hx hd]
    simpa [libBnhex, hv] using answers_bnhex P dst src h

/-- Settles O35: BE of a byte string is its positional value in base 256. -/
theorem binaryParse : Obligations.BinaryParse := by
  unfold Obligations.BinaryParse
  intro P dst d
  rw [← be_eq_positional]
  exact ⟨be_lt d, answers_bnbin P dst d⟩

/-! ### LC_BNNEG, LC_PINF (46 R247, R252) -/

/-- Settles O36: both answers stand in the definitions of the two calls. -/
theorem negateAndInfinity : Obligations.NegateAndInfinity :=
  ⟨answers_bnneg, fun P a => ⟨answers_pinf P a .inf, fun x y => answers_pinf P a (.aff x y)⟩⟩

/-! ### LC_BNINV (46 R248) -/

/-- Integers that are not prime to the modulus have no inverse in the library. -/
theorem modInv_of_not_coprime {m v : Nat} (hm : 0 < m) (hv : ¬ Nat.Coprime v m) : modInv m v = none := by
  refine if_neg fun hone => hv ?_
  rwa [euclid_gcd 0 1 (Nat.mod_lt v hm).le hm (modInv_fuel hm), euclid_step_gcd] at hone

theorem coprime_toNat_iff {a m : Int} (ha : 0 ≤ a) (hm : 0 ≤ m) :
    Nat.Coprime a.toNat m.toNat ↔ Int.gcd a m = 1 := by
  lift a to ℕ using ha
  lift m to ℕ using hm
  rfl

/-- Two inverses of one integer mod m that lie in [1, m-1] are equal. -/
theorem inverse_unique {v m u w : Int} (hu : 1 ≤ u ∧ u ≤ m - 1) (hw : 1 ≤ w ∧ w ≤ m - 1) (hvu : v * u % m = 1 % m)
    (hvw : v * w % m = 1 % m) : u = w := by
  have huw : u ≡ w [ZMOD m] :=
    calc u = 1 * u := (one_mul u).symm
      _ ≡ v * w * u [ZMOD m] := (Int.ModEq.symm hvw).mul_right u
      _ = v * u * w := by ring
      _ ≡ 1 * w [ZMOD m] := Int.ModEq.mul_right w hvu
      _ = w := one_mul w
  rwa [Int.ModEq, Int.emod_eq_of_lt (by omega) (by omega), Int.emod_eq_of_lt (by omega) (by omega)] at huw

/-- Settles O37: Euclid's algorithm gives an inverse of v mod m where there is one, reduced to [0, m-1]; it is not 0,
since 0 is no inverse mod m >= 2. -/
theorem modularInverse : Obligations.ModularInverse := by
  unfold Obligations.ModularInverse
  intro P dst a b v m hm
  have hlib := answers_bninv P dst a b v m
  rw [libBninv, if_pos hm] at hlib
  have hpos : 0 ≤ v % m := Int.emod_nonneg v (by omega)
  have hcop := coprime_toNat_iff hpos (show 0 ≤ m by omega)
  constructor
  · intro hgcd
    obtain ⟨w, hw, hinv⟩ := modInv_of_coprime (by omega) (hcop.2 hgcd)
    have hlt := modInv_lt (by omega) hw
    rw [Int.toNat_of_nonneg hpos, Int.toNat_of_nonneg (by omega)] at hinv
    have hone : (1 : Int) % m = 1 := Int.emod_eq_of_lt (by omega) (by omega)
    have hvw : v * w % m = 1 % m := ((Int.mod_modEq v m).symm.mul_right w).trans hinv
    have hne : w ≠ 0 := by
      rintro rfl
      rw [hone] at hvw
      simp at hvw
    have hrange : 1 ≤ (w : Int) ∧ (w : Int) ≤ m - 1 := by omega
    refine ⟨w, hrange.1, hrange.2, hvw.trans hone, fun u h1 h2 hvu => ?_, by simpa [hw] using hlib⟩
    exact inverse_unique ⟨h1, h2⟩ hrange (hvu.trans hone.symm) hvw
  · intro hgcd
    have hnone := modInv_of_not_coprime (by omega) (mt hcop.1 hgcd)
    simpa [hnone] using hlib

/-! ### LC_PDEC (46 R249) -/

section Decompression

variable {P : Params} {id : Byte} {c : Curve} {x : Int} {v : BitVec 1}

theorem decompressX_of_neg (hx : x < 0) : decompressX P c x = none := if_pos hx

theorem decompressX_of_lt (hpos : 0 ≤ x) (hx : x < c.p) : decompressX P c x = some x.toNat := by
  rw [decompressX, if_neg (by omega), if_pos hx]

theorem decompressX_of_domfail (hx : (c.p : Int) ≤ x) (hoor : P.decompOor = .domfail) : decompressX P c x = none := by
  rw [decompressX, if_neg (by omega), if_neg (by omega), hoor]

theorem decompressX_of_reduce (hx : (c.p : Int) ≤ x) (hoor : P.decompOor = .reduce) :
    decompressX P c x = some (x % (c.p : Int)).toNat := by
  rw [decompressX, if_neg (by omega), if_neg (by omega), hoor]

theorem libPdec_eq_domfail (hc : findCurve P.table id = some c)
    (h : ∀ n, decompressX P c x = some n → decompress c n v = none) : libPdec P id x v = .domfail := by
  cases hx : decompressX P c x with
  | none => simp only [libPdec, hc, hx]
  | some n => simp only [libPdec, hc, hx, h n hx]

/-- The answer depends on the integer only through the X-coordinate it stands for. -/
theorem libPdec_congr (hc : findCurve P.table id = some c) {x' : Int} (h : decompressX P c x = decompressX P c x') :
    libPdec P id x v = libPdec P id x' v := by
  simp only [libPdec, hc, h]

/-- The negative of a square root mod p is a square root. -/
theorem negated_mul_self {p y : Nat} (hy : y ≤ p) : (p - y) % p * ((p - y) % p) % p = y * y % p := by
  rw [← ZMod.natCast_eq_natCast_iff', Nat.cast_mul, ZMod.natCast_mod, Nat.cast_sub hy, ZMod.natCast_self]
  push_cast
  ring

/-- The Y-coordinates LC_PDEC chooses from give points of the curve. -/
theorem onCurve_of_isRoot (hp : 0 < c.p) {n y : Nat} (hn : n < c.p) (h : IsRoot c n y) : onCurve c (.aff n y) := by
  refine ⟨hn, isRoot_lt hp h, ?_⟩
  obtain ⟨y0, hs, rfl | rfl⟩ := h
  · exact sqrtMod_sound hs
  · rw [negated_mul_self (sqrtMod_lt hp hs).le, sqrtMod_sound hs]

/-- LC_PDEC finds no point where the curve has none of the X-coordinate and the parity. -/
theorem decompress_eq_none (hc : GoodCurve c) {n : Nat} (hn : n < c.p)
    (h : ∀ y, onCurve c (.aff n y) → y % 2 ≠ v.toNat) : decompress c n v = none := by
  rw [Option.eq_none_iff_forall_ne_some]
  intro q hq
  obtain ⟨y, hroot, hy, -⟩ := (decompress_eq_some_iff (odd_of_goodCurve hc)).1 hq
  exact h y (onCurve_of_isRoot hc.prime.pos hn hroot) hy

end Decompression

/-- Settles O38: LC_PDEC gives the root of the parity asked for, and the roots it chooses from are the Y-coordinates of
the curve's points; out of [0, p-1] the X-coordinate is refused or reduced first. -/
theorem decompress : Obligations.Decompress := by
  unfold Obligations.Decompress
  intro P id c dst a v x hc hgood
  have hlib := answers_pdec P dst a v id x
  refine ⟨fun y hpos hy hv => ?_, fun hpos hx hnone => ?_, fun hneg => ?_, fun hx hoor => ?_, fun r hx hoor hr => ?_⟩
  · have hpoint := libPdec_of_onCurve hc hgood hy hv
    rw [Int.toNat_of_nonneg hpos] at hpoint
    rwa [hpoint] at hlib
  · have hdec : ∀ n, decompressX P c x = some n → Machine.decompress c n v = none := by
      intro n hn
      cases (decompressX_of_lt hpos hx).symm.trans hn
      exact decompress_eq_none hgood (by omega) hnone
    rwa [libPdec_eq_domfail hc hdec] at hlib
  · rwa [libPdec_eq_domfail hc (by simp [decompressX_of_neg hneg])] at hlib
  · rwa [libPdec_eq_domfail hc (by simp [decompressX_of_domfail hx hoor])] at hlib
  · have hp : (0 : Int) < c.p := by exact_mod_cast hgood.prime.pos
    have hsame : decompressX P c x = decompressX P c (x % c.p) := by
      rw [decompressX_of_reduce hx hoor, decompressX_of_lt (Int.emod_nonneg x hp.ne') (Int.emod_lt_of_pos x hp)]
    rw [answers_unique hr (answers_pdec P dst a v id (x % c.p)), ← libPdec_congr hc hsame]
    exact hlib

/-! ### LC_PMUL, LC_PADD (46 R250, R251) -/

section Multiples

variable {c : Curve} {q : Point}

theorem mulPoint_zero (c : Curve) (q : Point) : mulPoint c 0 q = .inf := rfl

theorem mulPoint_one (h : GroupLaws c) (hq : onCurve c q) : mulPoint c 1 q = q := by
  rw [mulPoint_eq_groupMul h 1 ⟨q, hq⟩, groupMul_one]

theorem groupMul_neg (h : GroupLaws c) (k : Int) (R : CurvePoint c) :
    (groupMul h (-k) R).1 = negPoint c (groupMul h k R).1 :=
  let _ := pointGroup h
  congrArg Subtype.val (neg_zsmul R k)

theorem mulPoint_neg (h : GroupLaws c) (hq : onCurve c q) (k : Int) :
    mulPoint c (-k) q = negPoint c (mulPoint c k q) := by
  rw [mulPoint_eq_groupMul h (-k) ⟨q, hq⟩, groupMul_neg, mulPoint_eq_groupMul h k ⟨q, hq⟩]

end Multiples

/-- Settles O39: on a curve that obeys (LAW1) the library's multiple is that of the curve's group. -/
theorem scalarMultiplication : Obligations.ScalarMultiplication := by
  unfold Obligations.ScalarMultiplication
  intro P id c hc hlaws
  refine ⟨mulPoint c, fun dst b a k q => ?_, fun q hq => ⟨mulPoint_zero c q, fun k => ?_⟩⟩
  · simpa only [libPmul_of hc] using answers_pmul P dst b a id k q
  · refine ⟨mulPoint_onCurve hlaws hq k, ?_, mulPoint_neg hlaws hq k⟩
    rw [mulPoint_add hlaws hq, mulPoint_one hlaws hq]

theorem addPoint_inf (c : Curve) (q : Point) : addPoint c q .inf = q := by
  cases q <;> rfl

/-- A point with coordinates in [0, p-1] and its negative sum to INF, by the first case of addition. -/
theorem addPoint_negPoint {c : Curve} {q : Point} (hq : onCurve c q) : addPoint c q (negPoint c q) = .inf := by
  cases q with
  | inf => rfl
  | aff x y =>
    obtain ⟨-, hy, -⟩ := hq
    refine if_pos ⟨rfl, ?_⟩
    rw [Nat.add_mod_mod, Nat.add_sub_cancel' hy.le, Nat.mod_self]

/-- Settles O40: LC_PADD answers the realisation's sum, and what that is beside INF and the negative. -/
theorem pointAddition : Obligations.PointAddition := by
  unfold Obligations.PointAddition
  intro P id c dst a b hc
  have hsum (q r : Point) : answers P (.lcPadd dst a b) (.padd id q r) (.ok (.point (addPoint c q r))) := by
    simpa only [libPadd_of hc] using answers_padd P dst a b id q r
  refine ⟨hsum, fun q => ?_, fun q => hsum .inf q, fun q hq => ?_⟩
  · simpa only [addPoint_inf] using hsum q .inf
  · simpa only [addPoint_negPoint hq] using hsum q (negPoint c q)

/-! ### LC_PENC (46 R253) -/

/-- The n bytes that I2OSP writes are the last n digits of the number in base 256. -/
theorem positional_i2osp (v n : Nat) : positional 256 ((i2osp v n).map BitVec.toNat) = v % 256 ^ n := by
  induction n with
  | zero => simp [i2osp, positional, Nat.mod_one]
  | succ n ih =>
    rw [Nat.mod_pow_succ, i2osp, List.map_cons, positional_cons, ih, List.length_map, i2osp_length, BitVec.toNat_ofNat,
      Nat.mul_comm, Nat.add_comm]

/-- Settles O41: the encoding is the format byte and the two coordinates as I2OSP writes them. -/
theorem pointEncoding : Obligations.PointEncoding := by
  unfold Obligations.PointEncoding
  intro P id c a hc
  refine ⟨fun x y hx hy => ?_, by simpa [libPenc, hc] using answers_penc P a id .inf⟩
  refine ⟨Config.formatByte id x y, i2osp x c.l, i2osp y c.l, i2osp_length x c.l, i2osp_length y c.l, ?_, ?_, ?_⟩
  · rw [positional_i2osp, Nat.mod_eq_of_lt hx]
  · rw [positional_i2osp, Nat.mod_eq_of_lt hy]
  · simpa [libPenc, hc, hx, hy] using answers_penc P a id (.aff x y)

/-! ### Where the contract gives no answer -/

/-- LC_BNINV with a modulus below 2 answers the free value, in a B register's range, or DOMFAIL. -/
theorem libBninv_of_lt {v m : Int} (hm : m < 2) :
    libBninv v m = .domfail ∨ ∃ w : Int, libBninv v m = .ok (.int w) ∧ w.natAbs < 2 ^ 1020 := by
  rw [libBninv, if_neg (by omega)]
  cases Config.bnInvLow v m with
  | none => exact .inl rfl
  | some x => exact .inr ⟨signed x, rfl, by simpa only [signed_natAbs] using x.2.isLt⟩

/-- Settles O42: the free value of LC_BNINV, and the search of a curve that finds none. -/
theorem openAnswers : Obligations.OpenAnswers := by
  unfold Obligations.OpenAnswers
  refine ⟨fun P dst a b v m hm => ⟨libBninv v m, libBninv_of_lt hm, answers_bninv P dst a b v m⟩, fun P id hnone => ?_⟩
  refine ⟨fun dst a v x => ?_, fun dst b a k q => ?_, fun dst a b q r => ?_, fun a q => ?_⟩
  · simpa only [libPdec, hnone] using answers_pdec P dst a v id x
  · simpa only [libPmul, hnone] using answers_pmul P dst b a id k q
  · simpa only [libPadd, hnone] using answers_padd P dst a b id q r
  · simpa only [libPenc, hnone] using answers_penc P a id q

end Sys2Proof.Proofs
end

section
/-! PROOFS. (LAW1) of the library's realisation (46 R241, R255, R256): on a curve of R255 the model's points are those of
Mathlib's Weierstrass curve over the p-element field, each coordinate written as its least residue, and the model's
addition and negation are that group's; `CurveGroupLaws`. -/

namespace Sys2Proof.Proofs

open Sys2Proof Sys2Proof.Machine Sys2Proof.Safety WeierstrassCurve

/-- The equation y^2 = x^3 + a x + b over the p-element field. -/
def fieldCurve (c : Curve) : Affine (ZMod c.p) where
  a₁ := 0
  a₂ := 0
  a₃ := 0
  a₄ := c.a
  a₆ := c.b

/-- A point over the field as the model's, its coordinates in [0, p-1]. -/
def toModel {c : Curve} : (fieldCurve c).Point → Point
  | .zero => .inf
  | .some x y _ => .aff x.val y.val

@[simp] theorem toModel_zero {c : Curve} : toModel (0 : (fieldCurve c).Point) = .inf := rfl

@[simp] theorem toModel_some {c : Curve} {x y : ZMod c.p} (h : (fieldCurve c).Nonsingular x y) :
    toModel (.some x y h) = .aff x.val y.val := rfl

section Field

variable {c : Curve} [Fact c.p.Prime]

/-! ### The points (46 R255) -/

theorem fieldCurve_equation_iff (x y : ZMod c.p) :
    (fieldCurve c).Equation x y ↔ y.val * y.val % c.p = curveRhs c x.val := by
  rw [Affine.equation_iff, curveRhs, ← ZMod.natCast_eq_natCast_iff']
  push_cast [ZMod.natCast_zmod_val, fieldCurve]
  ring_nf

/-- The discriminant of a curve of R255 is not 0: it is -16·(4a^3 + 27b^2), and p does not divide 16. -/
theorem fieldCurve_discriminant_ne_zero (hc : GoodCurve c) : (fieldCurve c).Δ ≠ 0 := by
  have hsmooth : (4 * c.a ^ 3 + 27 * c.b ^ 2 : ZMod c.p) ≠ 0 := by
    have h := mt (ZMod.natCast_eq_zero_iff _ _).1 (mt Nat.mod_eq_zero_of_dvd hc.smooth)
    push_cast at h
    convert h using 1
    ring
  have htwo : (2 : ZMod c.p) ≠ 0 := by
    exact_mod_cast mt (ZMod.natCast_eq_zero_iff 2 c.p).1 (Nat.not_dvd_of_pos_of_lt two_pos (by have := hc.large; omega))
  have hΔ : (fieldCurve c).Δ = -2 ^ 4 * (4 * c.a ^ 3 + 27 * c.b ^ 2) := by
    simp only [Δ, b₂, b₄, b₆, b₈, fieldCurve]
    ring
  rw [hΔ]
  exact mul_ne_zero (neg_ne_zero.2 (pow_ne_zero 4 htwo)) hsmooth

/-- The points of the curve are those of the field's. -/
theorem onCurve_iff_exists_toModel (hc : GoodCurve c) (q : Point) :
    onCurve c q ↔ ∃ P : (fieldCurve c).Point, toModel P = q := by
  constructor
  · intro hq
    cases q with
    | inf => exact ⟨.zero, rfl⟩
    | aff x y =>
      obtain ⟨hx, hy, hroot⟩ := hq
      have heq : (fieldCurve c).Equation x y := by
        rwa [fieldCurve_equation_iff, ZMod.val_cast_of_lt hx, ZMod.val_cast_of_lt hy]
      have hns := (Affine.equation_iff_nonsingular_of_Δ_ne_zero (fieldCurve_discriminant_ne_zero hc)).1 heq
      exact ⟨.some _ _ hns, by rw [toModel_some, ZMod.val_cast_of_lt hx, ZMod.val_cast_of_lt hy]⟩
  · rintro ⟨P, rfl⟩
    cases P with
    | zero => trivial
    | some x y hns => exact ⟨x.val_lt, y.val_lt, (fieldCurve_equation_iff x y).1 hns.1⟩

/-! ### Negation and addition (46 R256) -/

theorem toModel_neg (P : (fieldCurve c).Point) : toModel (-P) = negPoint c (toModel P) := by
  cases P with
  | zero => rfl
  | some x y hns =>
    rw [Affine.Point.neg_some, toModel_some, toModel_some, negPoint, ← ZMod.neg_val']
    simp [Affine.negY, fieldCurve]

/-- A residue of an integer mod p is its value in the field. -/
theorem emod_toNat_eq_val {p : Nat} [NeZero p] (z : Int) : (z % (p : Int)).toNat = (z : ZMod p).val := by
  rw [← ZMod.val_intCast, Int.toNat_natCast]

theorem fieldInverse_cast {p : Nat} [Fact p.Prime] {z : Int} (hz : (z : ZMod p) ≠ 0) :
    (fieldInverse p z : ZMod p) = (z : ZMod p)⁻¹ := by
  have hp : p.Prime := Fact.out
  have hcop : Nat.Coprime (z : ZMod p).val p := ZMod.val_coe_unit_coprime (Units.mk0 _ hz)
  obtain ⟨w, hw, hinv⟩ := modInv_of_coprime hp.two_le hcop
  rw [fieldInverse, emod_toNat_eq_val, hw]
  have hone := (ZMod.intCast_eq_intCast_iff _ _ p).2 hinv
  push_cast [ZMod.natCast_zmod_val] at hone
  exact eq_inv_of_mul_eq_one_right hone

/-- The third point on a line of slope `lam` and its reflection, in the field. -/
theorem chord_eq (lam : Int) (x1 y1 x2 : ZMod c.p) :
    chord c.p lam x1.val y1.val x2.val =
      .aff ((fieldCurve c).addX x1 x2 lam).val ((fieldCurve c).addY x1 x2 y1 lam).val := by
  rw [chord, emod_toNat_eq_val, emod_toNat_eq_val]
  push_cast [ZMod.natCast_zmod_val, ZMod.intCast_mod]
  simp only [Affine.addY, Affine.negY, Affine.negAddY, Affine.addX, fieldCurve]
  congr 2 <;> ring

/-- The first case of the model's addition is that of points that are negatives of each other. -/
theorem opposite_iff (x1 y1 x2 y2 : ZMod c.p) :
    (x1.val = x2.val ∧ (y1.val + y2.val) % c.p = 0) ↔ x1 = x2 ∧ y1 = (fieldCurve c).negY x2 y2 := by
  rw [(ZMod.val_injective c.p).eq_iff, ← ZMod.val_add, ZMod.val_eq_zero, add_eq_zero_iff_eq_neg]
  simp [Affine.negY, fieldCurve]

/-- The slope of the tangent, where it is not vertical. -/
theorem tangent_slope_cast {x y : ZMod c.p} (hy : y ≠ (fieldCurve c).negY x y) :
    (((3 * (x.val * x.val) + c.a : Nat) * (fieldInverse c.p (2 * y.val : Nat) : Int) : Int) : ZMod c.p) =
      (fieldCurve c).slope x x y y := by
  have h2y : y - (fieldCurve c).negY x y = 2 * y := by
    simp only [Affine.negY, fieldCurve]
    ring
  have hcast : (((2 * y.val : Nat) : Int) : ZMod c.p) = 2 * y := by simp
  have hne : (((2 * y.val : Nat) : Int) : ZMod c.p) ≠ 0 := by rwa [hcast, ← h2y, sub_ne_zero]
  rw [Affine.slope_of_Y_ne rfl hy, h2y, Int.cast_mul, Int.cast_natCast (fieldInverse _ _), fieldInverse_cast hne, hcast]
  push_cast [ZMod.natCast_zmod_val]
  simp only [fieldCurve]
  ring

/-- The slope of the secant. -/
theorem secant_slope_cast {x1 x2 : ZMod c.p} (y1 y2 : ZMod c.p) (hx : x1 ≠ x2) :
    ((((y2.val : Int) - y1.val) * (fieldInverse c.p ((x2.val : Int) - x1.val) : Int) : Int) : ZMod c.p) =
      (fieldCurve c).slope x1 x2 y1 y2 := by
  have hcast : (((x2.val : Int) - x1.val : Int) : ZMod c.p) = x2 - x1 := by simp
  have hne : (((x2.val : Int) - x1.val : Int) : ZMod c.p) ≠ 0 := by rwa [hcast, sub_ne_zero, ne_comm]
  rw [Affine.slope_of_X_ne hx, Int.cast_mul, Int.cast_natCast (fieldInverse _ _), fieldInverse_cast hne, hcast]
  push_cast [ZMod.natCast_zmod_val]
  rw [← neg_sub y1, ← neg_sub x1, inv_neg, neg_mul_neg, div_eq_mul_inv]

/-- The model's addition is the field curve's: INF is the identity, negatives sum to INF, and else the slope is that of
the tangent or the secant. -/
theorem toModel_add (P Q : (fieldCurve c).Point) : toModel (P + Q) = addPoint c (toModel P) (toModel Q) := by
  cases P with
  | zero => exact congrArg toModel (zero_add Q)
  | some x1 y1 h1 =>
    cases Q with
    | zero => exact congrArg toModel (add_zero (Affine.Point.some x1 y1 h1))
    | some x2 y2 h2 =>
      simp only [toModel_some, addPoint]
      by_cases hopp : x1 = x2 ∧ y1 = (fieldCurve c).negY x2 y2
      · rw [if_pos ((opposite_iff x1 y1 x2 y2).2 hopp), Affine.Point.add_of_Y_eq hopp.1 hopp.2, toModel_zero]
      · rw [if_neg (mt (opposite_iff x1 y1 x2 y2).1 hopp), Affine.Point.add_some hopp, toModel_some]
        by_cases hx : x1 = x2
        · subst hx
          obtain rfl : y1 = y2 := Affine.Y_eq_of_Y_ne h1.1 h2.1 rfl fun h => hopp ⟨rfl, h⟩
          rw [if_pos ⟨rfl, rfl⟩, chord_eq, tangent_slope_cast fun h => hopp ⟨rfl, h⟩]
        · rw [if_neg fun h => hx (ZMod.val_injective c.p h.1), chord_eq, secant_slope_cast y1 y2 hx]

end Field

/-- Settles O43: the laws are those of the group of points of Mathlib's Weierstrass curve. -/
theorem curveGroupLaws : Obligations.CurveGroupLaws := by
  unfold Obligations.CurveGroupLaws
  intro c hc
  have : Fact c.p.Prime := ⟨hc.prime⟩
  have hpoints := onCurve_iff_exists_toModel hc
  refine ⟨fun P Q hP hQ => ?_, fun P hP => ?_, fun P Q R hP hQ hR => ?_, fun P Q hP hQ => ?_,
    fun P _ => addPoint_inf c P, fun P hP => addPoint_negPoint hP⟩
  · obtain ⟨P, rfl⟩ := (hpoints P).1 hP
    obtain ⟨Q, rfl⟩ := (hpoints Q).1 hQ
    exact (hpoints _).2 ⟨P + Q, toModel_add P Q⟩
  · obtain ⟨P, rfl⟩ := (hpoints P).1 hP
    exact (hpoints _).2 ⟨-P, toModel_neg P⟩
  · obtain ⟨P, rfl⟩ := (hpoints P).1 hP
    obtain ⟨Q, rfl⟩ := (hpoints Q).1 hQ
    obtain ⟨R, rfl⟩ := (hpoints R).1 hR
    simp only [← toModel_add, add_assoc]
  · obtain ⟨P, rfl⟩ := (hpoints P).1 hP
    obtain ⟨Q, rfl⟩ := (hpoints Q).1 hQ
    simp only [← toModel_add, add_comm]

end Sys2Proof.Proofs
end

section
/-! PROOFS. The failure exit (60 R272, R273, R280): the one way into FAIL, and the kind it records; `FailureRecords`. -/

namespace Sys2Proof.Proofs

open Sys2Proof Sys2Proof.Machine Sys2Proof.Safety

/-- A failed call names a micro-op and a kind that it can raise (60 R272). -/
theorem mayRaise_of_fail {s : State} (h : Inv s) (hp : s.seq.phase = 0x14) :
    mayRaise s.seq.errphase s.seq.errkind = true := by
  have herr := h.errors
  rwa [errorsOk, if_pos hp] at herr

/-- With the reset input up a step comes to IDLE (70 R300). -/
theorem phase_of_reset {s t : State} (hrst : s.host.rst = true) (hstep : step s = .next t) : t.seq.phase = 0x00 := by
  rw [step, if_pos hrst] at hstep
  cases hstep
  rfl

/-- Of the moves of PHASE the failure exit alone comes to FAIL from elsewhere (60 R280). -/
theorem failed_of_step_to_fail {s t : State} (h : Inv s) (hstep : step s = .next t) (hp : s.seq.phase ≠ 0x14)
    (ht : t.seq.phase = 0x14) : ∃ k, t = failed k s.seq.phase s := by
  have hrst : s.host.rst = false := Bool.eq_false_iff.2 fun hrst => by cases ht.symm.trans (phase_of_reset hrst hstep)
  rcases phaseMoves s t h hrst hstep with
    hstays | ⟨-, haccepts, -⟩ | ⟨-, hmax, hnext, -⟩ | ⟨-, -, -, hfails⟩ | ⟨-, hends, -⟩
  · exact absurd (hstays.symm.trans ht) hp
  · cases ht.symm.trans haccepts
  · have hfail : t.seq.phase.toNat = 0x14 := congrArg BitVec.toNat ht
    omega
  · exact hfails
  · cases ht.symm.trans hends

/-- Settles O53: the state at FAIL is one of the invariant, so the kind the exit records is one its micro-op can raise. -/
theorem failureRecords : Obligations.FailureRecords := by
  unfold Obligations.FailureRecords
  intro s t h hstep hp ht
  obtain ⟨k, rfl⟩ := failed_of_step_to_fail h hstep hp ht
  exact ⟨mayRaise_of_fail (stepKeepsInv _ _ h hstep) ht, rfl⟩

end Sys2Proof.Proofs
end
